-- ==== Sys2Proof/Word.lean ====
section
/-! DEFINITION. The word types of the engine (spec/00_scope.md R7, R9, R12). Byte `j` of every value wider than
a byte is its bits `[8j+7 : 8j]`: the hardware is little-endian throughout (R11, R62, R68). -/

namespace Sys2Proof

/-- One byte of a buffer, of the key, of the nonce or of a tag. -/
abbrev Byte := BitVec 8

/-- A 32-bit word: a host register (R28), a command word (R90) or a lane of the internal state (R7). -/
abbrev Word := BitVec 32

/-- A 64-bit value: an address or a length (R36), or a data word of the duplex update (R116). -/
abbrev DWord := BitVec 64

/-- A 16-byte block or tag (R7). -/
abbrev Block := BitVec 128

/-- The 32-byte key (R7). -/
abbrev Key := BitVec 256

/-- The 20-byte nonce (R7). -/
abbrev Nonce := BitVec 160

/-- The engine's internal 512-bit state `S`: ONE storage, of which bytes, 32-bit words and 64-bit words are
views (R12, R20). -/
abbrev S512 := BitVec 512

end Sys2Proof
end

