-- ==== Sys2Proof/Syntax.lean ====
section
/-! DEFINITION. The instruction set: the three command words of spec/30_encoding.md R93. -/

namespace Sys2Proof

/-- One constructor per row of spec/opcode_table.json. A command word holds no immediate and no register number
(R92): every operand of a command is in the register file. -/
inductive Instr where
  /-- NOP, command word 0x00000000 (R173). -/
  | nop
  /-- ENCRYPT, command word 0x00000001 (R178). -/
  | encrypt
  /-- DECRYPT, command word 0x00000002 (R179). -/
  | decrypt
  deriving DecidableEq, Repr

end Sys2Proof
end

