-- ==== Sys2Proof/WellFormed.lean ====
section
/-! DEFINITION. The checks on a command word's fields (spec/30_encoding.md R91, R94) and on an instruction. -/

namespace Sys2Proof

/-- A command word taken apart into the two fields of R91: OP is bits 3:0, RSVD is bits 31:4. -/
structure CmdWord where
  op   : BitVec 4
  rsvd : BitVec 28
  deriving DecidableEq, Repr

/-- RSVD "must be 0" (R91). -/
def CmdWord.reservedZero (c : CmdWord) : Bool := c.rsvd == 0

/-- OP names an operation: 0x3..0xF are reserved (R91, R94). -/
def CmdWord.opDefined (c : CmdWord) : Bool := c.op.toNat < 3

/-- A command word is legal when both fields are (R93, R94). -/
def CmdWord.wellFormed (c : CmdWord) : Bool := c.reservedZero && c.opDefined

/-- An instruction is well formed when its operands are: none has any (R92), so each one is. The match names
every constructor, so that an instruction added to Syntax.lean has to be looked at here. -/
def Instr.wellFormed : Instr → Bool
  | .nop => true
  | .encrypt => true
  | .decrypt => true

end Sys2Proof
end

