-- ==== Sys2Proof/Decode.lean ====
section
/-! DEFINITION. The decoder of command words, total on all 2^32 of them (spec/30_encoding.md R93, R94), and after
it the encoder. -/

namespace Sys2Proof

/-- Why a command word is illegal (R94). The engine reports both as ILLEGAL_CMD. -/
inductive IllegalWord where
  /-- RSVD ≠ 0, whatever the OP. -/
  | reservedBits
  /-- RSVD = 0 and OP = 0x3..0xF. -/
  | reservedOp
  deriving DecidableEq, Repr

/-- The fields of a command word (R91). -/
def wordFields (w : Word) : CmdWord := { op := w.extractLsb' 0 4, rsvd := w.extractLsb' 4 28 }

/-- The operation an OP value names (R91); `none` for the reserved ones. -/
def opInstr (op : BitVec 4) : Option Instr :=
  if op = 0x0 then some .nop
  else if op = 0x1 then some .encrypt
  else if op = 0x2 then some .decrypt
  else none

/-- The decoder (R93): a command word's instruction, or the reason it is illegal. -/
def decode (w : Word) : Except IllegalWord Instr :=
  if (wordFields w).reservedZero then
    match opInstr (wordFields w).op with
    | some i => .ok i
    | none => .error .reservedOp
  else .error .reservedBits

/-- The host's question about a row of the opcode table: what the decoder reads from the `nbits` bits `w`.
An instruction is one 32-bit word (R90), so nothing wider is one. -/
def decodeTableWord (nbits w : Nat) : Option Instr :=
  if w % 2 ^ nbits < 2 ^ 32 then
    match decode (BitVec.ofNat 32 (w % 2 ^ nbits)) with
    | .ok i => some i
    | .error _ => none
  else none

/-- The OP field of an instruction (R91). -/
def instrOp : Instr → BitVec 4
  | .nop => 0x0
  | .encrypt => 0x1
  | .decrypt => 0x2

/-- The encoder: RSVD = 0 above the OP field (R91). -/
def encode (i : Instr) : Word := (0 : BitVec 28) ++ instrOp i

end Sys2Proof
end

