-- ==== Sys2Proof/Config.lean ====
section
/-! DEFINITION. What the platform fixes and the spec leaves open (spec/00_scope.md R8), and the free values.
Nothing here has a body that a proof could use. The other open parameters stand in State as plain data: `MemOK`
(`State.map`, log entry 2) and `N_ENGINES` (`State.peers`, log entry 3). -/

namespace Sys2Proof

/-- FREE VALUE (spec/93_implementation_defined.md I5: "each byte is an independent draw"): the `k`-th byte drawn
by the machine. The counter that is its argument is `State.draws` (log entry 4). -/
opaque Config.freeByte : Nat → Byte

/-- OPEN (R8, R28): which 256-byte page of the host's address space holds the register window of engine `k`.
The host address is taken as 64 bits wide (log entry 5, DESIGN CHOICE). -/
opaque Config.windowPage : Nat → BitVec 56

/-- OPEN (R8, R204): the platform's interrupt line that the `irq` output of engine `k` is wired to (log entry 19). -/
opaque Config.irqLine : Nat → Nat

/-- `ENGINE_BASE` of engine `k`: a 256-byte-aligned host address (R8, R28). -/
def Config.engineBase (k : Nat) : DWord := Config.windowPage k ++ 0#8

end Sys2Proof
end

