-- ==== Sys2Proof/Machine/Permutation.lean ====
section
/-! DEFINITION. The internal state's views, the permutation, the duplex update and initialization
(spec/10_state.md R20 to R27, spec/40_permutation_duplex.md R111 to R119). -/

namespace Sys2Proof.Machine

/-! ## The views of `S` (R12, R20, R21) -/

/-- `S` with the `w` bits from bit `lo` on replaced by `v`. Every view is written through this one function. -/
def putBits (s : S512) (lo : Nat) {w : Nat} (v : BitVec w) : S512 :=
  (s &&& ~~~((BitVec.allOnes w).setWidth 512 <<< lo)) ||| (v.setWidth 512 <<< lo)

/-- `S.b[k]` (R12). -/
def byteOf (s : S512) (k : Nat) : Byte := s.extractLsb' (8 * k) 8
/-- `S.w32[j] = LE32(S.b[4j..4j+4))` (R12). -/
def word32Of (s : S512) (j : Nat) : Word := s.extractLsb' (32 * j) 32
/-- `S.w64[k] = LE64(S.b[8k..8k+8))` (R12). -/
def word64Of (s : S512) (k : Nat) : DWord := s.extractLsb' (64 * k) 64
/-- Lane `x[i] = S.w32[i]` (R21). -/
def laneX (s : S512) (i : Nat) : Word := word32Of s i
/-- Lane `y[i] = S.w32[8 + i]` (R21). -/
def laneY (s : S512) (i : Nat) : Word := word32Of s (8 + i)

/-- `S.b[k] <- v`. -/
def setByte (s : S512) (k : Nat) (v : Byte) : S512 := putBits s (8 * k) v
/-- `S.w32[j] <- v`. -/
def setWord32 (s : S512) (j : Nat) (v : Word) : S512 := putBits s (32 * j) v
/-- `S.w64[k] <- v`. -/
def setWord64 (s : S512) (k : Nat) (v : DWord) : S512 := putBits s (64 * k) v
/-- `x[i] <- v`. -/
def setX (s : S512) (i : Nat) (v : Word) : S512 := setWord32 s i v
/-- `y[i] <- v`. -/
def setY (s : S512) (i : Nat) (v : Word) : S512 := setWord32 s (8 + i) v

/-- `for i in 0..n-1: S <- f(i, S)`, in increasing `i` (R14). -/
def forUpTo (n : Nat) (f : Nat → S512 → S512) (s : S512) : S512 := (List.range n).foldl (fun t i => f i t) s

/-! ## Constants -/

/-- The round constants `RC[0..7]` (R25). -/
def roundConstants : List Word :=
  [0xb7e15162, 0xbf715880, 0x38b4da56, 0x324e7738, 0xbb1185eb, 0x4f7c7b57, 0xcfbfa1c8, 0xc2b3293d]

/-- The rotation schedule `ROT[0..3]`: the pair (r1, r2) of each round (R26). -/
def rotations : List (Nat × Nat) := [(31, 24), (17, 17), (0, 31), (24, 16)]

/-- The initial value `IV[0..15]`, `x` first (R27, log entry 9). -/
def initialValue : List Word :=
  [0x243f6a88, 0x85a308d3, 0x13198a2e, 0x03707344, 0xa4093822, 0x299f31d0, 0x082efa98, 0xec4e6c89,
   0x452821e6, 0x38d01377, 0xbe5466cf, 0x34e90c6c, 0xc0ac29b7, 0xc97c50dd, 0x3f84d5b5, 0xb5470917]

/-! ## The permutation -/

/-- `rotr32(v, n) = ((v >> n) | (v << (32 - n))) mod 2^32`, and `rotr32(v, 0) = v` (R10). -/
def rotr32 (v : Word) (n : Nat) : Word := if n = 0 then v else (v >>> n) ||| (v <<< (32 - n))

/-- Step 1 of a round: `x[i] <- x[i] +32 rotr32(y[i], r1)` on every lane (R111). -/
def roundStep1 (r1 : Nat) (s : S512) : S512 := forUpTo 8 (fun i t => setX t i (laneX t i + rotr32 (laneY t i) r1)) s
/-- Step 2 of a round: `y[i] <- y[i] +32 rotr32(x[i], r2)`, with the new `x[i]` (R111, R112). -/
def roundStep2 (r2 : Nat) (s : S512) : S512 := forUpTo 8 (fun i t => setY t i (laneY t i + rotr32 (laneX t i) r2)) s
/-- Step 3 of a round: `x[i] <- x[i] ^ RC[i]` (R111). -/
def roundStep3 (s : S512) : S512 := forUpTo 8 (fun i t => setX t i (laneX t i ^^^ roundConstants.getD i 0)) s

/-- `Round(x, y, r1, r2)` (R111): the steps in the order 1, 2, 3 (R112). -/
def round (r1 r2 : Nat) (s : S512) : S512 := roundStep3 (roundStep2 r2 (roundStep1 r1 s))

/-- `Permute(S)` (R113): one round for each pair of the schedule. -/
def permute (s : S512) : S512 := rotations.foldl (fun t r => round r.1 r.2 t) s

/-! ## The duplex update -/

/-- The feedback of the update: 64-bit word `i` of the permuted state is XORed with word `(i - 1) mod 8` of the
snapshot (R115). -/
def feedback (snap s : S512) : S512 :=
  forUpTo 8 (fun i t => setWord64 t i (word64Of t i ^^^ word64Of snap ((i + 7) % 8))) s

/-- The data injection: `d1` into 64-bit word 0 and `d2` into 64-bit word 4 (R116). -/
def inject (d1 d2 : DWord) (s : S512) : S512 :=
  let t := setWord64 s 0 (word64Of s 0 ^^^ d1)
  setWord64 t 4 (word64Of t 4 ^^^ d2)

/-- `Update(S, d1, d2)` (R116): snapshot, permute, feedback, injection. -/
def update (d1 d2 : DWord) (s : S512) : S512 := inject d1 d2 (feedback s (permute s))

/-! ## Initialization -/

/-- `x[i] <- IV[i]; y[i] <- IV[8+i]` for i = 0..7 (R118). -/
def loadIV (s : S512) : S512 :=
  forUpTo 8 (fun i t => setY (setX t i (initialValue.getD i 0)) i (initialValue.getD (8 + i) 0)) s

/-- `S.b[j] <- S.b[j] ^ K[j]` for j = 0..31 (R118). -/
def xorKey (K : Key) (s : S512) : S512 :=
  forUpTo 32 (fun j t => setByte t j (byteOf t j ^^^ K.extractLsb' (8 * j) 8)) s

/-- `S.b[32 + j] <- S.b[32 + j] ^ N[j]` for j = 0..19 (R118). -/
def xorNonce (N : Nonce) (s : S512) : S512 :=
  forUpTo 20 (fun j t => setByte t (32 + j) (byteOf t (32 + j) ^^^ N.extractLsb' (8 * j) 8)) s

/-- The load of `Init` (R118): what stands in `S` before the first of the twenty updates, whatever stood there. -/
def initLoad (K : Key) (N : Nonce) (s : S512) : S512 := xorNonce N (xorKey K (loadIV s))

/-- Update number `i` of `Init`: the counter goes into both words (R118). -/
def initUpdate (i : Nat) (s : S512) : S512 := update (BitVec.ofNat 64 i) (BitVec.ofNat 64 i) s

/-- `Init(K, N)` (R118): the load and twenty updates. -/
def init (K : Key) (N : Nonce) : S512 := forUpTo 20 initUpdate (initLoad K N 0)

end Sys2Proof.Machine
end

