-- ==== Sys2Proof/Machine/Block.lean ====
section
/-! DEFINITION. The operations above the duplex update (spec/41_block_mac.md R140 to R157): masking, block
encryption and decryption, padding, rollback, tag, comparison, and the two pure AEAD functions. -/

namespace Sys2Proof.Machine

/-! ## Bytes and blocks -/

/-- The block whose byte `j` is the list's byte `j` (R11, R68), zeros after the list's end. -/
def blockOfBytes (l : List Byte) : Block := l.foldr (fun b acc => (acc <<< 8) ||| b.setWidth 128) 0

/-- The sixteen bytes of a block, byte 0 first. -/
def blockBytes (blk : Block) : List Byte := (List.range 16).map (fun j => blk.extractLsb' (8 * j) 8)

/-- `Pad(seg) = seg || 0^(16 - |seg|)` (R143). -/
def pad (seg : List Byte) : Block := blockOfBytes (seg ++ List.replicate (16 - seg.length) 0)

/-- How many blocks, the partial one included, a sequence of `L` bytes has (R144). -/
def blockCount (L : Nat) : Nat := (L + 15) / 16

/-- Block `b` of a byte sequence, unpadded: its bytes `[16b..16b+16)`, fewer in a partial block (R144). -/
def segment (bytes : List Byte) (b : Nat) : List Byte := (bytes.drop (16 * b)).take 16

/-! ## Block operations -/

/-- `Mask(S, blk)` (R140): the block XOR the state bytes [16..32) and [48..64). -/
def mask (s : S512) (blk : Block) : Block := blk ^^^ s.extractLsb' 128 128 ^^^ s.extractLsb' 384 128

/-- The update that absorbs a block: `Update(S, LE64(blk[0..8)), LE64(blk[8..16)))` (R141, R142). -/
def absorb (blk : Block) (s : S512) : S512 := update (blk.extractLsb' 0 64) (blk.extractLsb' 64 64) s

/-- `EncBlock(S, blk)` (R141): the new state, which absorbed the unmasked input, and the masked output. -/
def encBlock (s : S512) (blk : Block) : S512 × Block := (absorb blk s, mask s blk)

/-- `DecBlock(S, blk)` (R142): the new state, which absorbed the recovered plaintext, and that plaintext. -/
def decBlock (s : S512) (blk : Block) : S512 × Block := (absorb (mask s blk) s, mask s blk)

/-- `t` of the rollback: the `r` valid bytes zeroed, the padding bytes `p[r..16)` kept (R148). -/
def paddingOf (p : Block) (r : Nat) : Block := p &&& (BitVec.allOnes 128 <<< (8 * r))

/-- `Rollback(S, p, r)` (R148): `t[0..8)` into `S.b[0..8)` and `t[8..16)` into `S.b[32..40)`. -/
def rollback (s : S512) (p : Block) (r : Nat) : S512 :=
  inject ((paddingOf p r).extractLsb' 0 64) ((paddingOf p r).extractLsb' 64 64) s

/-- `DecBlock` of a payload block of `k` bytes, followed by the rollback of a partial one (R149, R179). -/
def decPayloadBlock (s : S512) (seg : List Byte) : S512 × Block :=
  let (t, p) := decBlock s (pad seg)
  (if seg.length < 16 then rollback t p seg.length else t, p)

/-! ## Tag -/

/-- One of the ten updates of the finalization: `Update(S, a, n)` (R151). -/
def macUpdate (a n : DWord) (s : S512) : S512 := update a n s

/-- The tag fold: the four 16-byte windows of the state XORed together (R151). -/
def tagFold (s : S512) : Block :=
  s.extractLsb' 0 128 ^^^ s.extractLsb' 128 128 ^^^ s.extractLsb' 256 128 ^^^ s.extractLsb' 384 128

/-- `Mac(S, a, n)` (R151). -/
def mac (s : S512) (a n : DWord) : Block := tagFold (forUpTo 10 (fun _ t => macUpdate a n t) s)

/-- The comparison accumulator after all sixteen bytes: `acc <- acc | (T[j] ^ T'[j])` (R152). -/
def tagDiff (T T' : Block) : Byte :=
  (List.range 16).foldl (fun acc j => acc ||| (T.extractLsb' (8 * j) 8 ^^^ T'.extractLsb' (8 * j) 8)) 0

/-- `CtEq(T, T')`: the one decision, after all sixteen bytes (R152). -/
def ctEq (T T' : Block) : Bool := tagDiff T T' == 0

/-- The byte that overwrites the output when authentication fails (R7, R153). -/
def failByte : Byte := 0xd0

/-! ## The pure functions -/

/-- `AbsorbAD(S, AD)` (R145): the masked outputs are discarded and the padding zeros are absorbed. -/
def absorbAD (s : S512) (ad : List Byte) : S512 :=
  (List.range (blockCount ad.length)).foldl (fun t b => (encBlock t (pad (segment ad b))).1) s

/-- One block of `EncryptPayload`: the output bytes of a partial block are cut to its length (R147). -/
def encryptStep (M : List Byte) (st : S512 × List Byte) (b : Nat) : S512 × List Byte :=
  let r := encBlock st.1 (pad (segment M b))
  (r.1, st.2 ++ (blockBytes r.2).take (segment M b).length)

/-- `EncryptPayload(S, M)` (R147): the state after it and the ciphertext. -/
def encryptPayload (s : S512) (M : List Byte) : S512 × List Byte :=
  (List.range (blockCount M.length)).foldl (encryptStep M) (s, [])

/-- One block of `DecryptPayload` (R149). -/
def decryptStep (C : List Byte) (st : S512 × List Byte) (b : Nat) : S512 × List Byte :=
  let r := decPayloadBlock st.1 (segment C b)
  (r.1, st.2 ++ (blockBytes r.2).take (segment C b).length)

/-- `DecryptPayload(S, C)` (R149): the state after it and the plaintext. -/
def decryptPayload (s : S512) (C : List Byte) : S512 × List Byte :=
  (List.range (blockCount C.length)).foldl (decryptStep C) (s, [])

/-- `AeadEncrypt(K, N, AD, M)` (R156): the ciphertext and the tag. -/
def aeadEncrypt (K : Key) (N : Nonce) (ad M : List Byte) : List Byte × Block :=
  let r := encryptPayload (absorbAD (init K N) ad) M
  (r.2, mac r.1 (BitVec.ofNat 64 ad.length) (BitVec.ofNat 64 M.length))

/-- The recomputed tag of a decryption (R157). -/
def decryptTag (K : Key) (N : Nonce) (ad C : List Byte) : Block :=
  mac (decryptPayload (absorbAD (init K N) ad) C).1 (BitVec.ofNat 64 ad.length) (BitVec.ofNat 64 C.length)

/-- `AeadDecrypt(K, N, AD, C, T')` (R157): the plaintext, or 0xd0 in every byte, and whether the tag is right. -/
def aeadDecrypt (K : Key) (N : Nonce) (ad C : List Byte) (T' : Block) : List Byte × Bool :=
  if ctEq (decryptTag K N ad C) T' then ((decryptPayload (absorbAD (init K N) ad) C).2, true)
  else (List.replicate C.length failByte, false)

end Sys2Proof.Machine
end

