-- ==== Sys2Proof/Machine/State.lean ====
section
/-! DEFINITION. Everything the spec gives the machine, as plain data (spec/10_state.md), and its value after reset
(spec/70_reset_and_hazards.md R230). The fields that are the MODEL's own and not the spec's are marked so; they
hold the other agent (the host), the platform's open parameters and the counter of the free values. -/

namespace Sys2Proof.Machine

/-- ERR_CODE (R200). The reserved codes 5..15 are "never produced", so they are no values of this type. -/
inductive ErrCode where
  /-- 0: no error. -/
  | none
  /-- 1: a CMD write of an illegal word. -/
  | illegalCmd
  /-- 2: a buffer ends beyond 2^64. -/
  | range
  /-- 3: OUT overlaps AD, or overlaps IN without equalling it. -/
  | overlap
  /-- 4: a memory access with `MemOK` false. -/
  | bus
  deriving DecidableEq, Repr

/-- The STATUS register (R30). Its reserved bits 31:8 hold nothing: they read as 0 and ignore writes. -/
structure Status where
  busy     : Bool
  done     : Bool
  authFail : Bool
  err      : Bool
  errCode  : ErrCode
  deriving DecidableEq, Repr

/-- STATUS = 0x00000000. -/
def Status.reset : Status :=
  { busy := false, done := false, authFail := false, err := false, errCode := .none }

/-- `CTX.op`: the command of the running command. `none` is the zero that reset and `Wipe` leave; it is the value
0x0 of the OP field, "none" (R41, R91). -/
inductive Op where
  | none
  | encrypt
  | decrypt
  deriving DecidableEq, Repr

/-- The hidden command context `CTX` captured at acceptance (R41). -/
structure Ctx where
  op : Op
  /-- `CTX.K`: the key bytes. -/
  K  : Key
  /-- `CTX.N`: the nonce bytes. -/
  N  : Nonce
  /-- `CTX.T`: the supplied tag. -/
  T  : Block
  /-- `CTX.A`: AD_ADDR. -/
  A  : DWord
  /-- `CTX.a`: AD_LEN. -/
  a  : DWord
  /-- `CTX.I`: IN_ADDR. -/
  I  : DWord
  /-- `CTX.n`: IN_LEN. -/
  n  : DWord
  /-- `CTX.O`: OUT_ADDR. -/
  O  : DWord
  deriving DecidableEq, Repr

/-- `CTX` all zeros: its value after reset and between commands (R41). -/
def Ctx.zero : Ctx := { op := .none, K := 0, N := 0, T := 0, A := 0, a := 0, I := 0, n := 0, O := 0 }

/-- The sequencer state PHASE (R42), the engine's counterpart of a program counter. -/
inductive Phase where
  | idle
  /-- INIT(i), i = 0..19: the initialization update number i comes next. -/
  | init (i : Fin 20)
  /-- AD(b): the associated-data block b comes next. -/
  | ad (b : Nat)
  /-- MSG(b): the payload block b comes next. -/
  | msg (b : Nat)
  /-- MAC(j), j = 0..9: the finalization update number j comes next. -/
  | mac (j : Fin 10)
  /-- VERIFY: the tag comparison of a DECRYPT comes next. -/
  | verify
  /-- FILL(o): the byte o of the output is overwritten with 0xd0 next. -/
  | fill (o : Nat)
  /-- WIPE: the wipe, and with it the completion, comes next. -/
  | wipe
  deriving DecidableEq, Repr

/-- One engine instance (R212): the host-visible register file (R28), and the hidden state of R20, R41, R42 and
R43. CMD holds no state (R29), and `irq` is a function of DONE and IE (R32), so neither has a field. -/
structure Engine where
  /-- STATUS (R30). -/
  status    : Status
  /-- IRQ_EN.IE (R32). -/
  ie        : Bool
  /-- KEY0..KEY7 (R33). -/
  key       : Vector Word 8
  /-- NONCE0..NONCE4 (R34). -/
  nonce     : Vector Word 5
  /-- TAG0..TAG3 (R35). -/
  tag       : Vector Word 4
  /-- AD_ADDR_LO, AD_ADDR_HI, AD_LEN_LO, AD_LEN_HI (R36). -/
  adAddrLo  : Word
  adAddrHi  : Word
  adLenLo   : Word
  adLenHi   : Word
  /-- IN_ADDR_LO, IN_ADDR_HI, IN_LEN_LO, IN_LEN_HI (R37). -/
  inAddrLo  : Word
  inAddrHi  : Word
  inLenLo   : Word
  inLenHi   : Word
  /-- OUT_ADDR_LO, OUT_ADDR_HI (R38). -/
  outAddrLo : Word
  outAddrHi : Word
  /-- The internal state `S` (R20). -/
  S         : S512
  /-- The command context (R41). -/
  ctx       : Ctx
  /-- PHASE (R42). -/
  phase     : Phase
  /-- The 16-byte block buffer (R43): the masked output of the last block (log entry 6). -/
  blk       : Block
  /-- The 16-byte recomputed tag (R43). -/
  rtag      : Block
  /-- The 8-bit comparison accumulator (R43). -/
  acc       : Byte
  deriving DecidableEq, Repr

/-- An engine right after reset: every register and all hidden state zero, PHASE IDLE (R230). -/
def Engine.reset : Engine :=
  { status := Status.reset, ie := false,
    key := #v[0, 0, 0, 0, 0, 0, 0, 0], nonce := #v[0, 0, 0, 0, 0], tag := #v[0, 0, 0, 0],
    adAddrLo := 0, adAddrHi := 0, adLenLo := 0, adLenHi := 0,
    inAddrLo := 0, inAddrHi := 0, inLenLo := 0, inLenHi := 0,
    outAddrLo := 0, outAddrHi := 0,
    S := 0, ctx := Ctx.zero, phase := .idle, blk := 0, rtag := 0, acc := 0 }

/-- A register of the window, by its name in R28. -/
inductive Reg where
  | cmd
  | status
  | irqEn
  | key (k : Fin 8)
  | nonce (k : Fin 5)
  | tag (k : Fin 4)
  | adAddrLo
  | adAddrHi
  | adLenLo
  | adLenHi
  | inAddrLo
  | inAddrHi
  | inLenLo
  | inLenHi
  | outAddrLo
  | outAddrHi
  deriving DecidableEq, Repr

/-- The two kinds of access of the engine's memory port (R13). -/
inductive AccessKind where
  | read
  | write
  deriving DecidableEq, Repr

/-- What the platform does with one engine access to a byte of memory. -/
inductive Response where
  /-- `MemOK` holds: the access is made. -/
  | ok
  /-- `MemOK` does not hold: the access raises `BusError` (R71). -/
  | busError
  /-- The access never gets a response (R241, I7). -/
  | silent
  deriving DecidableEq, Repr

/-- A range of addresses and the platform's response to the engine's reads and writes there (R8, R71). -/
structure Region where
  base  : Nat
  size  : Nat
  read  : Response
  write : Response
  deriving DecidableEq, Repr

/-- System memory (R60 (b)): the bytes that differ from what an unlisted address reads as, by rising address. -/
abbrev Memory := List Host.Cell

/-- The width of a host access to a register window (R61). -/
inductive Width where
  | w8
  | w16
  | w32
  | w64
  deriving DecidableEq, Repr

/-- One operation of the host on a register window; `off` is the offset from `ENGINE_BASE` (R28, R96). -/
inductive RegOp where
  /-- A write of `v`. -/
  | write (w : Width) (off : BitVec 8) (v : Word)
  /-- A read. -/
  | read (w : Width) (off : BitVec 8)
  /-- A 32-bit read, repeated until (value & mask) = val (`poll` of R96). -/
  | poll (off : BitVec 8) (mask val : Word)
  deriving DecidableEq, Repr

/-- What happens next in the system: an operation of the host or of another agent, one step of an engine, or a
reset (log entry 1). -/
inductive Event where
  /-- The host accesses the register window of engine `k`. -/
  | reg (k : Nat) (op : RegOp)
  /-- The host, or another agent, stores bytes to system memory, the first at `addr` (`mem` of R96). -/
  | store (addr : DWord) (bytes : List Byte)
  /-- The host, or another agent, reads `len` bytes of system memory. -/
  | load (addr : DWord) (len : Nat)
  /-- Engine `k` makes one internal step. -/
  | engine (k : Nat)
  /-- Engine `k` is reset (R230, R231). -/
  | reset (k : Nat)
  deriving DecidableEq, Repr

/-- The whole system: the engine in focus (the one `exec` acts on), the other instances, memory, the platform, and
the agents' operations still to come. -/
structure State where
  /-- The engine instance in focus, instance 0 (R212). -/
  eng    : Engine
  /-- The other engine instances, 1, 2, … (R212). Log entry 3. -/
  peers  : List Engine
  /-- System memory (R60 (b), R76). -/
  mem    : Memory
  /-- The MODEL's own: the platform's open predicate `MemOK` (R8, R71) as a list of regions. Log entry 2. -/
  map    : List Region
  /-- The MODEL's own: the events still to come, the next one first (R16, R17). Log entry 1. -/
  inputs : List Event
  /-- The MODEL's own: the value the last register read returned to the host (R171). Log entry 7. -/
  rdata  : Word
  /-- The MODEL's own: the bytes the last memory read returned to its agent. Log entry 7. -/
  mdata  : List Byte
  /-- The MODEL's own: how many free values have been drawn (I5). Log entry 4. -/
  draws  : Nat
  deriving DecidableEq, Repr

/-- Why the machine stops with a fault. -/
inductive Fault where
  /-- Raised by an event that names an engine instance the platform does not have (R212): no window is there
  (log entry 13). Safe: the machine stops. -/
  | noSuchEngine
  /-- Raised by a store or load event of the host or another agent that leaves the space of 2^64 addresses
  (R60 (b)) (log entry 13). Safe: the machine stops. -/
  | outsideMemory
  deriving DecidableEq, Repr

/-- Why the model gives a step no meaning. -/
inductive Refusal where
  /-- Raised by an arm of `exec` whose instruction has no meaning yet. Safe: the machine stops. -/
  | notModelled (mnemonic : String)
  /-- Raised by a store or load event into a buffer of a running command that R236 prohibits: "A launch that breaks
  this is outside the spec. A model refuses it" (I4, log entry 14). Safe: the machine stops. -/
  | liveBuffer
  /-- Raised by a launch on one engine whose OUT range overlaps a buffer of a command running on another, or whose
  buffers that other's OUT range overlaps: "a model refuses such a launch" (R213, I6, log entry 14). Safe: the machine stops. -/
  | engineOverlap
  deriving DecidableEq, Repr

/-- The system right after reset (R230): one idle engine (log entry 3), memory with nothing listed (log entry 8),
every access answered (log entry 2), and no event to come. -/
def State.reset : State :=
  { eng := Engine.reset, peers := [], mem := [], map := [], inputs := [], rdata := 0, mdata := [], draws := 0 }

end Sys2Proof.Machine
end

