-- ==== Sys2Proof/Machine/Operands.lean ====
section
/-! DEFINITION. The operands of a command and of a register access: the register map of spec/10_state.md R28, the
packing of bytes in registers (spec/20_memory.md R62, spec/30_encoding.md R92) and the buffer descriptors. -/

namespace Sys2Proof.Machine

/-! ## The register map -/

/-- The offset of a register in the window (R28). -/
def Reg.offset : Reg → BitVec 8
  | .cmd => 0x00
  | .status => 0x04
  | .irqEn => 0x08
  | .key k => BitVec.ofNat 8 (0x10 + 4 * k.val)
  | .nonce k => BitVec.ofNat 8 (0x30 + 4 * k.val)
  | .tag k => BitVec.ofNat 8 (0x50 + 4 * k.val)
  | .adAddrLo => 0x60
  | .adAddrHi => 0x64
  | .adLenLo => 0x68
  | .adLenHi => 0x6C
  | .inAddrLo => 0x70
  | .inAddrHi => 0x74
  | .inLenLo => 0x78
  | .inLenHi => 0x7C
  | .outAddrLo => 0x80
  | .outAddrHi => 0x84

/-- Every register of the window (R28). -/
def Reg.all : List Reg :=
  [.cmd, .status, .irqEn,
   .key 0, .key 1, .key 2, .key 3, .key 4, .key 5, .key 6, .key 7,
   .nonce 0, .nonce 1, .nonce 2, .nonce 3, .nonce 4,
   .tag 0, .tag 1, .tag 2, .tag 3,
   .adAddrLo, .adAddrHi, .adLenLo, .adLenHi,
   .inAddrLo, .inAddrHi, .inLenLo, .inLenHi, .outAddrLo, .outAddrHi]

/-- The register at an offset; `none` for a reserved or misaligned offset (R39, R61). -/
def Reg.atOffset (off : BitVec 8) : Option Reg := Reg.all.find? (fun r => r.offset == off)

/-- A host access to the window "has a defined effect only when it is 32 bits wide and its address is a multiple of
4 from ENGINE_BASE" (R61). -/
def accessDefined (w : Width) (off : BitVec 8) : Bool := decide (w = .w32) && off.toNat % 4 == 0

/-! ## Operands assembled from registers (R92) -/

/-- `K[4k+j] = KEYk[8j+7:8j]`: KEY0 holds the lowest bytes (R33, R62). -/
def Engine.keyBytes (e : Engine) : Key :=
  e.key[7] ++ e.key[6] ++ e.key[5] ++ e.key[4] ++ e.key[3] ++ e.key[2] ++ e.key[1] ++ e.key[0]

/-- `N[4k+j] = NONCEk[8j+7:8j]` (R34). -/
def Engine.nonceBytes (e : Engine) : Nonce :=
  e.nonce[4] ++ e.nonce[3] ++ e.nonce[2] ++ e.nonce[1] ++ e.nonce[0]

/-- `T[4k+j] = TAGk[8j+7:8j]` (R35). -/
def Engine.tagBytes (e : Engine) : Block := e.tag[3] ++ e.tag[2] ++ e.tag[1] ++ e.tag[0]

/-- `TAGk <- LE32(T[4k..4k+4))` for k = 0..3 (R178). -/
def tagWords (T : Block) : Vector Word 4 :=
  #v[T.extractLsb' 0 32, T.extractLsb' 32 32, T.extractLsb' 64 32, T.extractLsb' 96 32]

/-- AD_ADDR = AD_ADDR_HI << 32 | AD_ADDR_LO (R36). -/
def Engine.adAddr (e : Engine) : DWord := e.adAddrHi ++ e.adAddrLo
/-- AD_LEN (R36). -/
def Engine.adLen (e : Engine) : DWord := e.adLenHi ++ e.adLenLo
/-- IN_ADDR (R37). -/
def Engine.inAddr (e : Engine) : DWord := e.inAddrHi ++ e.inAddrLo
/-- IN_LEN, which is the length of OUT too (R37). -/
def Engine.inLen (e : Engine) : DWord := e.inLenHi ++ e.inLenLo
/-- OUT_ADDR (R38). -/
def Engine.outAddr (e : Engine) : DWord := e.outAddrHi ++ e.outAddrLo

/-- The context that acceptance captures (R41, R177). -/
def Engine.capture (e : Engine) (op : Op) : Ctx :=
  { op := op, K := e.keyBytes, N := e.nonceBytes, T := e.tagBytes,
    A := e.adAddr, a := e.adLen, I := e.inAddr, n := e.inLen, O := e.outAddr }

/-! ## The checks on the buffers, over unbounded integers -/

/-- Two buffers share a byte (R176). -/
def overlaps (s1 l1 s2 l2 : Nat) : Bool := 0 < l1 && 0 < l2 && s1 < s2 + l2 && s2 < s1 + l1

/-- The range check fails: a buffer ends beyond 2^64 (R175). -/
def Ctx.rangeBad (c : Ctx) : Bool :=
  2 ^ 64 < c.A.toNat + c.a.toNat || 2 ^ 64 < c.I.toNat + c.n.toNat || 2 ^ 64 < c.O.toNat + c.n.toNat

/-- The overlap check fails (R176). -/
def Ctx.overlapBad (c : Ctx) : Bool :=
  overlaps c.O.toNat c.n.toNat c.A.toNat c.a.toNat ||
    (overlaps c.O.toNat c.n.toNat c.I.toNat c.n.toNat && c.O != c.I)

/-- A write to the byte range `[s, s + l)` would touch a buffer of the command (R236, R213). -/
def Ctx.touches (c : Ctx) (s l : Nat) : Bool :=
  overlaps s l c.A.toNat c.a.toNat || overlaps s l c.I.toNat c.n.toNat || overlaps s l c.O.toNat c.n.toNat

/-- A read of the byte range `[s, s + l)` would see the command's OUT range (R236). -/
def Ctx.outHit (c : Ctx) (s l : Nat) : Bool := overlaps s l c.O.toNat c.n.toNat

/-- Two commands on two engines may not run at once: the OUT range of one overlaps a buffer of the other (R213). -/
def Ctx.conflicts (c d : Ctx) : Bool :=
  d.touches c.O.toNat c.n.toNat || c.touches d.O.toNat d.n.toNat

end Sys2Proof.Machine
end

