-- ==== Sys2Proof/Machine/Flags.lean ====
section
/-! DEFINITION. STATUS and the interrupt output: every flag computation of the spec (spec/10_state.md R30 to R32,
spec/30_encoding.md R95, spec/60_exceptions.md R200, R204). -/

namespace Sys2Proof.Machine

/-- The 4-bit code of an error (R200). -/
def ErrCode.bits : ErrCode → BitVec 4
  | .none => 0
  | .illegalCmd => 1
  | .range => 2
  | .overlap => 3
  | .bus => 4

/-- STATUS as a host read returns it (R30): BUSY bit 0, DONE bit 1, AUTH_FAIL bit 2, ERR bit 3, ERR_CODE bits 7:4,
zeros above. -/
def Status.toWord (st : Status) : Word :=
  (0 : BitVec 24) ++ st.errCode.bits ++ BitVec.ofBool st.err ++ BitVec.ofBool st.authFail ++
    BitVec.ofBool st.done ++ BitVec.ofBool st.busy

/-- `STATUS <- DONE | ERR | (code << 4)`, BUSY = AUTH_FAIL = 0: a rejection (R174). -/
def Status.rejected (code : ErrCode) : Status :=
  { busy := false, done := true, authFail := false, err := true, errCode := code }

/-- `STATUS <- BUSY`: an acceptance (R177). -/
def Status.accepted : Status :=
  { busy := true, done := false, authFail := false, err := false, errCode := .none }

/-- `STATUS <- DONE | (AUTH_FAIL)`: a completion without a bus error (R178, R179, R180). -/
def Status.completed (authFail : Bool) : Status :=
  { busy := false, done := true, authFail := authFail, err := false, errCode := .none }

/-- `STATUS <- DONE | ERR | (4 << 4) | (AUTH_FAIL in the fill)`: a bus-error abort (R181). -/
def Status.aborted (inFill : Bool) : Status :=
  { busy := false, done := true, authFail := inFill, err := true, errCode := .bus }

/-- A host write of `v` to STATUS: bit 1 clears DONE, everything else is ignored (R31). -/
def Status.hostWrite (st : Status) (v : Word) : Status :=
  if v.getLsbD 1 then { st with done := false } else st

/-- IRQ_EN as a host read returns it: IE in bit 0 (R32). -/
def irqEnWord (ie : Bool) : Word := (0 : BitVec 31) ++ BitVec.ofBool ie

/-- The interrupt output `irq = STATUS.DONE & IRQ_EN.IE`, a level (R32, R45, R204). -/
def Engine.irq (e : Engine) : Bool := e.status.done && e.ie

/-- The interrupt output of engine `k` with the platform's line it is wired to (R8, R204). -/
def State.irqOf (s : State) (k : Nat) : Option (Nat × Bool) :=
  match (s.eng :: s.peers)[k]? with
  | some e => some (Config.irqLine k, e.irq)
  | none => none

end Sys2Proof.Machine
end

