-- ==== Sys2Proof/Machine/Ops.lean ====
section
/-! DEFINITION. The named operations over memory and registers, and the engine's events: rejection, acceptance,
completion, bus-error abort and reset (spec/20_memory.md, spec/42_commands.md, spec/60_exceptions.md R206). The
engine has no trap and no return from one (R206, R207): these events are what it has in their place. -/

namespace Sys2Proof.Machine

/-! ## System memory (R60 (b), R76) -/

/-- The number of byte addresses of system memory (R60 (b)). -/
def memorySize : Nat := 2 ^ 64

/-- What a byte of memory that nothing has written reads as (log entry 8). -/
def unlistedByte : Byte := 0

/-- The byte at an address. -/
def Memory.read : Memory → Nat → Byte
  | [], _ => unlistedByte
  | (b, v) :: rest, a => if a = b then v else Memory.read rest a

/-- Memory with one byte written; the list keeps its canonical form. -/
def Memory.write : Memory → Nat → Byte → Memory
  | [], a, v => if v = unlistedByte then [] else [(a, v)]
  | (b, w) :: rest, a, v =>
    if a < b then (if v = unlistedByte then (b, w) :: rest else (a, v) :: (b, w) :: rest)
    else if a = b then (if v = unlistedByte then rest else (b, v) :: rest)
    else (b, w) :: Memory.write rest a v

/-- The canonical form: addresses strictly rising and inside the space, no entry equal to what an unlisted address
reads as. -/
abbrev Memory.wf (m : Memory) : Prop :=
  m.Pairwise (fun p q => p.1 < q.1) ∧ ∀ c ∈ m, c.2 ≠ unlistedByte ∧ c.1 < memorySize

/-- Consecutive bytes written, the first at `a`, in increasing address order. -/
def Memory.writeAll (m : Memory) (a : Nat) : List Byte → Memory
  | [] => m
  | v :: rest => Memory.writeAll (m.write a v) (a + 1) rest

/-- `n` consecutive bytes read, the first at `a`. -/
def Memory.readAll (m : Memory) (a : Nat) : Nat → List Byte
  | 0 => []
  | n + 1 => m.read a :: Memory.readAll m (a + 1) n

/-- `n` consecutive bytes replaced by free values, one draw a byte (I5). The draws count on from `k`. -/
def Memory.drawAll (m : Memory) (a k : Nat) : Nat → Memory
  | 0 => m
  | n + 1 => Memory.drawAll (m.write a (Config.freeByte k)) (a + 1) (k + 1) n

/-! ## The memory port (R13, R64, R71) -/

/-- The response of a region to an access of a kind. -/
def Region.response (r : Region) : AccessKind → Response
  | .read => r.read
  | .write => r.write

/-- An address lies in a region. -/
def Region.contains (r : Region) (a : Nat) : Bool := r.base ≤ a && a < r.base + r.size

/-- The platform's response to an engine access: the first region that holds the address decides, and an address in
no region is answered (log entry 2). -/
def memResponse : List Region → AccessKind → Nat → Response
  | [], _, _ => .ok
  | r :: rest, kind, a => if r.contains a then r.response kind else memResponse rest kind a

/-- `MemOK(addr, kind)` (R8, R71). -/
def memOK (map : List Region) (kind : AccessKind) (a : Nat) : Bool := memResponse map kind a != .busError

/-- The outcome of a run of accesses of the memory port. -/
inductive Access (α : Type) where
  /-- Every access was made. -/
  | ok (v : α)
  /-- The first access that was not made raised `BusError`. -/
  | busError
  /-- The first access that was not made never got a response. -/
  | silent
  deriving DecidableEq, Repr

/-- `MemRead(a + j, 1)` for j in 0..k-1, in increasing order (R66). -/
def readBytes (map : List Region) (m : Memory) (a : Nat) : Nat → Access (List Byte)
  | 0 => .ok []
  | k + 1 =>
    match memResponse map .read a with
    | .busError => .busError
    | .silent => .silent
    | .ok =>
      match readBytes map m (a + 1) k with
      | .ok l => .ok (m.read a :: l)
      | .busError => .busError
      | .silent => .silent

/-- `MemWrite(a + j, 1, l[j])` for every byte of `l`, in increasing order (R66). -/
def writeBytes (map : List Region) (m : Memory) (a : Nat) : List Byte → Access Memory
  | [] => .ok m
  | v :: rest =>
    match memResponse map .write a with
    | .busError => .busError
    | .silent => .silent
    | .ok => writeBytes map (m.write a v) (a + 1) rest

/-! ## Registers -/

/-- The value a host read of a register returns (R171): CMD and KEY read 0, reserved bits read 0. -/
def Engine.readReg (e : Engine) : Reg → Word
  | .cmd => 0
  | .status => e.status.toWord
  | .irqEn => irqEnWord e.ie
  | .key _ => 0
  | .nonce k => e.nonce[k]
  | .tag k => e.tag[k]
  | .adAddrLo => e.adAddrLo
  | .adAddrHi => e.adAddrHi
  | .adLenLo => e.adLenLo
  | .adLenHi => e.adLenHi
  | .inAddrLo => e.inAddrLo
  | .inAddrHi => e.inAddrHi
  | .inLenLo => e.inLenLo
  | .inLenHi => e.inLenHi
  | .outAddrLo => e.outAddrLo
  | .outAddrHi => e.outAddrHi

/-- A write of a configuration register of an idle engine (R170); CMD, STATUS and IRQ_EN are none. -/
def Engine.writeConfig (e : Engine) (r : Reg) (v : Word) : Engine :=
  match r with
  | .cmd => e
  | .status => e
  | .irqEn => e
  | .key k => { e with key := e.key.set k v }
  | .nonce k => { e with nonce := e.nonce.set k v }
  | .tag k => { e with tag := e.tag.set k v }
  | .adAddrLo => { e with adAddrLo := v }
  | .adAddrHi => { e with adAddrHi := v }
  | .adLenLo => { e with adLenLo := v }
  | .adLenHi => { e with adLenHi := v }
  | .inAddrLo => { e with inAddrLo := v }
  | .inAddrHi => { e with inAddrHi := v }
  | .inLenLo => { e with inLenLo := v }
  | .inLenHi => { e with inLenHi := v }
  | .outAddrLo => { e with outAddrLo := v }
  | .outAddrHi => { e with outAddrHi := v }

/-- A host write of any register but CMD (R170): STATUS and IRQ_EN always, the others only while idle (R40). -/
def Engine.writeReg (e : Engine) (r : Reg) (v : Word) : Engine :=
  match r with
  | .status => { e with status := e.status.hostWrite v }
  | .irqEn => { e with ie := v.getLsbD 0 }
  | _ => if e.status.busy then e else e.writeConfig r v

/-! ## The events of a command -/

/-- `Wipe()` (R154): `S`, `CTX` and the temporaries become zero; no register and no memory changes. -/
def Engine.wipe (e : Engine) : Engine := { e with S := 0, ctx := Ctx.zero, blk := 0, rtag := 0, acc := 0 }

/-- `Reject(code)` (R174): only STATUS changes. -/
def reject (code : ErrCode) (s : State) : State :=
  { s with eng := { s.eng with status := Status.rejected code } }

/-- `Accept(v)` (R177): the context is captured, STATUS is BUSY, PHASE is INIT(0), and nothing else changes. -/
def accept (op : Op) (s : State) : State :=
  { s with eng := { s.eng with ctx := s.eng.capture op, status := Status.accepted, phase := .init 0 } }

/-- The end of an engine's command: the wipe, STATUS, and PHASE IDLE (R180, R181). -/
def Engine.finish (e : Engine) (st : Status) : Engine := { e.wipe with status := st, phase := .idle }

/-- PHASE = FILL. -/
def Phase.isFill : Phase → Bool
  | .fill _ => true
  | _ => false

/-- The bytes of the running command's OUT range become free values (I5). -/
def drawOut (s : State) : State :=
  { s with mem := s.mem.drawAll s.eng.ctx.O.toNat s.draws s.eng.ctx.n.toNat,
           draws := s.draws + s.eng.ctx.n.toNat }

/-- A bus error ends the command (R181): the OUT range is unspecified, TAG is unchanged. -/
def busAbort (s : State) : State :=
  { drawOut s with eng := s.eng.finish (Status.aborted s.eng.phase.isFill) }

/-- Reset of the engine (R230); while BUSY it abandons the command and leaves its OUT range unspecified (R231)
(log entry 20). -/
def resetEngine (s : State) : State :=
  { (if s.eng.status.busy then drawOut s else s) with eng := Engine.reset }

/-! ## Engine instances (R212) -/

/-- Every engine instance, instance 0 first. -/
def State.engines (s : State) : List Engine := s.eng :: s.peers

/-- The system seen with another instance in focus: peer `j` and the engine in focus change places. Doing it twice
changes nothing. -/
def swapPeer (j : Nat) (s : State) : State :=
  match s.peers[j]? with
  | none => s
  | some e => { s with eng := e, peers := s.peers.set j s.eng }

/-- A running command on another instance whose buffers conflict with the command `c` (R213). -/
def peerConflict (c : Ctx) (peers : List Engine) : Bool :=
  peers.any (fun p => p.status.busy && p.ctx.conflicts c)

/-- An outcome with its next state changed by `f`. -/
def mapNext (f : State → State) : Host.Outcome State Fault Refusal → Host.Outcome State Fault Refusal
  | .next s => .next (f s)
  | .fault r => .fault r
  | .refused r => .refused r

/-- `f` done to engine `k`: instance 0 is in focus already, another one is brought into focus for it. -/
def onEngine (k : Nat) (f : State → Host.Outcome State Fault Refusal) (s : State) :
    Host.Outcome State Fault Refusal :=
  match k with
  | 0 => f s
  | j + 1 => if j < s.peers.length then mapNext (swapPeer j) (f (swapPeer j s)) else .fault .noSuchEngine

/-! ## Launching a command -/

/-- The common part of ENCRYPT and DECRYPT (R172, R175, R176, R177): ignored while BUSY, then the range check, then
the overlap check, then the acceptance. A launch that R213 puts outside the spec is refused (I6, log entries 14 and 15). -/
def launch (op : Op) (s : State) : Host.Outcome State Fault Refusal :=
  if s.eng.status.busy then .next s
  else if (s.eng.capture op).rangeBad then .next (reject .range s)
  else if (s.eng.capture op).overlapBad then .next (reject .overlap s)
  else if peerConflict (s.eng.capture op) s.peers then .refused .engineOverlap
  else .next (accept op s)

end Sys2Proof.Machine
end

