-- ==== Sys2Proof/Machine/Commands.lean ====
section
/-! DEFINITION. The meanings of the three command words (spec/42_commands.md R173, R178, R179). A command word's
own step is its acceptance or rejection (R17, R177); the sequencer of Machine/Engine.lean does the rest of an
accepted command, one PHASE a step (log entry 16). -/

namespace Sys2Proof.Machine

/-- NOP (R173): nothing changes. -/
def execNop (s : State) : Host.Outcome State Fault Refusal := .next s

/-- ENCRYPT (R178). -/
def execEncrypt (s : State) : Host.Outcome State Fault Refusal := launch .encrypt s

/-- DECRYPT (R179). -/
def execDecrypt (s : State) : Host.Outcome State Fault Refusal := launch .decrypt s

end Sys2Proof.Machine
end

