-- ==== Sys2Proof/Machine/Engine.lean ====
section
/-! DEFINITION. The sequencer (spec/10_state.md R42): what an engine does in each PHASE of an accepted command
(spec/42_commands.md R178 to R181). One internal step is one update, one block, one fill byte, the comparison, or
the wipe with the completion. -/

namespace Sys2Proof.Machine

/-! ## The order of the phases (R42) -/

/-- Where a command goes after its payload: the finalization. -/
def Ctx.afterMsg (_ : Ctx) : Phase := .mac 0
/-- Where it goes after its associated data: the payload, if it has any. -/
def Ctx.afterAd (c : Ctx) : Phase := if 0 < c.n.toNat then .msg 0 else c.afterMsg
/-- Where it goes after the initialization: the associated data, if it has any. -/
def Ctx.afterInit (c : Ctx) : Phase := if 0 < c.a.toNat then .ad 0 else c.afterAd

/-- The phase after INIT(i). -/
def Ctx.nextInit (c : Ctx) (i : Fin 20) : Phase := if h : i.val + 1 < 20 then .init ⟨i.val + 1, h⟩ else c.afterInit
/-- The phase after AD(b). -/
def Ctx.nextAd (c : Ctx) (b : Nat) : Phase := if 16 * (b + 1) < c.a.toNat then .ad (b + 1) else c.afterAd
/-- The phase after MSG(b). -/
def Ctx.nextMsg (c : Ctx) (b : Nat) : Phase := if 16 * (b + 1) < c.n.toNat then .msg (b + 1) else c.afterMsg
/-- The phase after MAC(j): VERIFY in a DECRYPT, else WIPE. -/
def Ctx.nextMac (c : Ctx) (j : Fin 10) : Phase :=
  if h : j.val + 1 < 10 then .mac ⟨j.val + 1, h⟩ else if c.op = .decrypt then .verify else .wipe
/-- The phase after VERIFY: FILL when the tags differ and there is output to overwrite, else WIPE. -/
def Ctx.nextVerify (c : Ctx) (acc : Byte) : Phase := if acc ≠ 0 ∧ 0 < c.n.toNat then .fill 0 else .wipe
/-- The phase after FILL(o). -/
def Ctx.nextFill (c : Ctx) (o : Nat) : Phase := if o + 1 < c.n.toNat then .fill (o + 1) else .wipe

/-- How many bytes block `b` of a buffer of `len` bytes has: 16, or fewer in the last one (R144). -/
def blockLen (len b : Nat) : Nat := min 16 (len - 16 * b)

/-! ## The steps -/

/-- INIT(i) (R118): the load before the first update, and update number i. -/
def stepInit (i : Fin 20) (s : State) : State :=
  let e := s.eng
  let S0 := if i.val = 0 then initLoad e.ctx.K e.ctx.N e.S else e.S
  { s with eng := { e with S := initUpdate i.val S0, phase := e.ctx.nextInit i } }

/-- AD(b) (R145, R178): block b is read and absorbed; its masked output goes no further than the block buffer. -/
def stepAd (b : Nat) (s : State) : State :=
  let e := s.eng
  match readBytes s.map s.mem (e.ctx.A.toNat + 16 * b) (blockLen e.ctx.a.toNat b) with
  | .ok seg =>
    let r := encBlock e.S (pad seg)
    { s with eng := { e with S := r.1, blk := r.2, phase := e.ctx.nextAd b } }
  | .busError => busAbort s
  | .silent => s

/-- One payload block of the running command: EncBlock, or DecBlock with the rollback (R178, R179). -/
def payloadBlock (op : Op) (S : S512) (seg : List Byte) : S512 × Block :=
  if op = .decrypt then decPayloadBlock S seg else encBlock S (pad seg)

/-- MSG(b) (R178, R179): block b is read, enciphered or deciphered, and as many bytes are written as were read
(log entry 11). -/
def stepMsg (b : Nat) (s : State) : State :=
  let e := s.eng
  match readBytes s.map s.mem (e.ctx.I.toNat + 16 * b) (blockLen e.ctx.n.toNat b) with
  | .ok seg =>
    let r := payloadBlock e.ctx.op e.S seg
    match writeBytes s.map s.mem (e.ctx.O.toNat + 16 * b) ((blockBytes r.2).take seg.length) with
    | .ok m => { s with mem := m, eng := { e with S := r.1, blk := r.2, phase := e.ctx.nextMsg b } }
    | .busError => busAbort s
    | .silent => s
  | .busError => busAbort s
  | .silent => s

/-- MAC(j) (R151): update number j, and after the last one the tag fold into the recomputed tag. -/
def stepMac (j : Fin 10) (s : State) : State :=
  let e := s.eng
  let S' := macUpdate e.ctx.a e.ctx.n e.S
  { s with eng := { e with S := S', rtag := if j.val = 9 then tagFold S' else e.rtag, phase := e.ctx.nextMac j } }

/-- VERIFY (R152): the accumulator takes the differences of all sixteen bytes, and the one decision is made. -/
def stepVerify (s : State) : State :=
  let e := s.eng
  let d := tagDiff e.rtag e.ctx.T
  { s with eng := { e with acc := d, phase := e.ctx.nextVerify d } }

/-- FILL(o) (R153): one byte of the output is overwritten with 0xd0. -/
def stepFill (o : Nat) (s : State) : State :=
  let e := s.eng
  match writeBytes s.map s.mem (e.ctx.O.toNat + o) [failByte] with
  | .ok m => { s with mem := m, eng := { e with phase := e.ctx.nextFill o } }
  | .busError => busAbort s
  | .silent => s

/-- The tag check of the running command failed: only a DECRYPT has one (R201). -/
def Engine.tagFailed (e : Engine) : Bool := decide (e.ctx.op = .decrypt) && e.acc != 0

/-- The TAG registers at the completion: the computed tag after an ENCRYPT, unchanged after a DECRYPT (R35). -/
def Engine.tagAtEnd (e : Engine) : Vector Word 4 := if e.ctx.op = .encrypt then tagWords e.rtag else e.tag

/-- WIPE (R154, R180): TAG is written, everything secret is wiped, DONE is set and PHASE is IDLE, in one step
(log entry 12). -/
def stepWipe (s : State) : State :=
  let e := s.eng
  { s with eng := { e.finish (Status.completed e.tagFailed) with tag := e.tagAtEnd } }

/-- One internal step of the engine in focus; an idle engine has none to make. An access that never gets a response
leaves the command where it is, BUSY for ever (R241, I7). -/
def engineStep (s : State) : State :=
  match s.eng.phase with
  | .idle => s
  | .init i => stepInit i s
  | .ad b => stepAd b s
  | .msg b => stepMsg b s
  | .mac j => stepMac j s
  | .verify => stepVerify s
  | .fill o => stepFill o s
  | .wipe => stepWipe s

/-- One internal step of engine `k`. -/
def tickEngine (k : Nat) (s : State) : State :=
  match k with
  | 0 => engineStep s
  | j + 1 => swapPeer j (engineStep (swapPeer j s))

/-- Every engine makes one internal step, instance 0 first: what happens when no event is left, so that every
accepted command gets on (R17, log entry 1). -/
def engineRound (s : State) : State := (List.range (s.peers.length + 1)).foldl (fun t k => tickEngine k t) s

/-- `k` internal steps of the engine in focus. -/
def engineSteps : Nat → State → State
  | 0, s => s
  | k + 1, s => engineSteps k (engineStep s)

/-- The number of internal steps of an accepted command that meets no bus error: 20 Init updates, the AD and the
payload blocks, 10 MAC updates, the comparison of a DECRYPT, `fills` fill writes, and the wipe (R241). -/
def Ctx.stepCount (c : Ctx) (fills : Nat) : Nat :=
  20 + blockCount c.a.toNat + blockCount c.n.toNat + 10 + (if c.op = .decrypt then 1 else 0) + fills + 1

end Sys2Proof.Machine
end

