-- ==== Sys2Proof/Machine/HostPort.lean ====
section
/-! DEFINITION. What the host and the other agents do to the machine (spec/42_commands.md R170 to R172,
spec/20_memory.md R60, R61, spec/70_reset_and_hazards.md R231, R236). -/

namespace Sys2Proof.Machine

/-- `CommandWrite(v)` on the engine in focus (R172): ignored while BUSY, else decoded; an illegal word is rejected. -/
def commandWrite (v : Word) (s : State) : Host.Outcome State Fault Refusal :=
  if s.eng.status.busy then .next s
  else
    match decode v with
    | .ok i => exec i s
    | .error _ => .next (reject .illegalCmd s)

/-- `HostWrite(off, v)` on the engine in focus (R170). An access of another width or alignment and a reserved offset
are ignored (R61, R39). -/
def hostWrite (w : Width) (off : BitVec 8) (v : Word) (s : State) : Host.Outcome State Fault Refusal :=
  if accessDefined w off then
    match Reg.atOffset off with
    | none => .next s
    | some .cmd => commandWrite v s
    | some r => .next { s with eng := s.eng.writeReg r v }
  else .next s

/-- `HostRead(off) -> v` on an engine (R171). Another width or alignment and a reserved offset read 0. -/
def hostReadValue (w : Width) (off : BitVec 8) (e : Engine) : Word :=
  if accessDefined w off then
    match Reg.atOffset off with
    | none => 0
    | some r => e.readReg r
  else 0

/-- `HostRead`: the value goes to the host; a read has no side effect (R63, R171). -/
def hostRead (w : Width) (off : BitVec 8) (s : State) : State := { s with rdata := hostReadValue w off s.eng }

/-- `poll` (R96): the value read meets the condition. -/
def pollMet (off : BitVec 8) (mask val : Word) (e : Engine) : Bool := (hostReadValue .w32 off e &&& mask) == val

/-- A store of the host or another agent to system memory. Into a buffer of a running command it is refused (R236).
`MemOK` has no say in it (log entries 17 and 21). -/
def agentStore (addr : DWord) (bytes : List Byte) (s : State) : Host.Outcome State Fault Refusal :=
  if memorySize < addr.toNat + bytes.length then .fault .outsideMemory
  else if s.engines.any (fun e => e.status.busy && e.ctx.touches addr.toNat bytes.length) then .refused .liveBuffer
  else .next { s with mem := s.mem.writeAll addr.toNat bytes }

/-- A read of system memory by the host or another agent. Of the OUT range of a running command it is refused
(R236). -/
def agentLoad (addr : DWord) (len : Nat) (s : State) : Host.Outcome State Fault Refusal :=
  if memorySize < addr.toNat + len then .fault .outsideMemory
  else if s.engines.any (fun e => e.status.busy && e.ctx.outHit addr.toNat len) then .refused .liveBuffer
  else .next { s with mdata := s.mem.readAll addr.toNat len }

/-- A register access to the engine in focus, but for `poll`. A poll that is met is a read; one that is not met is
answered by `runEvent`. -/
def regAccess (op : RegOp) (s : State) : Host.Outcome State Fault Refusal :=
  match op with
  | .write w off v => hostWrite w off v s
  | .read w off => .next (hostRead w off s)
  | .poll off _ _ => .next (hostRead .w32 off s)

/-- A register access finds its condition unmet and is made again (R96). -/
def waits (k : Nat) (op : RegOp) (s : State) : Bool :=
  match op, s.engines[k]? with
  | .poll off mask val, some e => !pollMet off mask val e
  | _, _ => false

/-- One event, already taken from the list of events. A poll that is not met goes back to its front, and every
engine makes one step meanwhile (log entry 1). -/
def runEvent (ev : Event) (s : State) : Host.Outcome State Fault Refusal :=
  match ev with
  | .reg k op =>
    if waits k op s then
      mapNext (fun t => { engineRound t with inputs := .reg k op :: s.inputs }) (onEngine k (regAccess op) s)
    else onEngine k (regAccess op) s
  | .store addr bytes => agentStore addr bytes s
  | .load addr len => agentLoad addr len s
  | .engine k => onEngine k (fun t => .next (engineStep t)) s
  | .reset k => onEngine k (fun t => .next (resetEngine t)) s

/-- A command word written to CMD of engine 0 (R90). -/
def commandEvent (v : Word) : Event := .reg 0 (.write .w32 Reg.cmd.offset v)

end Sys2Proof.Machine
end

