-- ==== Sys2Proof/Machine/Step.lean ====
section
/-! DEFINITION. One step of the system: the next event, or, when no event is left, one internal step of every
engine. -/

namespace Sys2Proof.Machine

def step (s : State) : Host.Outcome State Fault Refusal :=
  match s.inputs with
  | [] => .next (engineRound s)
  | ev :: rest => runEvent ev { s with inputs := rest }

/-- The engine fetches nothing (R77, R90): a command word reaches it as a host write to CMD. So the word is placed
as the next event, a 32-bit write of it to CMD of engine 0 (log entry 10). -/
def State.withFetchWord (s : State) (nbits w : Nat) : State :=
  { s with inputs := commandEvent (BitVec.ofNat 32 (w % 2 ^ nbits)) :: s.inputs }

end Sys2Proof.Machine
end

