-- ==== Sys2Proof/Machine/HostScript.lean ====
section
/-! DEFINITION. The host-script notation (spec/30_encoding.md R96, R97) as lists of events for engine 0. -/

namespace Sys2Proof.Machine.Script

/-- `wr REG, V`: one 32-bit write (R96). -/
def wr (r : Reg) (v : Word) : Event := .reg 0 (.write .w32 r.offset v)
/-- `rd REG`: one 32-bit read (R96). -/
def rd (r : Reg) : Event := .reg 0 (.read .w32 r.offset)
/-- `poll REG, M, V` (R96). -/
def poll (r : Reg) (mask val : Word) : Event := .reg 0 (.poll r.offset mask val)
/-- `mem A, HEX` (R96). -/
def mem (addr : DWord) (bytes : List Byte) : Event := .store addr bytes

/-- `setkey HEX32` (R97). -/
def setkey (K : Key) : List Event :=
  [0, 1, 2, 3, 4, 5, 6, 7].map (fun k : Fin 8 => wr (.key k) (K.extractLsb' (32 * k.val) 32))
/-- `setnonce HEX20` (R97). -/
def setnonce (N : Nonce) : List Event :=
  [0, 1, 2, 3, 4].map (fun k : Fin 5 => wr (.nonce k) (N.extractLsb' (32 * k.val) 32))
/-- `settag HEX16` (R97). -/
def settag (T : Block) : List Event :=
  [0, 1, 2, 3].map (fun k : Fin 4 => wr (.tag k) (T.extractLsb' (32 * k.val) 32))
/-- `setbuf AD, A, L` (R97). -/
def setbufAd (addr len : DWord) : List Event :=
  [wr .adAddrLo (addr.extractLsb' 0 32), wr .adAddrHi (addr.extractLsb' 32 32),
   wr .adLenLo (len.extractLsb' 0 32), wr .adLenHi (len.extractLsb' 32 32)]
/-- `setbuf IN, A, L` (R97). -/
def setbufIn (addr len : DWord) : List Event :=
  [wr .inAddrLo (addr.extractLsb' 0 32), wr .inAddrHi (addr.extractLsb' 32 32),
   wr .inLenLo (len.extractLsb' 0 32), wr .inLenHi (len.extractLsb' 32 32)]
/-- `setout A` (R97). -/
def setout (addr : DWord) : List Event :=
  [wr .outAddrLo (addr.extractLsb' 0 32), wr .outAddrHi (addr.extractLsb' 32 32)]
/-- `nop` (R97). -/
def nop : List Event := [wr .cmd 0x00000000]
/-- `encrypt` (R97). -/
def encrypt : List Event := [wr .cmd 0x00000001]
/-- `decrypt` (R97). -/
def decrypt : List Event := [wr .cmd 0x00000002]
/-- `wait` (R97). -/
def wait : List Event := [poll .status 0x00000001 0x00000000]
/-- `ack` (R97). -/
def ack : List Event := [wr .status 0x00000002]

/-- The encoding of a program: "the list of (offset, value) pairs of its wr lines, in order" (R96). -/
def encoding (p : List Event) : List (BitVec 8 × Word) :=
  p.filterMap (fun ev =>
    match ev with
    | .reg _ (.write .w32 off v) => some (off, v)
    | _ => none)

/-- The host address that offset `off` of engine `k`'s window has (R28, R170). -/
def busAddress (k : Nat) (off : BitVec 8) : DWord := Config.engineBase k + off.setWidth 64

end Sys2Proof.Machine.Script
end

