-- ==== Sys2Proof/Safety.lean ====
section
/-! DEFINITION. The terms that claims use: when a command is accepted, when every access is answered, and the
invariants of the machine. -/

namespace Sys2Proof.Machine

/-! ## Conditions -/

/-- Every access of a kind to the `n` bytes from `a` on is answered. -/
abbrev Answered (map : List Region) (kind : AccessKind) (a n : Nat) : Prop :=
  ∀ j, j < n → memResponse map kind (a + j) = .ok

/-- The command `op` written to the engine in focus is accepted (R172, R175, R176, R177, R213): the engine is idle,
the range check and the overlap check pass, and no command running on another engine conflicts. -/
abbrev Launchable (op : Op) (s : State) : Prop :=
  s.eng.status.busy = false ∧ (s.eng.capture op).rangeBad = false ∧ (s.eng.capture op).overlapBad = false ∧
    peerConflict (s.eng.capture op) s.peers = false

/-- Every memory access of a command is answered (R241: "every memory access the engine makes gets a response", and
no bus error). -/
abbrev Ctx.AllAnswered (c : Ctx) (map : List Region) : Prop :=
  Answered map .read c.A.toNat c.a.toNat ∧ Answered map .read c.I.toNat c.n.toNat ∧
    Answered map .write c.O.toNat c.n.toNat

/-- No access of a command goes without a response; some may raise `BusError` (R241). -/
abbrev Ctx.NeverSilent (c : Ctx) (map : List Region) : Prop :=
  (∀ j, j < c.a.toNat → memResponse map .read (c.A.toNat + j) ≠ .silent) ∧
  (∀ j, j < c.n.toNat → memResponse map .read (c.I.toNat + j) ≠ .silent) ∧
  (∀ j, j < c.n.toNat → memResponse map .write (c.O.toNat + j) ≠ .silent)

/-- An address lies outside the OUT range of a command. -/
abbrev Ctx.outside (c : Ctx) (x : Nat) : Prop := x < c.O.toNat ∨ c.O.toNat + c.n.toNat ≤ x

/-- An address lies in the AD, IN or OUT range of a command. -/
abbrev Ctx.inBuffers (c : Ctx) (x : Nat) : Prop :=
  (c.A.toNat ≤ x ∧ x < c.A.toNat + c.a.toNat) ∨ (c.I.toNat ≤ x ∧ x < c.I.toNat + c.n.toNat) ∨ ¬ c.outside x

/-- The next internal step of the engine in focus ends its command with a bus error (R181). -/
abbrev State.Aborts (s : State) : Prop := s.eng.status.busy = true ∧ (engineStep s).eng.status.err = true

/-- All hidden state of the engine is zero (R24, R41, R43). -/
abbrev Engine.Wiped (e : Engine) : Prop :=
  e.S = 0 ∧ e.ctx = Ctx.zero ∧ e.blk = 0 ∧ e.rtag = 0 ∧ e.acc = 0

/-- The host-visible registers but STATUS, IRQ_EN and TAG are the same: KEY, NONCE, and the buffer descriptors. -/
abbrev Engine.SameConfig (e e' : Engine) : Prop :=
  e'.key = e.key ∧ e'.nonce = e.nonce ∧
  e'.adAddrLo = e.adAddrLo ∧ e'.adAddrHi = e.adAddrHi ∧ e'.adLenLo = e.adLenLo ∧ e'.adLenHi = e.adLenHi ∧
  e'.inAddrLo = e.inAddrLo ∧ e'.inAddrHi = e.inAddrHi ∧ e'.inLenLo = e.inLenLo ∧ e'.inLenHi = e.inLenHi ∧
  e'.outAddrLo = e.outAddrLo ∧ e'.outAddrHi = e.outAddrHi

/-- Everything in the system but the engine in focus, memory and the counter of free values is the same. -/
abbrev State.SameAround (s s' : State) : Prop :=
  s'.peers = s.peers ∧ s'.map = s.map ∧ s'.inputs = s.inputs ∧ s'.rdata = s.rdata ∧ s'.mdata = s.mdata

/-- Two systems that R155 may not tell apart: the same platform, and engines in focus with the same phase, command and
buffers, and with the same STATUS, but for the AUTH_FAIL of a command that has ended. -/
structure State.SameShape (s s' : State) : Prop where
  map    : s.map = s'.map
  phase  : s.eng.phase = s'.eng.phase
  op     : s.eng.ctx.op = s'.eng.ctx.op
  A      : s.eng.ctx.A = s'.eng.ctx.A
  a      : s.eng.ctx.a = s'.eng.ctx.a
  I      : s.eng.ctx.I = s'.eng.ctx.I
  n      : s.eng.ctx.n = s'.eng.ctx.n
  O      : s.eng.ctx.O = s'.eng.ctx.O
  status : s'.eng.status = { s.eng.status with authFail := s'.eng.status.authFail }
  runs   : s.eng.status.busy = true → s.eng.status = s'.eng.status

/-- If the tag comparison comes next, it has the same outcome in both systems (R155). -/
abbrev State.ComparesAlike (s s' : State) : Prop :=
  s.eng.phase = .verify → (s.eng.rtag = s.eng.ctx.T ↔ s'.eng.rtag = s'.eng.ctx.T)

/-- What a register holds, whether or not a host read shows it (KEY reads as 0); CMD holds nothing (R29). -/
def Engine.contents (e : Engine) : Reg → Word
  | .cmd => 0
  | .status => e.status.toWord
  | .irqEn => irqEnWord e.ie
  | .key k => e.key[k]
  | .nonce k => e.nonce[k]
  | .tag k => e.tag[k]
  | .adAddrLo => e.adAddrLo
  | .adAddrHi => e.adAddrHi
  | .adLenLo => e.adLenLo
  | .adLenHi => e.adLenHi
  | .inAddrLo => e.inAddrLo
  | .inAddrHi => e.inAddrHi
  | .inLenLo => e.inLenLo
  | .inLenHi => e.inLenHi
  | .outAddrLo => e.outAddrLo
  | .outAddrHi => e.outAddrHi

/-- The hidden state of the engine, which no host access changes, is the same (R20, R41 to R43). -/
abbrev Engine.SameHidden (e e' : Engine) : Prop :=
  e'.S = e.S ∧ e'.ctx = e.ctx ∧ e'.phase = e.phase ∧ e'.blk = e.blk ∧ e'.rtag = e.rtag ∧ e'.acc = e.acc

/-- A configuration register: every one but CMD, STATUS and IRQ_EN (R40, R170). -/
def Reg.isConfig : Reg → Bool
  | .cmd => false
  | .status => false
  | .irqEn => false
  | _ => true

/-! ## Invariants of one engine -/

/-- The three invariants of STATUS (R30) and the meaning of BUSY (R42). -/
abbrev Engine.StatusInv (e : Engine) : Prop :=
  (e.status.busy = true ↔ e.phase ≠ .idle) ∧
  (e.status.busy = true →
    e.status.done = false ∧ e.status.authFail = false ∧ e.status.err = false ∧ e.status.errCode = .none) ∧
  (e.status.err = false ↔ e.status.errCode = .none)

/-- Between commands all hidden state is zero (R24, R41, R43). -/
abbrev Engine.QuietInv (e : Engine) : Prop := e.phase = .idle → e.Wiped

/-- While a command runs, the context is what the registers hold (R40, R41), the command is ENCRYPT or DECRYPT, and
the buffers passed the two checks (R175, R176). -/
abbrev Engine.CtxInv (e : Engine) : Prop :=
  e.phase ≠ .idle →
    e.ctx = e.capture e.ctx.op ∧ e.ctx.op ≠ .none ∧ e.ctx.rangeBad = false ∧ e.ctx.overlapBad = false

/-- PHASE names a block or a byte that the command has, and VERIFY and FILL belong to a DECRYPT; FILL only to one
whose tag check failed (R42, R179). -/
def Engine.PhaseInv (e : Engine) : Prop :=
  match e.phase with
  | .idle => True
  | .init _ => True
  | .ad b => 16 * b < e.ctx.a.toNat
  | .msg b => 16 * b < e.ctx.n.toNat
  | .mac _ => True
  | .verify => e.ctx.op = .decrypt
  | .fill o => o < e.ctx.n.toNat ∧ e.ctx.op = .decrypt ∧ e.acc ≠ 0
  | .wipe => True

/-- How many bytes of OUT the payload pass has written when the engine is in a phase. -/
def Engine.written (e : Engine) : Nat :=
  match e.phase with
  | .idle => 0
  | .init _ => 0
  | .ad _ => 0
  | .msg b => 16 * b
  | .mac _ => e.ctx.n.toNat
  | .verify => e.ctx.n.toNat
  | .fill _ => e.ctx.n.toNat
  | .wipe => e.ctx.n.toNat

/-- Every byte of OUT that the payload pass has written accepts writes: with `MemOK` fixed, a later fill write there
cannot fail (R181, C8). -/
abbrev Engine.WritableInv (map : List Region) (e : Engine) : Prop := Answered map .write e.ctx.O.toNat e.written

/-- The invariant of one engine instance. -/
structure Engine.Inv (map : List Region) (e : Engine) : Prop where
  status   : e.StatusInv
  quiet    : e.QuietInv
  ctx      : e.CtxInv
  phase    : e.PhaseInv
  writable : e.WritableInv map

/-- Two engines do not run commands that conflict (R213). -/
abbrev Engine.Compatible (e f : Engine) : Prop :=
  e.status.busy = true → f.status.busy = true → e.ctx.conflicts f.ctx = false

/-- The invariant of the system. -/
structure State.Inv (s : State) : Prop where
  engines    : ∀ e ∈ s.engines, e.Inv s.map
  compatible : s.engines.Pairwise Engine.Compatible
  memory     : s.mem.wf

end Sys2Proof.Machine
end

