-- ==== Sys2Proof/Certificates/Slice0/Obligations.lean ====
section
/-! DEFINITION. The statements about the model. Each docstring says which rules of spec/ it formalises. The names
that they use are those of the model and of Sys2Proof/Safety.lean. -/

open Sys2Proof Sys2Proof.Machine

/-! ## Reset -/

/-- R230: after reset, and after the reset of an engine in any state, every register and all hidden state is zero,
PHASE is IDLE and `irq` is low. -/
def Obligations.ResetZeroesEveryPieceOfState : Prop :=
  ∀ e : Engine, (e = State.reset.eng ∨ ∃ s : State, e = (resetEngine s).eng) →
    e.S = 0 ∧ e.ctx = Ctx.zero ∧ e.blk = 0 ∧ e.rtag = 0 ∧ e.acc = 0 ∧ e.phase = .idle ∧
    e.status.toWord = 0x00000000 ∧ e.ie = false ∧ (∀ r : Reg, e.contents r = 0x00000000) ∧ e.irq = false

/-- R231: a reset while BUSY abandons the command. There is no completion (DONE is 0, and further engine steps change
nothing), the OUT bytes are unspecified, and every other byte of memory is untouched. The MODEL's choice, no rule's:
byte `j` of OUT is the opaque `Config.freeByte (s.draws + j)`, for every value of the counter `draws` (log entry 4,
DESIGN CHOICE), and the other engines and everything around them are untouched (log entry 20, DEDUCED). -/
def Obligations.ResetWhileBusyAbandonsTheCommand : Prop :=
  ∀ s : State, s.Inv → s.eng.status.busy = true →
    (resetEngine s).eng.status.done = false ∧ (resetEngine s).eng.phase = .idle ∧
    engineStep (resetEngine s) = resetEngine s ∧
    (∀ x, s.eng.ctx.outside x → (resetEngine s).mem.read x = s.mem.read x) ∧
    (∀ j, j < s.eng.ctx.n.toNat →
      (resetEngine s).mem.read (s.eng.ctx.O.toNat + j) = Config.freeByte (s.draws + j)) ∧
    State.SameAround s (resetEngine s)

/-! ## Command words -/

/-- R93, R172: the decoder is an exact match on the whole word; a write to CMD runs the decoded command while idle, is
rejected with ILLEGAL_CMD for any other word, and is ignored while BUSY. -/
def Obligations.CommandWordsMatchExactly : Prop :=
  (∀ w : Word, (decode w = .ok .nop ↔ w = 0x00000000) ∧ (decode w = .ok .encrypt ↔ w = 0x00000001) ∧
    (decode w = .ok .decrypt ↔ w = 0x00000002)) ∧
  (∀ (s : State) (w : Word), s.eng.status.busy = true → commandWrite w s = .next s) ∧
  (∀ s : State, s.eng.status.busy = false →
    commandWrite 0x00000000 s = .next s ∧
    commandWrite 0x00000001 s = exec .encrypt s ∧
    commandWrite 0x00000002 s = exec .decrypt s ∧
    ∀ w : Word, w ≠ 0x00000000 → w ≠ 0x00000001 → w ≠ 0x00000002 →
      commandWrite w s = .next (reject .illegalCmd s))

/-- Decode and encode agree both ways, for every instruction and every word, and a word is legal exactly when its two
fields are (R91, R93). -/
def Obligations.DecodeAndEncodeAgree : Prop :=
  (∀ i : Instr, i.wellFormed = true → decode (encode i) = .ok i) ∧
  (∀ (w : Word) (i : Instr), decode w = .ok i → encode i = w) ∧
  (∀ w : Word, (∃ i, decode w = .ok i) ↔ (wordFields w).wellFormed = true)

/-- R94: which words are illegal, and that an idle engine rejects each of them with ILLEGAL_CMD, STATUS = 0x1A, and
changes nothing else. -/
def Obligations.ReservedEncodingsAreRejected : Prop :=
  (∀ w : Word, decode w = .error .reservedBits ↔ w.extractLsb' 4 28 ≠ 0) ∧
  (∀ w : Word, decode w = .error .reservedOp ↔ (w.extractLsb' 4 28 = 0 ∧ 3 ≤ (w.extractLsb' 0 4).toNat)) ∧
  (∀ (s : State) (w : Word), s.eng.status.busy = false →
    (w.extractLsb' 4 28 ≠ 0 ∨ 3 ≤ (w.extractLsb' 0 4).toNat) →
    ∃ t, commandWrite w s = .next t ∧ t.eng.status.toWord = 0x0000001A ∧
      t = { s with eng := { s.eng with status := t.eng.status } })

/-- Some command words of R93 and R94, written out. -/
def Obligations.WrittenOutWordsDecode : Prop :=
  decode 0x00000000 = .ok .nop ∧ decode 0x00000001 = .ok .encrypt ∧ decode 0x00000002 = .ok .decrypt ∧
  decode 0x00000003 = .error .reservedOp ∧ decode 0x0000000F = .error .reservedOp ∧
  decode 0x00000010 = .error .reservedBits ∧ decode 0x00000011 = .error .reservedBits ∧
  decode 0x80000002 = .error .reservedBits

/-- A command word delivered as the next 32-bit write to CMD: the step is `exec` of the decoded instruction at the
state without that event (R90, R172). The MODEL's choice, no rule's: the list of events and that a step takes the next
one (log entry 1, DESIGN CHOICE), the word that `withFetchWord` places (log entry 10, DESIGN CHOICE), and that `exec`
answers for a BUSY engine too (log entry 15, DEDUCED). -/
def Obligations.StepRunsTheDecodedCommand : Prop :=
  (∀ (s : State) (w : Word) (i : Instr) (rest : List Event),
    s.inputs = commandEvent w :: rest → decode w = .ok i → step s = exec i { s with inputs := rest }) ∧
  (∀ (s : State) (w : Nat) (i : Instr), w < 2 ^ 32 → decode (BitVec.ofNat 32 w) = .ok i →
    step (s.withFetchWord 32 w) = exec i s)

/-- Without events and with one engine, steps of the system are internal steps of that engine (R17, log entry 1). -/
def Obligations.StepsWithoutEventsAreEngineSteps : Prop :=
  ∀ (k : Nat) (s : State), s.inputs = [] → s.peers = [] → Host.Core.run Sys2Proof.core k s = .next (engineSteps k s)

/-! ## The register window -/

/-- R28: the offset of each register, and the register at each offset. -/
def Obligations.RegisterMapOffsets : Prop :=
  (∀ r : Reg, Reg.atOffset r.offset = some r) ∧
  (∀ (off : BitVec 8) (r : Reg), Reg.atOffset off = some r → r.offset = off) ∧
  (∀ k : Fin 8, (Reg.key k).offset.toNat = 0x10 + 4 * k.val) ∧
  (∀ k : Fin 5, (Reg.nonce k).offset.toNat = 0x30 + 4 * k.val) ∧
  (∀ k : Fin 4, (Reg.tag k).offset.toNat = 0x50 + 4 * k.val) ∧
  Reg.cmd.offset = 0x00 ∧ Reg.status.offset = 0x04 ∧ Reg.irqEn.offset = 0x08 ∧
  Reg.adAddrLo.offset = 0x60 ∧ Reg.adAddrHi.offset = 0x64 ∧ Reg.adLenLo.offset = 0x68 ∧ Reg.adLenHi.offset = 0x6C ∧
  Reg.inAddrLo.offset = 0x70 ∧ Reg.inAddrHi.offset = 0x74 ∧ Reg.inLenLo.offset = 0x78 ∧ Reg.inLenHi.offset = 0x7C ∧
  Reg.outAddrLo.offset = 0x80 ∧ Reg.outAddrHi.offset = 0x84

/-- R171: a 32-bit read of CMD, of a KEY register or of a reserved offset returns 0, and of any other register the
register's value; no read has a side effect; while a command runs, the TAG registers keep their values; right after an
acceptance STATUS reads 1. -/
def Obligations.HostReadReturnsTheRegister : Prop :=
  (∀ e : Engine, hostReadValue .w32 Reg.cmd.offset e = 0 ∧ ∀ k : Fin 8, hostReadValue .w32 (Reg.key k).offset e = 0) ∧
  (∀ (e : Engine) (off : BitVec 8), Reg.atOffset off = none → hostReadValue .w32 off e = 0) ∧
  (∀ (e : Engine) (r : Reg), (r = .status ∨ r = .irqEn ∨ r.isConfig = true) → (∀ k, r ≠ .key k) →
    hostReadValue .w32 r.offset e = e.contents r) ∧
  (∀ (w : Width) (off : BitVec 8) (s : State), hostRead w off s = { s with rdata := hostReadValue w off s.eng }) ∧
  (∀ s : State, (engineStep s).eng.status.busy = true → (engineStep s).eng.tag = s.eng.tag) ∧
  (∀ (op : Op) (s : State), hostReadValue .w32 Reg.status.offset (accept op s).eng = 0x00000001)

/-- R39, R61: an access that is not 32 bits wide or not word-aligned, and an access to a reserved offset, reads 0 and
writes nothing; the reserved bits of STATUS and IRQ_EN read 0, and the bits written there have no effect. -/
def Obligations.ReservedAndOddAccessesDoNothing : Prop :=
  (∀ (w : Width) (off : BitVec 8), (w ≠ .w32 ∨ off.toNat % 4 ≠ 0) →
    (∀ e : Engine, hostReadValue w off e = 0) ∧ ∀ (v : Word) (s : State), hostWrite w off v s = .next s) ∧
  (∀ (w : Width) (off : BitVec 8),
    (off = 0x0C ∨ (0x44 ≤ off.toNat ∧ off.toNat < 0x50) ∨ 0x88 ≤ off.toNat) →
    (∀ e : Engine, hostReadValue w off e = 0) ∧ ∀ (v : Word) (s : State), hostWrite w off v s = .next s) ∧
  (∀ e : Engine, (hostReadValue .w32 Reg.status.offset e).extractLsb' 8 24 = 0 ∧
    (hostReadValue .w32 Reg.irqEn.offset e).extractLsb' 1 31 = 0) ∧
  (∀ (v v' : Word) (s : State), v.extractLsb' 0 8 = v'.extractLsb' 0 8 →
    hostWrite .w32 Reg.status.offset v s = hostWrite .w32 Reg.status.offset v' s) ∧
  (∀ (v v' : Word) (s : State), v.extractLsb' 0 1 = v'.extractLsb' 0 1 →
    hostWrite .w32 Reg.irqEn.offset v s = hostWrite .w32 Reg.irqEn.offset v' s)

/-- R170: a 32-bit write of a configuration register of an idle engine puts the value there and changes no other
register, no hidden state and nothing else. -/
def Obligations.ConfigWriteOfIdleEngine : Prop :=
  ∀ (s : State) (r : Reg) (v : Word), s.eng.status.busy = false → r.isConfig = true →
    ∃ e', hostWrite .w32 r.offset v s = .next { s with eng := e' } ∧
      e'.contents r = v ∧ (∀ r', r' ≠ r → e'.contents r' = s.eng.contents r') ∧
      e'.status = s.eng.status ∧ Engine.SameHidden s.eng e'

/-- R40: while BUSY a write to CMD or to a configuration register has no effect; writes to STATUS and IRQ_EN keep
theirs; reads behave as in idle. -/
def Obligations.BusyEngineIgnoresConfigWrites : Prop :=
  ∀ s : State, s.eng.status.busy = true →
    (∀ (r : Reg) (v : Word), (r = .cmd ∨ r.isConfig = true) → hostWrite .w32 r.offset v s = .next s) ∧
    (∀ v : Word, hostWrite .w32 Reg.status.offset v s =
      .next { s with eng := { s.eng with status := s.eng.status.hostWrite v } }) ∧
    (∀ v : Word, hostWrite .w32 Reg.irqEn.offset v s = .next { s with eng := { s.eng with ie := v.getLsbD 0 } }) ∧
    (∀ (w : Width) (off : BitVec 8), off ≠ Reg.status.offset →
      hostReadValue w off s.eng = hostReadValue w off { s.eng with status := Status.reset })

/-- R31: a write to STATUS clears DONE when bit 1 of the value is 1 and changes nothing else; while BUSY it changes
nothing. No other write but one to CMD, no read and no step of an idle engine changes AUTH_FAIL, ERR or ERR_CODE. -/
def Obligations.StatusWriteClearsOnlyDone : Prop :=
  (∀ (s : State) (v : Word), hostWrite .w32 Reg.status.offset v s =
    .next { s with eng := { s.eng with status :=
      { s.eng.status with done := s.eng.status.done && !v.getLsbD 1 } } }) ∧
  (∀ (s : State) (v : Word), s.eng.StatusInv → s.eng.status.busy = true →
    hostWrite .w32 Reg.status.offset v s = .next s) ∧
  (∀ (s : State) (r : Reg) (v : Word), r ≠ .cmd →
    ∃ e', hostWrite .w32 r.offset v s = .next { s with eng := e' } ∧ e'.status.busy = s.eng.status.busy ∧
      e'.status.authFail = s.eng.status.authFail ∧ e'.status.err = s.eng.status.err ∧
      e'.status.errCode = s.eng.status.errCode) ∧
  (∀ (w : Width) (off : BitVec 8) (s : State), (hostRead w off s).eng = s.eng) ∧
  (∀ s : State, s.eng.phase = .idle → engineStep s = s)

/-- R32: IRQ_EN bit 0 is IE, written in any state of the engine; its other bits read 0; `irq` is DONE and IE. -/
def Obligations.IrqEnHoldsOneBit : Prop :=
  (∀ (s : State) (v : Word), hostWrite .w32 Reg.irqEn.offset v s =
    .next { s with eng := { s.eng with ie := v.getLsbD 0 } }) ∧
  (∀ e : Engine, hostReadValue .w32 Reg.irqEn.offset e = if e.ie then 0x00000001 else 0x00000000) ∧
  (∀ e : Engine, e.irq = true ↔ e.status.done = true ∧ e.ie = true) ∧ State.reset.eng.ie = false

/-- R204: `irq` is a level, DONE and IE. Masking does not clear DONE; a write of 1 to DONE and an acceptance lower it;
a rejection, a completion and an abort raise it when IE is set. -/
def Obligations.InterruptIsALevel : Prop :=
  (∀ e : Engine, e.irq = (e.status.done && e.ie)) ∧
  (∀ (e : Engine) (v : Word), (e.writeReg .irqEn v).status.done = e.status.done) ∧
  (∀ (e : Engine) (v : Word), v.getLsbD 1 = true → (e.writeReg .status v).irq = false) ∧
  (∀ (op : Op) (s : State), (accept op s).eng.irq = false) ∧
  (∀ (c : ErrCode) (s : State), (reject c s).eng.irq = s.eng.ie) ∧
  (∀ s : State, (busAbort s).eng.irq = s.eng.ie ∧ (stepWipe s).eng.irq = s.eng.ie)

/-- The layout of STATUS (R30). -/
def Obligations.StatusWordLayout : Prop :=
  ∀ st : Status,
    st.toWord.getLsbD 0 = st.busy ∧ st.toWord.getLsbD 1 = st.done ∧ st.toWord.getLsbD 2 = st.authFail ∧
    st.toWord.getLsbD 3 = st.err ∧ st.toWord.extractLsb' 4 4 = st.errCode.bits ∧ st.toWord.extractLsb' 8 24 = 0 ∧
    (st.errCode.bits).toNat < 5

/-- The STATUS values a command can leave (R95), and what a write of 1 to DONE makes of them. -/
def Obligations.StatusValuesACommandLeaves : Prop :=
  Status.reset.toWord = 0x00000000 ∧ Status.accepted.toWord = 0x00000001 ∧
  (Status.completed false).toWord = 0x00000002 ∧ (Status.completed true).toWord = 0x00000006 ∧
  (Status.rejected .illegalCmd).toWord = 0x0000001A ∧ (Status.rejected .range).toWord = 0x0000002A ∧
  (Status.rejected .overlap).toWord = 0x0000003A ∧
  (Status.aborted false).toWord = 0x0000004A ∧ (Status.aborted true).toWord = 0x0000004E ∧
  ((Status.completed true).hostWrite 2).toWord = 0x00000004 ∧
  ((Status.rejected .illegalCmd).hostWrite 2).toWord = 0x00000018 ∧
  ((Status.rejected .range).hostWrite 2).toWord = 0x00000028 ∧
  ((Status.rejected .overlap).hostWrite 2).toWord = 0x00000038 ∧
  ((Status.aborted false).hostWrite 2).toWord = 0x00000048

/-- R92: the operands' bytes are the registers' bytes, little-endian, and the addresses and lengths are HI << 32 | LO;
and the context captured at acceptance holds just these. -/
def Obligations.OperandsAreTheRegistersBytes : Prop :=
  ∀ e : Engine,
    (∀ (k : Fin 8) (j : Nat), j < 4 →
      e.keyBytes.extractLsb' (8 * (4 * k.val + j)) 8 = e.key[k].extractLsb' (8 * j) 8) ∧
    (∀ (k : Fin 5) (j : Nat), j < 4 →
      e.nonceBytes.extractLsb' (8 * (4 * k.val + j)) 8 = e.nonce[k].extractLsb' (8 * j) 8) ∧
    (∀ (k : Fin 4) (j : Nat), j < 4 →
      e.tagBytes.extractLsb' (8 * (4 * k.val + j)) 8 = e.tag[k].extractLsb' (8 * j) 8) ∧
    e.adAddr.toNat = e.adAddrHi.toNat * 2 ^ 32 + e.adAddrLo.toNat ∧
    e.adLen.toNat = e.adLenHi.toNat * 2 ^ 32 + e.adLenLo.toNat ∧
    e.inAddr.toNat = e.inAddrHi.toNat * 2 ^ 32 + e.inAddrLo.toNat ∧
    e.inLen.toNat = e.inLenHi.toNat * 2 ^ 32 + e.inLenLo.toNat ∧
    e.outAddr.toNat = e.outAddrHi.toNat * 2 ^ 32 + e.outAddrLo.toNat ∧
    (∀ op : Op, e.capture op =
      { op := op, K := e.keyBytes, N := e.nonceBytes, T := e.tagBytes,
        A := e.adAddr, a := e.adLen, I := e.inAddr, n := e.inLen, O := e.outAddr })

/-- The TAG registers hold the tag's bytes, little-endian, and give them back (R35, R62). -/
def Obligations.TagRegistersHoldTheTag : Prop :=
  (∀ (T : Block) (k : Fin 4) (j : Nat), j < 4 →
    (tagWords T)[k].extractLsb' (8 * j) 8 = T.extractLsb' (8 * (4 * k.val + j)) 8) ∧
  (∀ (e : Engine) (T : Block), e.tag = tagWords T → e.tagBytes = T)

/-- No host read depends on the internal state, the context, PHASE, the temporaries or the key (R23, R33): two engines
that agree on the readable registers answer every read alike. -/
def Obligations.ReadsRevealNoHiddenState : Prop :=
  ∀ (e : Engine) (S : S512) (c : Ctx) (p : Phase) (b t : Block) (a : Byte) (K : Vector Word 8)
    (w : Width) (off : BitVec 8),
    hostReadValue w off { e with S := S, ctx := c, phase := p, blk := b, rtag := t, acc := a, key := K } =
      hostReadValue w off e

/-- Writing the same value twice to a register other than CMD has the effect of writing it once (R63). R63 excepts
STATUS bit 1 along with CMD; a STATUS write with bit 1 set is covered here all the same, because such a write only
clears DONE (R31, R170), and the second one, with no other write between, finds it clear. -/
def Obligations.WritingTwiceIsWritingOnce : Prop :=
  ∀ (w : Width) (off : BitVec 8) (v : Word) (s t : State), off ≠ Reg.cmd.offset →
    hostWrite w off v s = .next t → hostWrite w off v t = .next t

/-! ## The commands -/

/-- R173: NOP changes nothing, as an instruction and as the command word 0, in any state. -/
def Obligations.NopChangesNothing : Prop :=
  ∀ s : State, exec .nop s = .next s ∧ commandWrite 0x00000000 s = .next s

/-- R174, R175, R176: an idle engine that meets an illegal word, a buffer that ends beyond 2^64, or an OUT buffer that
overlaps AD or overlaps IN without equalling it, sets STATUS to DONE, ERR and the code, and changes nothing else. The
range check comes before the overlap check; with IE set the interrupt rises. Buffers that end at 2^64 or before, apart
or with OUT = IN, are not rejected. -/
def Obligations.RejectionChangesOnlyStatus : Prop :=
  ∀ (s : State) (i : Instr), s.eng.status.busy = false → (i = .encrypt ∨ i = .decrypt) →
    ∃ rejected : ErrCode → State,
      (∀ c, rejected c = { s with eng := { s.eng with status := (rejected c).eng.status } } ∧
        (rejected c).eng.status.toWord = 0x0000000A ||| ((c.bits.setWidth 32) <<< 4) ∧
        (rejected c).eng.irq = s.eng.ie) ∧
      (∀ w : Word, w ≠ 0 → w ≠ 1 → w ≠ 2 → commandWrite w s = .next (rejected .illegalCmd)) ∧
      ((2 ^ 64 < s.eng.adAddr.toNat + s.eng.adLen.toNat ∨ 2 ^ 64 < s.eng.inAddr.toNat + s.eng.inLen.toNat ∨
          2 ^ 64 < s.eng.outAddr.toNat + s.eng.inLen.toNat) → exec i s = .next (rejected .range)) ∧
      (s.eng.adAddr.toNat + s.eng.adLen.toNat ≤ 2 ^ 64 → s.eng.inAddr.toNat + s.eng.inLen.toNat ≤ 2 ^ 64 →
        s.eng.outAddr.toNat + s.eng.inLen.toNat ≤ 2 ^ 64 →
        ((∃ x, s.eng.outAddr.toNat ≤ x ∧ x < s.eng.outAddr.toNat + s.eng.inLen.toNat ∧
            s.eng.adAddr.toNat ≤ x ∧ x < s.eng.adAddr.toNat + s.eng.adLen.toNat) ∨
          ((∃ x, s.eng.outAddr.toNat ≤ x ∧ x < s.eng.outAddr.toNat + s.eng.inLen.toNat ∧
            s.eng.inAddr.toNat ≤ x ∧ x < s.eng.inAddr.toNat + s.eng.inLen.toNat) ∧
            s.eng.outAddr ≠ s.eng.inAddr)) →
        exec i s = .next (rejected .overlap)) ∧
      (s.eng.adAddr.toNat + s.eng.adLen.toNat ≤ 2 ^ 64 → s.eng.inAddr.toNat + s.eng.inLen.toNat ≤ 2 ^ 64 →
        s.eng.outAddr.toNat + s.eng.inLen.toNat ≤ 2 ^ 64 →
        (∀ x, s.eng.outAddr.toNat ≤ x → x < s.eng.outAddr.toNat + s.eng.inLen.toNat →
          ¬ (s.eng.adAddr.toNat ≤ x ∧ x < s.eng.adAddr.toNat + s.eng.adLen.toNat) ∧
          (¬ (s.eng.inAddr.toNat ≤ x ∧ x < s.eng.inAddr.toNat + s.eng.inLen.toNat) ∨
            s.eng.outAddr = s.eng.inAddr)) →
        ∀ c, exec i s ≠ .next (rejected c))

/-- R177: an idle engine whose buffers pass both checks accepts ENCRYPT and DECRYPT: the context is captured from the
registers, STATUS is BUSY alone, PHASE is INIT(0), and nothing else changes. (The premise on the other engines is
R213's: no running command conflicts.) -/
def Obligations.AcceptanceCapturesTheContext : Prop :=
  ∀ (s : State) (i : Instr) (op : Op), ((i = .encrypt ∧ op = .encrypt) ∨ (i = .decrypt ∧ op = .decrypt)) →
    Launchable op s →
    ∃ t, exec i s = .next t ∧
      t = { s with eng := { s.eng with
        ctx := { op := op, K := s.eng.keyBytes, N := s.eng.nonceBytes, T := s.eng.tagBytes,
                 A := s.eng.adAddr, a := s.eng.adLen, I := s.eng.inAddr, n := s.eng.inLen, O := s.eng.outAddr },
        status := { busy := true, done := false, authFail := false, err := false, errCode := .none },
        phase := .init 0 } } ∧
      t.eng.status.toWord = 0x00000001 ∧ t.eng.irq = false

/-- A command word written while BUSY is lost (R172, R235). The MODEL's choice: R172 and R235 speak of the CMD write;
that `exec` of each instruction answers the same state too is log entry 15 (DEDUCED: the check stands in the meanings
as well). -/
def Obligations.BusyEngineLosesCommands : Prop :=
  ∀ s : State, s.eng.status.busy = true → (∀ w : Word, commandWrite w s = .next s) ∧ ∀ i : Instr, exec i s = .next s

/-- A launch whose OUT range shares a byte with a buffer of a command running on another engine, or whose buffers share
one with that command's OUT range, is refused, when nothing else is wrong with it (R213, I6). -/
def Obligations.ConflictingLaunchIsRefused : Prop :=
  ∀ (s : State) (i : Instr) (op : Op) (p : Engine) (x : Nat),
    ((i = .encrypt ∧ op = .encrypt) ∨ (i = .decrypt ∧ op = .decrypt)) →
    s.eng.status.busy = false → (s.eng.capture op).rangeBad = false → (s.eng.capture op).overlapBad = false →
    p ∈ s.peers → p.status.busy = true →
    ((¬ (s.eng.capture op).outside x ∧ (¬ p.ctx.outside x ∨
        (p.ctx.A.toNat ≤ x ∧ x < p.ctx.A.toNat + p.ctx.a.toNat) ∨
        (p.ctx.I.toNat ≤ x ∧ x < p.ctx.I.toNat + p.ctx.n.toNat))) ∨
     (¬ p.ctx.outside x ∧
        ((s.eng.adAddr.toNat ≤ x ∧ x < s.eng.adAddr.toNat + s.eng.adLen.toNat) ∨
         (s.eng.inAddr.toNat ≤ x ∧ x < s.eng.inAddr.toNat + s.eng.inLen.toNat)))) →
    exec i s = .refused .engineOverlap

/-! ## The other agents -/

/-- R236: while a command runs, a store of any agent that would write a byte of its AD, IN or OUT range is refused, and
so is a read of a byte of its OUT range. -/
def Obligations.LiveBufferAccessIsRefused : Prop :=
  ∀ (s : State) (e : Engine) (addr : DWord) (x : Nat), e ∈ s.engines → e.status.busy = true → addr.toNat ≤ x →
    (∀ bytes : List Byte, addr.toNat + bytes.length ≤ 2 ^ 64 → x < addr.toNat + bytes.length →
      ((e.ctx.A.toNat ≤ x ∧ x < e.ctx.A.toNat + e.ctx.a.toNat) ∨
        (e.ctx.I.toNat ≤ x ∧ x < e.ctx.I.toNat + e.ctx.n.toNat) ∨ ¬ e.ctx.outside x) →
      agentStore addr bytes s = .refused .liveBuffer) ∧
    (∀ len : Nat, addr.toNat + len ≤ 2 ^ 64 → x < addr.toNat + len → ¬ e.ctx.outside x →
      agentLoad addr len s = .refused .liveBuffer)

/-- A store inside the address space that touches no byte of a buffer of a running command writes its bytes and nothing
else, and a load returns them; a load that touches no OUT byte of a running command returns memory's bytes, whether or
not commands run (R60, R72, R76; R236 prohibits only the accesses left out here). The MODEL's choice, no rule's: a
store or load of another agent lands whatever `MemOK` says (log entry 17, DEDUCED, unsafe), memory is one coherent
store, so that it lands in that step (log entry 21, DEDUCED, unsafe), and the bytes loaded stand in `mdata` (log
entry 7, DESIGN CHOICE). -/
def Obligations.AgentStoreThenLoad : Prop :=
  (∀ (s : State) (addr : DWord) (bytes : List Byte), s.mem.wf → addr.toNat + bytes.length ≤ 2 ^ 64 →
    (∀ e ∈ s.engines, e.status.busy = true → ∀ x, addr.toNat ≤ x → x < addr.toNat + bytes.length →
      ¬ e.ctx.inBuffers x) →
    ∃ t, agentStore addr bytes s = .next t ∧ t = { s with mem := t.mem } ∧
      (∀ x, x < addr.toNat ∨ addr.toNat + bytes.length ≤ x → t.mem.read x = s.mem.read x) ∧
      agentLoad addr bytes.length t = .next { t with mdata := bytes }) ∧
  (∀ (s : State) (addr : DWord) (len : Nat), addr.toNat + len ≤ 2 ^ 64 →
    (∀ e ∈ s.engines, e.status.busy = true → ∀ x, addr.toNat ≤ x → x < addr.toNat + len → e.ctx.outside x) →
    agentLoad addr len s = .next { s with mdata := s.mem.readAll addr.toNat len })

/-! ## The permutation, the update and the initialization -/

/-- The rotation of R10: bit `i` of the result is bit `(i + n) mod 32` of the operand, and a rotation by 0 is none. -/
def Obligations.RotationIsCircular : Prop :=
  (∀ (v : Word) (n i : Nat), n < 32 → i < 32 → (rotr32 v n).getLsbD i = v.getLsbD ((i + n) % 32)) ∧
  ∀ v : Word, rotr32 v 0 = v

/-- R111, R112: one round on every lane. Step 2 reads the `x[i]` that step 1 produced, and lane `i` reads and writes
only `x[i]`, `y[i]` and `RC[i]`. -/
def Obligations.RoundOnEveryLane : Prop :=
  ∀ (r1 r2 : Nat) (s : S512) (i : Fin 8),
    laneX (round r1 r2 s) i = (laneX s i + rotr32 (laneY s i) r1) ^^^ roundConstants[i]! ∧
    laneY (round r1 r2 s) i = laneY s i + rotr32 (laneX s i + rotr32 (laneY s i) r1) r2 ∧
    roundConstants = [0xb7e15162, 0xbf715880, 0x38b4da56, 0x324e7738, 0xbb1185eb, 0x4f7c7b57, 0xcfbfa1c8, 0xc2b3293d]

/-- R113, R114: the permutation is the four rounds of the schedule; output lane `i` depends only on input lane `i`; the
permutation of the initial value is not the initial value. -/
def Obligations.PermuteIsLaneWise : Prop :=
  (∀ s : S512, permute s = round 24 16 (round 0 31 (round 17 17 (round 31 24 s)))) ∧
  (∀ (s t : S512) (i : Fin 8), laneX s i = laneX t i → laneY s i = laneY t i →
    laneX (permute s) i = laneX (permute t) i ∧ laneY (permute s) i = laneY (permute t) i) ∧
  permute (loadIV 0) ≠ loadIV 0

/-- R115, R116: the update on every 64-bit word: the permuted word, XOR the snapshot word `(i - 1) mod 8`, XOR the data
in words 0 and 4. -/
def Obligations.UpdateOnEveryWord : Prop :=
  ∀ (d1 d2 : DWord) (s : S512) (k : Fin 8),
    word64Of (update d1 d2 s) k =
      word64Of (permute s) k ^^^ word64Of s ((k.val + 7) % 8) ^^^ (if k.val = 0 then d1 else if k.val = 4 then d2 else 0)

/-- R118, R119: `Init` loads the IV into the sixteen words, XORs the key into bytes 0..31 and the nonce into bytes
32..51, whatever stood in `S`, and then makes the updates with the counters 0 to 19 in both words. The values of the
sixteen IV words are R27's, which the spec itself marks general knowledge: log entry 9 (PRESUMED, unsafe). -/
def Obligations.InitOnEveryByte : Prop :=
  (∀ (s : S512) (j : Fin 16), word32Of (loadIV s) j = initialValue[j]!) ∧
  initialValue = [0x243f6a88, 0x85a308d3, 0x13198a2e, 0x03707344, 0xa4093822, 0x299f31d0, 0x082efa98, 0xec4e6c89,
    0x452821e6, 0x38d01377, 0xbe5466cf, 0x34e90c6c, 0xc0ac29b7, 0xc97c50dd, 0x3f84d5b5, 0xb5470917] ∧
  (∀ (K : Key) (N : Nonce) (s : S512) (j : Nat), j < 64 →
    byteOf (initLoad K N s) j =
      byteOf (loadIV s) j ^^^ (if j < 32 then K.extractLsb' (8 * j) 8
        else if j < 52 then N.extractLsb' (8 * (j - 32)) 8 else 0)) ∧
  (∀ (K : Key) (N : Nonce) (s : S512), init K N =
    (List.range 20).foldl (fun t i => update (BitVec.ofNat 64 i) (BitVec.ofNat 64 i) t) (initLoad K N s))

/-! ## Blocks, tag and the AEAD functions -/

/-- R140: every byte of the masked block. -/
def Obligations.MaskOnEveryByte : Prop :=
  ∀ (s : S512) (blk : Block) (j : Nat), j < 16 →
    (mask s blk).extractLsb' (8 * j) 8 = blk.extractLsb' (8 * j) 8 ^^^ byteOf s (16 + j) ^^^ byteOf s (48 + j)

/-- R141, R142: EncBlock masks with the state before the update and absorbs its input; DecBlock absorbs what it
recovers; DecBlock of an EncBlock from the same state gives the block back and the same next state. -/
def Obligations.BlockOperationsInvert : Prop :=
  ∀ (s : S512) (p : Block),
    (encBlock s p).2 = mask s p ∧ (encBlock s p).1 = update (p.extractLsb' 0 64) (p.extractLsb' 64 64) s ∧
    (decBlock s p).2 = mask s p ∧
    (decBlock s p).1 = update ((mask s p).extractLsb' 0 64) ((mask s p).extractLsb' 64 64) s ∧
    decBlock s (encBlock s p).2 = ((encBlock s p).1, p)

/-- R143: a padded segment holds its own bytes and then zeros; a 16-byte segment is unchanged. -/
def Obligations.PaddingAddsZeros : Prop :=
  ∀ seg : List Byte, seg.length ≤ 16 →
    blockBytes (pad seg) = seg ++ List.replicate (16 - seg.length) 0

/-- R144: the number of blocks, their lengths, and that together they are the sequence. -/
def Obligations.SegmentsMakeUpTheSequence : Prop :=
  ∀ l : List Byte,
    blockCount l.length = l.length / 16 + (if l.length % 16 = 0 then 0 else 1) ∧
    (∀ b, b < l.length / 16 → segment l b = (l.drop (16 * b)).take 16 ∧ (segment l b).length = 16) ∧
    (segment l (l.length / 16)).length = l.length % 16 ∧
    (List.range (blockCount l.length)).flatMap (segment l) = l

/-- R148: the rollback on every byte of the state. -/
def Obligations.RollbackOnEveryByte : Prop :=
  ∀ (s : S512) (p : Block) (r k : Nat), 1 ≤ r → r ≤ 15 → k < 64 →
    byteOf (rollback s p r) k = byteOf s k ^^^
      (if k < 8 then (if k < r then 0 else p.extractLsb' (8 * k) 8)
       else if 32 ≤ k ∧ k < 40 then (if k - 24 < r then 0 else p.extractLsb' (8 * (k - 24)) 8)
       else 0)

/-- R151: the tag is the fold of the four windows of the state after ten updates with the two lengths. -/
def Obligations.TagOnEveryByte : Prop :=
  ∀ (s : S512) (a n : DWord) (j : Nat), j < 16 →
    ∀ t : S512, t = (List.range 10).foldl (fun u _ => update a n u) s →
      (mac s a n).extractLsb' (8 * j) 8 = byteOf t j ^^^ byteOf t (16 + j) ^^^ byteOf t (32 + j) ^^^ byteOf t (48 + j)

/-- The comparison of R152 holds exactly for equal tags: a difference in any single bit makes it false. -/
def Obligations.ComparisonIsEquality : Prop := ∀ T T' : Block, ctEq T T' = true ↔ T = T'

/-- R150: encryption and decryption follow the same state trajectory, from every state and for every plaintext. -/
def Obligations.SameStateTrajectory : Prop :=
  ∀ (s : S512) (M : List Byte), decryptPayload s (encryptPayload s M).2 = ((encryptPayload s M).1, M)

/-- R157: a decryption with the right tag gives the plaintext, one with any other tag gives 0xd0 in every byte, and
the decryption of an encryption gives the message back. -/
def Obligations.AeadDecryptInvertsAeadEncrypt : Prop :=
  (∀ (K : Key) (N : Nonce) (ad M : List Byte),
    aeadDecrypt K N ad (aeadEncrypt K N ad M).1 (aeadEncrypt K N ad M).2 = (M, true)) ∧
  (∀ (K : Key) (N : Nonce) (ad C : List Byte) (T' : Block), T' = decryptTag K N ad C →
    aeadDecrypt K N ad C T' = ((decryptPayload (absorbAD (init K N) ad) C).2, true)) ∧
  (∀ (K : Key) (N : Nonce) (ad C : List Byte) (T' : Block), T' ≠ decryptTag K N ad C →
    aeadDecrypt K N ad C T' = (List.replicate C.length 0xd0, false))

/-- The output of either function is as long as its input (R183). -/
def Obligations.LengthIsPreserved : Prop :=
  ∀ (K : Key) (N : Nonce) (ad M : List Byte) (T : Block),
    (aeadEncrypt K N ad M).1.length = M.length ∧ (aeadDecrypt K N ad M T).1.length = M.length

/-- The known-answer test T1 of spec/95_test_vectors.md: ciphertext and tag. -/
def Obligations.KnownAnswerTest : Prop :=
  aeadEncrypt 0x0101010101010101010101010101010101010101010101010101010101010101
      0x0202020202020202020202020202020202020202 (List.replicate 20 0x03) (List.replicate 100 0x04) =
    ([0x9e, 0xbd, 0x0c, 0xba, 0x7f, 0x8e, 0x8f, 0x22, 0x48, 0xe7, 0x24, 0xd5, 0x36, 0x55, 0x89, 0x26,
      0x49, 0x77, 0x24, 0xbb, 0xaf, 0x9f, 0x7e, 0x2c, 0x48, 0x8c, 0x57, 0x19, 0x16, 0xde, 0x00, 0xb1,
      0x2e, 0x97, 0x12, 0x31, 0x37, 0x32, 0xc9, 0xbd, 0xcf, 0x4a, 0xdb, 0x4c, 0xa1, 0x50, 0x86, 0x60] ++
     [0x19, 0x07, 0x57, 0xea, 0x6f, 0xcf, 0x04, 0x76, 0xb8, 0x31, 0x26, 0x96, 0xe8, 0x23, 0x6c, 0xc7,
      0x06, 0xd4, 0x6c, 0xe9, 0x5a, 0xa2, 0x1f, 0xbe, 0x7c, 0xc5, 0x2a, 0x88, 0x23, 0x3b, 0x34, 0x3a,
      0x86, 0xf5, 0xef, 0x16, 0xb2, 0xeb, 0xe6, 0xae, 0x18, 0x49, 0xad, 0x2c, 0x7a, 0x9c, 0xb0, 0x3c,
      0xab, 0xaf, 0x95, 0xb4],
     0x20b365f984f4b92bef3adac9c4e9d846)

/-! ## The run of a command -/

/-- The invariant of the system holds after reset. -/
def Obligations.InvariantHoldsAtReset : Prop := State.reset.Inv

/-- Every step keeps the invariant: STATUS keeps its three invariants and BUSY means PHASE is not IDLE (R30, R42),
hidden state is zero between commands (R24, R41, R43), the context equals the registers while a command runs (R41),
running commands passed the checks (R175, R176) and do not conflict (R213), what the payload pass has written stays
writable (R71, R181), and memory keeps its canonical form. -/
def Obligations.EveryStepKeepsTheInvariant : Prop := ∀ s t : State, s.Inv → step s = .next t → t.Inv

/-- R178: an accepted ENCRYPT whose accesses are all answered ends with the ciphertext of `AeadEncrypt` in OUT, its tag
in TAG, STATUS = DONE, everything hidden wiped and PHASE IDLE; nothing else in the system is changed. In place too. The
MODEL's choice, no rule's: that `exec` is the acceptance and internal steps the rest (log entry 16, DEDUCED), and the
exact count 20 + ceil(a/16) + ceil(n/16) + 10 + 1 of those steps (log entry 1, DESIGN CHOICE; one step a block, log
entry 11, DESIGN CHOICE; TAG, wipe and DONE in one step, log entry 12, DEDUCED). -/
def Obligations.EncryptRunsToItsResult : Prop :=
  ∀ s : State, Launchable .encrypt s → (s.eng.capture .encrypt).AllAnswered s.map →
    ∃ t, exec .encrypt s = .next t ∧
      ∀ r : List Byte × Block,
        r = aeadEncrypt s.eng.keyBytes s.eng.nonceBytes (s.mem.readAll s.eng.adAddr.toNat s.eng.adLen.toNat)
          (s.mem.readAll s.eng.inAddr.toNat s.eng.inLen.toNat) →
        engineSteps (20 + (s.eng.adLen.toNat + 15) / 16 + (s.eng.inLen.toNat + 15) / 16 + 11) t =
          { s with
            mem := s.mem.writeAll s.eng.outAddr.toNat r.1
            eng := { s.eng with
              tag := tagWords r.2
              status := { busy := false, done := true, authFail := false, err := false, errCode := .none }
              phase := .idle, S := 0, ctx := Ctx.zero, blk := 0, rtag := 0, acc := 0 } }

/-- R179: an accepted DECRYPT whose accesses are all answered ends with the plaintext of `AeadDecrypt` in OUT (0xd0 in
every byte when the tag fails), STATUS = DONE, with AUTH_FAIL exactly when the tag fails, everything hidden wiped and
PHASE IDLE; nothing else in the system is changed, TAG0..3 included. The MODEL's choice, no rule's: that `exec` is the
acceptance and internal steps the rest (log entry 16, DEDUCED), and the exact count 20 + ceil(a/16) + ceil(n/16) + 12,
and n more when the tag fails, of those steps (log entry 1, DESIGN CHOICE; one step a block, log entry 11, DESIGN
CHOICE; wipe and DONE in one step, log entry 12, DEDUCED). -/
def Obligations.DecryptRunsToItsResult : Prop :=
  ∀ s : State, s.mem.wf → Launchable .decrypt s → (s.eng.capture .decrypt).AllAnswered s.map →
    ∃ t, exec .decrypt s = .next t ∧
      ∀ r : List Byte × Bool,
        r = aeadDecrypt s.eng.keyBytes s.eng.nonceBytes (s.mem.readAll s.eng.adAddr.toNat s.eng.adLen.toNat)
          (s.mem.readAll s.eng.inAddr.toNat s.eng.inLen.toNat) s.eng.tagBytes →
        engineSteps (20 + (s.eng.adLen.toNat + 15) / 16 + (s.eng.inLen.toNat + 15) / 16 + 12 +
            (if r.2 then 0 else s.eng.inLen.toNat)) t =
          { s with
            mem := s.mem.writeAll s.eng.outAddr.toNat r.1
            eng := { s.eng with
              status := { busy := false, done := true, authFail := !r.2, err := false, errCode := .none }
              phase := .idle, S := 0, ctx := Ctx.zero, blk := 0, rtag := 0, acc := 0 } }

/-- What an internal step leaves alone, in every phase and on every path: KEY, NONCE, the buffer descriptors and IRQ_EN
always (R33, R34), everything around the engine, and every byte of memory outside the OUT range (R65); STATUS and TAG
until the command ends (R35, R171), and TAG at the end of a DECRYPT and of an aborted command (R35, R181). Inside OUT
too, a step that does not abort stores only the bytes of its payload block or its one fill byte, and in every other
phase it stores nothing (R65). Only a bus error reaches the rest of OUT (R181, I5), and only an AD or a payload block
can raise one. -/
def Obligations.InternalStepFrame : Prop :=
  ∀ s : State, s.Inv →
    s.eng.SameConfig (engineStep s).eng ∧ (engineStep s).eng.ie = s.eng.ie ∧ State.SameAround s (engineStep s) ∧
    (∀ x, s.eng.ctx.outside x → (engineStep s).mem.read x = s.mem.read x) ∧
    ((engineStep s).eng.status.busy = true → (engineStep s).eng.status = s.eng.status) ∧
    ((engineStep s).eng.tag ≠ s.eng.tag →
      s.eng.phase = .wipe ∧ s.eng.ctx.op = .encrypt ∧ (engineStep s).eng.status.done = true ∧
        (engineStep s).eng.status.err = false) ∧
    (¬ s.Aborts →
      match s.eng.phase with
      | .msg b => ∀ x, (x < s.eng.ctx.O.toNat + 16 * b ∨
          s.eng.ctx.O.toNat + 16 * b + blockLen s.eng.ctx.n.toNat b ≤ x) →
          (engineStep s).mem.read x = s.mem.read x
      | .fill o => ∀ x, x ≠ s.eng.ctx.O.toNat + o → (engineStep s).mem.read x = s.mem.read x
      | .idle => (engineStep s).mem = s.mem
      | .init _ => (engineStep s).mem = s.mem
      | .ad _ => (engineStep s).mem = s.mem
      | .mac _ => (engineStep s).mem = s.mem
      | .verify => (engineStep s).mem = s.mem
      | .wipe => (engineStep s).mem = s.mem) ∧
    (s.Aborts → ∃ b, s.eng.phase = .ad b ∨ s.eng.phase = .msg b)

/-- R181: when an access of the step of a running command raises `BusError`, and every access before it in the step is
answered, the command ends: STATUS reads 0x4A (0x4E in the fill), TAG is unchanged, everything hidden is wiped,
PHASE is IDLE, the OUT bytes are unspecified, and every other byte of memory and everything around is unchanged. The
fill's case stands apart, without the invariant, because no state that meets `State.Inv` meets it (C8, FillNeverAborts).
The MODEL's choice, no rule's: byte `k` of OUT is the opaque `Config.freeByte (s.draws + k)`, for every value of the
counter `draws` (log entry 4, DESIGN CHOICE). -/
def Obligations.BusErrorAbortsTheCommand : Prop :=
  (∀ (s : State) (j : Nat), s.Inv →
    ((∃ b, s.eng.phase = .ad b ∧ j < blockLen s.eng.ctx.a.toNat b ∧
        Answered s.map .read (s.eng.ctx.A.toNat + 16 * b) j ∧
        memOK s.map .read (s.eng.ctx.A.toNat + 16 * b + j) = false) ∨
     (∃ b, s.eng.phase = .msg b ∧ j < blockLen s.eng.ctx.n.toNat b ∧
        Answered s.map .read (s.eng.ctx.I.toNat + 16 * b) j ∧
        memOK s.map .read (s.eng.ctx.I.toNat + 16 * b + j) = false) ∨
     (∃ b, s.eng.phase = .msg b ∧ j < blockLen s.eng.ctx.n.toNat b ∧
        Answered s.map .read (s.eng.ctx.I.toNat + 16 * b) (blockLen s.eng.ctx.n.toNat b) ∧
        Answered s.map .write (s.eng.ctx.O.toNat + 16 * b) j ∧
        memOK s.map .write (s.eng.ctx.O.toNat + 16 * b + j) = false)) →
    ∃ t, engineStep s = t ∧ t.eng.status.toWord = 0x0000004A ∧ t.eng.tag = s.eng.tag ∧ t.eng.Wiped ∧
      t.eng.phase = .idle ∧
      (∀ k, k < s.eng.ctx.n.toNat → t.mem.read (s.eng.ctx.O.toNat + k) = Config.freeByte (s.draws + k)) ∧
      (∀ x, s.eng.ctx.outside x → t.mem.read x = s.mem.read x) ∧ State.SameAround s t) ∧
  (∀ (s : State) (o : Nat), s.mem.wf → s.eng.ctx.O.toNat + s.eng.ctx.n.toNat ≤ 2 ^ 64 →
    s.eng.phase = .fill o → memOK s.map .write (s.eng.ctx.O.toNat + o) = false →
    ∃ t, engineStep s = t ∧ t.eng.status.toWord = 0x0000004E ∧ t.eng.tag = s.eng.tag ∧ t.eng.Wiped ∧
      t.eng.phase = .idle ∧
      (∀ k, k < s.eng.ctx.n.toNat → t.mem.read (s.eng.ctx.O.toNat + k) = Config.freeByte (s.draws + k)) ∧
      (∀ x, s.eng.ctx.outside x → t.mem.read x = s.mem.read x) ∧ State.SameAround s t)

/-- The fill of a failed DECRYPT cannot raise a bus error (R181's corner case, conflict C8): every fill write is
answered, the byte becomes 0xd0, and the command goes on. -/
def Obligations.FillNeverAborts : Prop :=
  ∀ (s : State) (o : Nat), s.Inv → s.eng.phase = .fill o →
    (engineStep s).eng.status = s.eng.status ∧ (engineStep s).mem.read (s.eng.ctx.O.toNat + o) = 0xd0 ∧
    (∀ x, x ≠ s.eng.ctx.O.toNat + o → (engineStep s).mem.read x = s.mem.read x) ∧
    (engineStep s).eng.phase = (if o + 1 < s.eng.ctx.n.toNat then .fill (o + 1) else .wipe)

/-- Every end of a command, on success, on authentication failure and on a bus error, leaves `S`, the context and the
temporaries zero, PHASE IDLE and DONE set (R24, R154, R180). -/
def Obligations.EveryEndWipes : Prop :=
  ∀ s : State, s.eng.status.busy = true → (engineStep s).eng.status.busy = false →
    (engineStep s).eng.Wiped ∧ (engineStep s).eng.phase = .idle ∧ (engineStep s).eng.status.done = true

/-- The order of the phases (R42): INIT, AD, MSG, MAC, then VERIFY and FILL in a DECRYPT only, then WIPE, then IDLE. A
step that does not stay (an idle engine, an access without response) and does not abort goes to the phase named. -/
def Obligations.PhasesFollowTheOrder : Prop :=
  ∀ s : State, s.Inv → engineStep s ≠ s → (engineStep s).eng.status.err = false →
    match s.eng.phase with
    | .idle => False
    | .init i => (engineStep s).eng.phase =
        if h : i.val + 1 < 20 then .init ⟨i.val + 1, h⟩
        else if 0 < s.eng.ctx.a.toNat then .ad 0 else if 0 < s.eng.ctx.n.toNat then .msg 0 else .mac 0
    | .ad b => (engineStep s).eng.phase =
        if 16 * (b + 1) < s.eng.ctx.a.toNat then .ad (b + 1) else if 0 < s.eng.ctx.n.toNat then .msg 0 else .mac 0
    | .msg b => (engineStep s).eng.phase = if 16 * (b + 1) < s.eng.ctx.n.toNat then .msg (b + 1) else .mac 0
    | .mac j => (engineStep s).eng.phase =
        if h : j.val + 1 < 10 then .mac ⟨j.val + 1, h⟩ else if s.eng.ctx.op = .decrypt then .verify else .wipe
    | .verify => s.eng.ctx.op = .decrypt ∧ (engineStep s).eng.phase =
        if s.eng.rtag ≠ s.eng.ctx.T ∧ 0 < s.eng.ctx.n.toNat then .fill 0 else .wipe
    | .fill o => s.eng.ctx.op = .decrypt ∧ (engineStep s).eng.phase =
        if o + 1 < s.eng.ctx.n.toNat then .fill (o + 1) else .wipe
    | .wipe => (engineStep s).eng.phase = .idle

/-- R241: every accepted command ends, completed or aborted, after finitely many internal steps, if no access goes
without a response. R241 bounds their number by 20 + ceil(a/16) + ceil(n/16) + 10 + n operations; the two more steps
here, the comparison and the wipe, are the MODEL's granularity, no rule's (log entry 1, DESIGN CHOICE; log entry 12,
DEDUCED). -/
def Obligations.EveryCommandEnds : Prop :=
  ∀ s : State, s.Inv → s.eng.status.busy = true → s.eng.ctx.NeverSilent s.map →
    ∃ k, k ≤ 20 + (s.eng.ctx.a.toNat + 15) / 16 + (s.eng.ctx.n.toNat + 15) / 16 + 10 + s.eng.ctx.n.toNat + 2 ∧
      (engineSteps k s).eng.phase = .idle ∧ (engineSteps k s).eng.status.done = true

/-- An access that never gets a response leaves the command BUSY for ever (R241, I7). The MODEL's choice, no rule's:
the step changes nothing at all, also where earlier bytes of its block had been written (log entry 11, DESIGN CHOICE).
The fill's case is met by no state that meets `State.Inv`, where every fill write is answered. -/
def Obligations.UnansweredAccessHangs : Prop :=
  ∀ (s : State) (j : Nat),
    ((∃ b, s.eng.phase = .ad b ∧ j < blockLen s.eng.ctx.a.toNat b ∧
        Answered s.map .read (s.eng.ctx.A.toNat + 16 * b) j ∧
        memResponse s.map .read (s.eng.ctx.A.toNat + 16 * b + j) = .silent) ∨
     (∃ b, s.eng.phase = .msg b ∧ j < blockLen s.eng.ctx.n.toNat b ∧
        Answered s.map .read (s.eng.ctx.I.toNat + 16 * b) j ∧
        memResponse s.map .read (s.eng.ctx.I.toNat + 16 * b + j) = .silent) ∨
     (∃ b, s.eng.phase = .msg b ∧ j < blockLen s.eng.ctx.n.toNat b ∧
        Answered s.map .read (s.eng.ctx.I.toNat + 16 * b) (blockLen s.eng.ctx.n.toNat b) ∧
        Answered s.map .write (s.eng.ctx.O.toNat + 16 * b) j ∧
        memResponse s.map .write (s.eng.ctx.O.toNat + 16 * b + j) = .silent) ∨
     (∃ o, s.eng.phase = .fill o ∧ memResponse s.map .write (s.eng.ctx.O.toNat + o) = .silent)) →
    ∀ k, engineSteps k s = s

/-- The operation sequence does not depend on secret data (R155): two engines with the same command, buffers, phase
and platform, whatever their keys, nonces, tags, states and memory bytes, go through the same phases, any number of
steps on, and end alike, as long as the comparison, whenever both come to it, has the same outcome. If the outcomes of
an earlier comparison agree too, they end with the same STATUS, AUTH_FAIL included. -/
def Obligations.SequenceIsIndependentOfData : Prop :=
  ∀ s s' : State, State.SameShape s s' → ∀ k : Nat,
    (∀ j, j < k → State.ComparesAlike (engineSteps j s) (engineSteps j s')) →
    State.SameShape (engineSteps k s) (engineSteps k s') ∧
    (s.eng.status = s'.eng.status → (s.eng.acc = 0 ↔ s'.eng.acc = 0) →
      (engineSteps k s).eng.status = (engineSteps k s').eng.status)

/-- Engines are independent (R212, R213).

Internal steps: under every schedule of the internal steps of all engines, each engine comes to the state that it
reaches alone with its own steps of the schedule, and, when no bus error ended its command, the bytes of its AD, IN
and OUT ranges are those that it leaves alone. (After a bus error the OUT bytes are free values, log entry 4.)

Events: an access to the window of an engine (a register, a command), an internal step and a reset of it leave
every other engine as it was, and do to that engine and to memory what they do when it is alone, but for the OUT bytes of
a command that a bus error or a reset ended (free values, log entry 4). A poll that is not met only reads, and lets
every engine make one internal step (log entry 1, DESIGN CHOICE). -/
def Obligations.EnginesAreIndependent : Prop :=
  (∀ (s : State) (sched : List Nat) (k : Nat) (e : Engine), s.Inv → (∀ i ∈ sched, i ≤ s.peers.length) →
    s.engines[k]? = some e →
    ∀ t u : State, t = sched.foldl (fun r i => tickEngine i r) s →
      u = engineSteps (sched.count k) { s with eng := e, peers := [] } →
      t.engines[k]? = some u.eng ∧
      (e.status.busy = true → u.eng.status.err = false → ∀ x, e.ctx.inBuffers x → t.mem.read x = u.mem.read x)) ∧
  (∀ (s t : State) (k : Nat) (e : Engine) (ev : Nat → Event), s.engines[k]? = some e →
    ((∃ op, ev = (fun i => .reg i op) ∧ waits k op s = false) ∨ ev = Event.engine ∨ ev = Event.reset) →
    runEvent (ev k) s = .next t →
    t.map = s.map ∧ (∀ i, i ≠ k → t.engines[i]? = s.engines[i]?) ∧
      ∃ u, runEvent (ev 0) { s with eng := e, peers := [] } = .next u ∧ t.engines[k]? = some u.eng ∧
        ∀ x, (e.ctx.outside x ∨ e.status.busy = false ∨
            (u.eng.status.err = false ∧ (u.eng.status.busy = true ∨ u.eng.status.done = true))) →
          t.mem.read x = u.mem.read x) ∧
  (∀ (s : State) (k : Nat) (op : RegOp), waits k op s = true →
    ∃ v, runEvent (.reg k op) s = .next { engineRound { s with rdata := v } with inputs := .reg k op :: s.inputs })

/-! ## Memory -/

/-- Memory of canonical form: a write is read back, every other address reads as before, the form is kept, and
memories that read the same are the same. -/
def Obligations.MemoryWriteThenRead : Prop :=
  (∀ (m : Memory) (a : Nat) (v : Byte), m.wf → a < 2 ^ 64 →
    (m.write a v).wf ∧ (m.write a v).read a = v ∧ ∀ x, x ≠ a → (m.write a v).read x = m.read x) ∧
  (∀ m m' : Memory, m.wf → m'.wf → (∀ a, m.read a = m'.read a) → m = m')

/-- The host script's pseudo-instructions expand to the register writes that R97 lists. -/
def Obligations.ScriptExpandsToRegisterWrites : Prop :=
  (∀ K : Key, Script.encoding (Script.setkey K) =
    (List.range 8).map (fun k => (BitVec.ofNat 8 (0x10 + 4 * k), K.extractLsb' (32 * k) 32))) ∧
  (∀ N : Nonce, Script.encoding (Script.setnonce N) =
    (List.range 5).map (fun k => (BitVec.ofNat 8 (0x30 + 4 * k), N.extractLsb' (32 * k) 32))) ∧
  (∀ T : Block, Script.encoding (Script.settag T) =
    (List.range 4).map (fun k => (BitVec.ofNat 8 (0x50 + 4 * k), T.extractLsb' (32 * k) 32))) ∧
  (∀ A L : DWord, Script.encoding (Script.setbufAd A L) =
    [(0x60, A.extractLsb' 0 32), (0x64, A.extractLsb' 32 32), (0x68, L.extractLsb' 0 32), (0x6C, L.extractLsb' 32 32)]) ∧
  (∀ A L : DWord, Script.encoding (Script.setbufIn A L) =
    [(0x70, A.extractLsb' 0 32), (0x74, A.extractLsb' 32 32), (0x78, L.extractLsb' 0 32), (0x7C, L.extractLsb' 32 32)]) ∧
  (∀ A : DWord, Script.encoding (Script.setout A) = [(0x80, A.extractLsb' 0 32), (0x84, A.extractLsb' 32 32)]) ∧
  Script.encoding (Script.nop ++ Script.encrypt ++ Script.decrypt ++ Script.wait ++ Script.ack) =
    [(0x00, 0x00000000), (0x00, 0x00000001), (0x00, 0x00000002), (0x04, 0x00000002)] ∧
  Script.wait = [.reg 0 (.poll 0x04 0x00000001 0x00000000)]
end

