-- ==== Sys2Proof/Laws/Bits.lean ====
section
/-! SUPPORT. The views of `S`: what a write through one view does to every bit, and to the other views (R20). -/

namespace Sys2Proof.Machine

/-- Every bit of `S` after a write of a field. -/
theorem getLsbD_putBits (s : S512) (lo : Nat) {w : Nat} (v : BitVec w) (i : Nat) :
    (putBits s lo v).getLsbD i =
      if i < 512 ∧ lo ≤ i ∧ i < lo + w then v.getLsbD (i - lo) else s.getLsbD i := by
  unfold putBits
  by_cases h : i < 512
  · by_cases h1 : lo ≤ i
    · by_cases h2 : i < lo + w
      · have : i - lo < w := by omega
        simp [h, h1, h2, this, Nat.not_lt.mpr h1]
      · have : ¬ i - lo < w := by omega
        simp [h, h1, h2, this, BitVec.getLsbD_of_ge v (i - lo) (by omega)]
    · simp [h, h1, Nat.lt_of_not_le h1]
  · have hs : s.getLsbD i = false := BitVec.getLsbD_of_ge s i (by omega)
    simp [h, hs]

/-- A field of an XOR is the XOR of the fields. -/
theorem extract_xor {n : Nat} (u v : BitVec n) (lo w : Nat) :
    (u ^^^ v).extractLsb' lo w = u.extractLsb' lo w ^^^ v.extractLsb' lo w := by
  apply BitVec.eq_of_getLsbD_eq
  intro i hi
  simp [hi]

/-- A field read back after it is written. -/
theorem extract_putBits_same (s : S512) (lo : Nat) {w : Nat} (v : BitVec w) (h : lo + w ≤ 512) :
    (putBits s lo v).extractLsb' lo w = v := by
  apply BitVec.eq_of_getLsbD_eq
  intro i hi
  rw [BitVec.getLsbD_extractLsb', getLsbD_putBits]
  have h1 : lo + i < 512 := by omega
  simp [hi, h1]

/-- A field that lies outside the one written keeps its value. -/
theorem extract_putBits_disjoint (s : S512) (lo : Nat) {w : Nat} (v : BitVec w) (lo' w' : Nat)
    (h : lo' + w' ≤ lo ∨ lo + w ≤ lo') :
    (putBits s lo v).extractLsb' lo' w' = s.extractLsb' lo' w' := by
  apply BitVec.eq_of_getLsbD_eq
  intro i hi
  rw [BitVec.getLsbD_extractLsb', BitVec.getLsbD_extractLsb', getLsbD_putBits]
  have : ¬ (lo ≤ lo' + i ∧ lo' + i < lo + w) := by omega
  simp [this]

@[simp] theorem word32Of_setWord32_same (s : S512) (j : Nat) (v : Word) (h : j < 16) :
    word32Of (setWord32 s j v) j = v := extract_putBits_same s _ v (by omega)

theorem word32Of_setWord32 (s : S512) (i j : Nat) (v : Word) (h : j < 16) :
    word32Of (setWord32 s j v) i = if i = j then v else word32Of s i := by
  by_cases hij : i = j
  · subst hij; simp [word32Of_setWord32_same, h]
  · rw [if_neg hij]; exact extract_putBits_disjoint s _ v _ _ (by omega)

theorem word64Of_setWord64 (s : S512) (i j : Nat) (v : DWord) (h : j < 8) :
    word64Of (setWord64 s j v) i = if i = j then v else word64Of s i := by
  by_cases hij : i = j
  · subst hij; rw [if_pos rfl]; exact extract_putBits_same s _ v (by omega)
  · rw [if_neg hij]; exact extract_putBits_disjoint s _ v _ _ (by omega)

theorem byteOf_setByte (s : S512) (i j : Nat) (v : Byte) (h : j < 64) :
    byteOf (setByte s j v) i = if i = j then v else byteOf s i := by
  by_cases hij : i = j
  · subst hij; rw [if_pos rfl]; exact extract_putBits_same s _ v (by omega)
  · rw [if_neg hij]; exact extract_putBits_disjoint s _ v _ _ (by omega)

theorem laneX_setX (s : S512) (i j : Nat) (v : Word) (h : j < 8) :
    laneX (setX s j v) i = if i = j then v else laneX s i := word32Of_setWord32 s i j v (by omega)

theorem laneY_setX (s : S512) (i j : Nat) (v : Word) (h : j < 8) : laneY (setX s j v) i = laneY s i := by
  have := word32Of_setWord32 s (8 + i) j v (by omega)
  rw [if_neg (by omega)] at this; exact this

theorem laneX_setY (s : S512) (i j : Nat) (v : Word) (hi : i < 8) (h : j < 8) :
    laneX (setY s j v) i = laneX s i := by
  have := word32Of_setWord32 s i (8 + j) v (by omega)
  rw [if_neg (by omega)] at this; exact this

theorem laneY_setY (s : S512) (i j : Nat) (v : Word) (h : j < 8) :
    laneY (setY s j v) i = if i = j then v else laneY s i := by
  have := word32Of_setWord32 s (8 + i) (8 + j) v (by omega)
  simp only [Nat.add_left_cancel_iff] at this; exact this

/-- Two states with the same sixteen 32-bit words are the same. -/
theorem s512_ext32 {s t : S512} (h : ∀ j, j < 16 → word32Of s j = word32Of t j) : s = t := by
  apply BitVec.eq_of_getLsbD_eq
  intro i hi
  have := congrArg (fun v => BitVec.getLsbD v (i % 32)) (h (i / 32) (by omega))
  simp only [word32Of, BitVec.getLsbD_extractLsb', Nat.mod_lt i (by decide : 32 > 0), decide_true, Bool.true_and,
    Nat.div_add_mod] at this
  exact this

/-- Two states with the same eight 64-bit words are the same. -/
theorem s512_ext64 {s t : S512} (h : ∀ k, k < 8 → word64Of s k = word64Of t k) : s = t := by
  apply BitVec.eq_of_getLsbD_eq
  intro i hi
  have := congrArg (fun v => BitVec.getLsbD v (i % 64)) (h (i / 64) (by omega))
  simp only [word64Of, BitVec.getLsbD_extractLsb', Nat.mod_lt i (by decide : 64 > 0), decide_true, Bool.true_and,
    Nat.div_add_mod] at this
  exact this

/-- Two states with the same sixteen lanes are the same. -/
theorem s512_extLanes {s t : S512} (hx : ∀ i, i < 8 → laneX s i = laneX t i)
    (hy : ∀ i, i < 8 → laneY s i = laneY t i) : s = t := by
  apply s512_ext32
  intro j hj
  by_cases h : j < 8
  · exact hx j h
  · have := hy (j - 8) (by omega)
    simpa [laneY, Nat.add_sub_cancel' (Nat.le_of_not_lt h)] using this

/-! ## Loops over a view -/

@[simp] theorem forUpTo_zero (f : Nat → S512 → S512) (s : S512) : forUpTo 0 f s = s := rfl

theorem forUpTo_succ (n : Nat) (f : Nat → S512 → S512) (s : S512) : forUpTo (n + 1) f s = f n (forUpTo n f s) := by
  simp [forUpTo, List.range_succ]

end Sys2Proof.Machine
end

