-- ==== Sys2Proof/Laws/Permutation.lean ====
section
/-! SUPPORT. What the rounds, the update and the initialization do to every lane and every word
(spec/40_permutation_duplex.md). -/

namespace Sys2Proof.Machine

/-! ## Lane loops -/

theorem lanes_forUpTo_setX (f : Nat → Word → Word → Word) (s : S512) (n : Nat) (hn : n ≤ 8) :
    (∀ j, laneX (forUpTo n (fun i t => setX t i (f i (laneX t i) (laneY t i))) s) j =
      if j < n then f j (laneX s j) (laneY s j) else laneX s j) ∧
    (∀ j, laneY (forUpTo n (fun i t => setX t i (f i (laneX t i) (laneY t i))) s) j = laneY s j) := by
  induction n with
  | zero => simp
  | succ n ih =>
    obtain ⟨hx, hy⟩ := ih (by omega)
    refine ⟨fun j => ?_, fun j => ?_⟩
    · rw [forUpTo_succ, laneX_setX _ _ _ _ (by omega), hx, hy, hx]
      by_cases h : j = n
      · subst h; simp
      · by_cases h2 : j < n
        · simp [h, h2, Nat.lt_succ_of_lt h2]
        · have : ¬ j < n + 1 := by omega
          simp [h, h2, this]
    · rw [forUpTo_succ, laneY_setX _ _ _ _ (by omega), hy]

theorem lanes_forUpTo_setY (f : Nat → Word → Word → Word) (s : S512) (n : Nat) (hn : n ≤ 8) :
    (∀ j, j < 8 → laneX (forUpTo n (fun i t => setY t i (f i (laneX t i) (laneY t i))) s) j = laneX s j) ∧
    (∀ j, laneY (forUpTo n (fun i t => setY t i (f i (laneX t i) (laneY t i))) s) j =
      if j < n then f j (laneX s j) (laneY s j) else laneY s j) := by
  induction n with
  | zero => simp
  | succ n ih =>
    obtain ⟨hx, hy⟩ := ih (by omega)
    refine ⟨fun j hj => ?_, fun j => ?_⟩
    · rw [forUpTo_succ, laneX_setY _ _ _ _ hj (by omega), hx j hj]
    · rw [forUpTo_succ, laneY_setY _ _ _ _ (by omega), hy, hx n (by omega), hy]
      by_cases h : j = n
      · subst h; simp
      · by_cases h2 : j < n
        · simp [h, h2, Nat.lt_succ_of_lt h2]
        · have : ¬ j < n + 1 := by omega
          simp [h, h2, this]

/-! ## One round (R111, R112) -/

theorem roundStep1_lanes (r1 : Nat) (s : S512) (i : Nat) (hi : i < 8) :
    laneX (roundStep1 r1 s) i = laneX s i + rotr32 (laneY s i) r1 ∧ laneY (roundStep1 r1 s) i = laneY s i := by
  have h := lanes_forUpTo_setX (fun _ x y => x + rotr32 y r1) s 8 (by omega)
  exact ⟨(h.1 i).trans (if_pos hi), h.2 i⟩

theorem roundStep2_lanes (r2 : Nat) (s : S512) (i : Nat) (hi : i < 8) :
    laneX (roundStep2 r2 s) i = laneX s i ∧ laneY (roundStep2 r2 s) i = laneY s i + rotr32 (laneX s i) r2 := by
  have h := lanes_forUpTo_setY (fun _ x y => y + rotr32 x r2) s 8 (by omega)
  exact ⟨h.1 i hi, (h.2 i).trans (if_pos hi)⟩

theorem roundStep3_lanes (s : S512) (i : Nat) (hi : i < 8) :
    laneX (roundStep3 s) i = laneX s i ^^^ roundConstants.getD i 0 ∧ laneY (roundStep3 s) i = laneY s i := by
  have h := lanes_forUpTo_setX (fun i x _ => x ^^^ roundConstants.getD i 0) s 8 (by omega)
  exact ⟨(h.1 i).trans (if_pos hi), h.2 i⟩

/-! ## The update (R116) -/

theorem word64Of_feedbackLoop (snap s : S512) (n : Nat) (hn : n ≤ 8) (k : Nat) :
    word64Of (forUpTo n (fun i t => setWord64 t i (word64Of t i ^^^ word64Of snap ((i + 7) % 8))) s) k =
      if k < n then word64Of s k ^^^ word64Of snap ((k + 7) % 8) else word64Of s k := by
  induction n with
  | zero => simp
  | succ n ih =>
    rw [forUpTo_succ, word64Of_setWord64 _ _ _ _ (by omega), ih (by omega)]
    by_cases h : k = n
    · subst h; rw [if_pos rfl, if_pos (Nat.lt_succ_self k), ih (by omega)]; simp
    · by_cases h2 : k < n
      · simp [h, h2, Nat.lt_succ_of_lt h2]
      · have : ¬ k < n + 1 := by omega
        simp [h, h2, this]

theorem word64Of_feedback (snap s : S512) (k : Nat) (hk : k < 8) :
    word64Of (feedback snap s) k = word64Of s k ^^^ word64Of snap ((k + 7) % 8) :=
  (word64Of_feedbackLoop snap s 8 (by omega) k).trans (if_pos hk)

theorem word64Of_inject (d1 d2 : DWord) (s : S512) (k : Nat) :
    word64Of (inject d1 d2 s) k =
      word64Of s k ^^^ (if k = 0 then d1 else if k = 4 then d2 else 0) := by
  unfold inject
  simp only [word64Of_setWord64 _ _ _ _ (by decide : 4 < 8), word64Of_setWord64 _ _ _ _ (by decide : 0 < 8)]
  by_cases h4 : k = 4
  · subst h4; simp
  · by_cases h0 : k = 0
    · subst h0; simp
    · simp [h0, h4]

/-- Two injections are one injection of the XORs. -/
theorem inject_inject (a b c d : DWord) (s : S512) : inject a b (inject c d s) = inject (c ^^^ a) (d ^^^ b) s := by
  apply s512_ext64
  intro k hk
  simp only [word64Of_inject, BitVec.xor_assoc]
  congr 1
  by_cases h0 : k = 0
  · simp [h0]
  · by_cases h4 : k = 4
    · simp [h4]
    · simp [h0, h4]

theorem inject_zero (s : S512) : inject 0 0 s = s := by
  apply s512_ext64
  intro k hk
  rw [word64Of_inject]
  by_cases h0 : k = 0 <;> by_cases h4 : k = 4 <;> simp [h0, h4]

/-- The data goes in last: an injection after an update changes only the data of the update (R116, P1). -/
theorem inject_update (a b d1 d2 : DWord) (s : S512) :
    inject a b (update d1 d2 s) = update (d1 ^^^ a) (d2 ^^^ b) s := inject_inject a b d1 d2 _

end Sys2Proof.Machine
end

