-- ==== Sys2Proof/Laws/Block.lean ====
section
/-! SUPPORT. Blocks, padding, masking and the rollback (spec/41_block_mac.md). -/

namespace Sys2Proof.Machine

/-! ## Bytes and blocks -/

@[simp] theorem blockBytes_length (blk : Block) : (blockBytes blk).length = 16 := by simp [blockBytes]

theorem blockBytes_getElem (blk : Block) (j : Nat) (h : j < (blockBytes blk).length) :
    (blockBytes blk)[j] = blk.extractLsb' (8 * j) 8 := by simp [blockBytes]

/-- Every bit of the block made of a list of bytes. -/
theorem getLsbD_blockOfBytes (l : List Byte) (i : Nat) :
    (blockOfBytes l).getLsbD i = (decide (i < 128) && (l.getD (i / 8) 0).getLsbD (i % 8)) := by
  induction l generalizing i with
  | nil => simp [blockOfBytes]
  | cons b l ih =>
    have hc : blockOfBytes (b :: l) = (blockOfBytes l <<< 8) ||| b.setWidth 128 := rfl
    rw [hc, BitVec.getLsbD_or, BitVec.getLsbD_shiftLeft, BitVec.getLsbD_setWidth]
    by_cases h8 : i < 8
    · have h128 : i < 128 := by omega
      simp [h8, h128, Nat.div_eq_of_lt h8, Nat.mod_eq_of_lt h8]
    · have hb : b.getLsbD i = false := BitVec.getLsbD_of_ge b i (by omega)
      have hd : i / 8 = (i - 8) / 8 + 1 := by omega
      have hm : i % 8 = (i - 8) % 8 := by omega
      rw [ih, hb, hd, hm]
      by_cases h128 : i < 128
      · have : i - 8 < 128 := by omega
        simp [h8, h128, this]
      · simp [h128]

theorem byte_blockOfBytes (l : List Byte) (j : Nat) (hj : j < 16) :
    (blockOfBytes l).extractLsb' (8 * j) 8 = l.getD j 0 := by
  apply BitVec.eq_of_getLsbD_eq
  intro i hi
  rw [BitVec.getLsbD_extractLsb', getLsbD_blockOfBytes]
  have h1 : (8 * j + i) / 8 = j := by omega
  have h2 : (8 * j + i) % 8 = i := by omega
  have h3 : 8 * j + i < 128 := by omega
  simp [hi, h1, h2, h3]

/-- Two blocks with the same bytes are the same. -/
theorem block_ext {p q : Block} (h : ∀ j, j < 16 → p.extractLsb' (8 * j) 8 = q.extractLsb' (8 * j) 8) : p = q := by
  apply BitVec.eq_of_getLsbD_eq
  intro i hi
  have := congrArg (fun v => BitVec.getLsbD v (i % 8)) (h (i / 8) (by omega))
  simpa [BitVec.getLsbD_extractLsb', Nat.mod_lt i (by decide : 8 > 0), Nat.div_add_mod] using this

/-- A padded segment: its own bytes, then zeros (R143). -/
theorem byte_pad (seg : List Byte) (j : Nat) (hj : j < 16) : (pad seg).extractLsb' (8 * j) 8 = seg.getD j 0 := by
  rw [pad, byte_blockOfBytes _ _ hj]
  simp only [List.getD_eq_getElem?_getD]
  by_cases h : j < seg.length
  · rw [List.getElem?_append_left h]
  · rw [List.getElem?_append_right (by omega), List.getElem?_eq_none (by omega : seg.length ≤ j)]
    rw [List.getElem?_replicate]
    split <;> rfl

/-- The sixteen bytes of a block padded again give the block. -/
theorem pad_blockBytes (blk : Block) : pad (blockBytes blk) = blk := by
  apply block_ext
  intro j hj
  rw [byte_pad _ _ hj]
  simp [blockBytes, hj]

/-! ## Masking -/

theorem mask_mask (s : S512) (p : Block) : mask s (mask s p) = p := by
  have : ∀ a b c : Block, a ^^^ b ^^^ c ^^^ b ^^^ c = a := by
    intro a b c
    rw [BitVec.xor_assoc a b c, BitVec.xor_assoc, BitVec.xor_assoc a, ← BitVec.xor_assoc, BitVec.xor_assoc a,
      BitVec.xor_self, BitVec.xor_zero]
  exact this _ _ _

theorem decBlock_encBlock (s : S512) (p : Block) : decBlock s (encBlock s p).2 = ((encBlock s p).1, p) := by
  simp [decBlock, encBlock, mask_mask]

/-! ## The rollback (R148) -/

theorem byte_paddingOf (p : Block) (r j : Nat) (hj : j < 16) :
    (paddingOf p r).extractLsb' (8 * j) 8 = if j < r then 0 else p.extractLsb' (8 * j) 8 := by
  apply BitVec.eq_of_getLsbD_eq
  intro i hi
  have h128 : 8 * j + i < 128 := by omega
  rw [BitVec.getLsbD_extractLsb', paddingOf, BitVec.getLsbD_and, BitVec.getLsbD_shiftLeft]
  by_cases h : j < r
  · have : 8 * j + i < 8 * r := by omega
    simp [h, this]
  · have : ¬ 8 * j + i < 8 * r := by omega
    have h2 : 8 * j + i - 8 * r < 128 := by omega
    simp [h, this, h128, hi, BitVec.getLsbD_allOnes, h2, -BitVec.getLsbD_eq_getElem, -BitVec.reduceAllOnes]

/-- Absorbing `p` and injecting `t` is absorbing `p ^ t`: this is what makes the rollback exact (R150, P1). -/
theorem inject_absorb (p t : Block) (s : S512) :
    inject (t.extractLsb' 0 64) (t.extractLsb' 64 64) (absorb p s) = absorb (p ^^^ t) s := by
  unfold absorb
  rw [inject_update]
  congr 1 <;> (apply BitVec.eq_of_getLsbD_eq; intro i hi; simp [hi])

/-- DecBlock of a cut-off ciphertext block and its rollback leave the state that EncBlock of the padded plaintext
leaves, and the valid bytes of the plaintext (R150). -/
theorem decPayloadBlock_encBlock (s : S512) (seg : List Byte) (h : seg.length ≤ 16) :
    decPayloadBlock s ((blockBytes (encBlock s (pad seg)).2).take seg.length) =
      ((encBlock s (pad seg)).1, mask s (pad ((blockBytes (encBlock s (pad seg)).2).take seg.length))) := by
  have hlen : ((blockBytes (encBlock s (pad seg)).2).take seg.length).length = seg.length := by simp [h]
  unfold decPayloadBlock
  simp only [hlen, decBlock]
  by_cases h16 : seg.length < 16
  · rw [if_pos h16]
    refine Prod.ext ?_ rfl
    simp only [rollback, inject_absorb, encBlock]
    congr 1
    apply block_ext
    intro j hj
    rw [extract_xor, byte_paddingOf _ _ _ hj]
    by_cases hr : j < seg.length
    · rw [if_pos hr, show ∀ u : Byte, u ^^^ 0 = u from fun u => BitVec.xor_zero]
      simp only [mask, extract_xor, byte_pad _ _ hj, List.getD_eq_getElem?_getD, List.getElem?_take, hr, if_true,
        blockBytes, List.getElem?_map, List.getElem?_range hj, Option.map_some, Option.getD_some]
      generalize s.extractLsb' 128 128 = a
      generalize s.extractLsb' 384 128 = b
      generalize BitVec.extractLsb' (8 * j) 8 a = a'
      generalize BitVec.extractLsb' (8 * j) 8 b = b'
      rw [BitVec.xor_assoc, BitVec.xor_assoc _ a' b', BitVec.xor_assoc, BitVec.xor_self, BitVec.xor_zero]
    · rw [if_neg hr, BitVec.xor_self, byte_pad _ _ hj]
      simp [List.getD_eq_getElem?_getD, List.getElem?_eq_none (Nat.le_of_not_lt hr)]
  · have h16' : seg.length = 16 := by omega
    rw [if_neg h16]
    have ht : (blockBytes (encBlock s (pad seg)).2).take seg.length = blockBytes (encBlock s (pad seg)).2 :=
      List.take_of_length_le (by simp [h16'])
    rw [ht, pad_blockBytes]
    simp [encBlock, mask_mask]

/-- The valid bytes that DecBlock recovers from a cut-off ciphertext block are the plaintext's (R150). -/
theorem take_decrypted (s : S512) (seg : List Byte) (h : seg.length ≤ 16) :
    (blockBytes (mask s (pad ((blockBytes (mask s (pad seg))).take seg.length)))).take seg.length = seg := by
  apply List.ext_getElem
  · simp [h]
  · intro j h1 h2
    have hj : j < 16 := by omega
    rw [List.getElem_take, blockBytes_getElem]
    simp only [mask, extract_xor, byte_pad _ _ hj, List.getD_eq_getElem?_getD, List.getElem?_take, h2, if_true,
        blockBytes, List.getElem?_map, List.getElem?_range hj, Option.map_some, Option.getD_some,
        List.getElem?_eq_getElem h2]
    generalize s.extractLsb' 128 128 = a
    generalize s.extractLsb' 384 128 = b
    generalize BitVec.extractLsb' (8 * j) 8 a = a'
    generalize BitVec.extractLsb' (8 * j) 8 b = b'
    rw [BitVec.xor_assoc, BitVec.xor_assoc _ a' b', BitVec.xor_assoc, BitVec.xor_self, BitVec.xor_zero]

/-! ## Segments (R144) -/

theorem segment_length (bytes : List Byte) (b : Nat) : (segment bytes b).length = min 16 (bytes.length - 16 * b) := by
  simp [segment]

theorem segment_length_le (bytes : List Byte) (b : Nat) : (segment bytes b).length ≤ 16 := by
  rw [segment_length]; omega

/-- A block before the last is full. -/
theorem segment_length_full (bytes : List Byte) (b : Nat) (h : b + 1 < blockCount bytes.length) :
    (segment bytes b).length = 16 := by
  rw [segment_length]; unfold blockCount at h; omega

end Sys2Proof.Machine
end

