-- ==== Sys2Proof/Laws/Aead.lean ====
section
/-! SUPPORT. The payload loops of R147 and R149, block by block. -/

namespace Sys2Proof.Machine

/-- The first `q` blocks of `EncryptPayload`. -/
def encryptLoop (s : S512) (M : List Byte) (q : Nat) : S512 × List Byte :=
  (List.range q).foldl (encryptStep M) (s, [])

/-- The first `q` blocks of `DecryptPayload`. -/
def decryptLoop (s : S512) (C : List Byte) (q : Nat) : S512 × List Byte :=
  (List.range q).foldl (decryptStep C) (s, [])

/-- The first `q` blocks of `AbsorbAD`. -/
def absorbLoop (s : S512) (ad : List Byte) (q : Nat) : S512 :=
  (List.range q).foldl (fun t b => (encBlock t (pad (segment ad b))).1) s

@[simp] theorem encryptLoop_zero (s : S512) (M : List Byte) : encryptLoop s M 0 = (s, []) := rfl
@[simp] theorem decryptLoop_zero (s : S512) (C : List Byte) : decryptLoop s C 0 = (s, []) := rfl
@[simp] theorem absorbLoop_zero (s : S512) (ad : List Byte) : absorbLoop s ad 0 = s := rfl

theorem encryptLoop_succ (s : S512) (M : List Byte) (q : Nat) :
    encryptLoop s M (q + 1) = encryptStep M (encryptLoop s M q) q := by simp [encryptLoop, List.range_succ]

theorem decryptLoop_succ (s : S512) (C : List Byte) (q : Nat) :
    decryptLoop s C (q + 1) = decryptStep C (decryptLoop s C q) q := by simp [decryptLoop, List.range_succ]

theorem absorbLoop_succ (s : S512) (ad : List Byte) (q : Nat) :
    absorbLoop s ad (q + 1) = (encBlock (absorbLoop s ad q) (pad (segment ad q))).1 := by
  simp [absorbLoop, List.range_succ]

/-- The number of output bytes after `q` blocks. -/
theorem encryptLoop_length (s : S512) (M : List Byte) (q : Nat) :
    (encryptLoop s M q).2.length = min (16 * q) M.length := by
  induction q with
  | zero => simp
  | succ q ih =>
    rw [encryptLoop_succ]
    simp only [encryptStep, List.length_append, List.length_take, blockBytes_length, ih, segment_length]
    omega

theorem decryptLoop_length (s : S512) (C : List Byte) (q : Nat) :
    (decryptLoop s C q).2.length = min (16 * q) C.length := by
  induction q with
  | zero => simp
  | succ q ih =>
    rw [decryptLoop_succ]
    simp only [decryptStep, List.length_append, List.length_take, blockBytes_length, ih, segment_length]
    omega

/-- Block `b` of the output, once it is there, stays. -/
theorem encryptLoop_prefix (s : S512) (M : List Byte) (b q : Nat) (h : b ≤ q) :
    (encryptLoop s M b).2 <+: (encryptLoop s M q).2 := by
  induction q with
  | zero => simp [Nat.le_zero.mp h]
  | succ q ih =>
    by_cases hb : b = q + 1
    · subst hb; exact List.prefix_refl _
    · rw [encryptLoop_succ]
      exact (ih (by omega)).trans (List.prefix_append _ _)

/-- The block that has output number `b` in the ciphertext (R147). -/
theorem segment_encryptLoop (s : S512) (M : List Byte) (b q : Nat) (h : b < q) :
    segment (encryptLoop s M q).2 b =
      (blockBytes (mask (encryptLoop s M b).1 (pad (segment M b)))).take (segment M b).length := by
  obtain ⟨rest, hr⟩ := encryptLoop_prefix s M (b + 1) q h
  have hlen := encryptLoop_length s M b
  by_cases hM : 16 * b ≤ M.length
  · rw [Nat.min_eq_left hM] at hlen
    have hseg := segment_length M b
    rw [← hr, encryptLoop_succ]
    simp only [encryptStep, encBlock, segment]
    rw [List.append_assoc, List.drop_append_of_le_length (by omega), List.drop_of_length_le (by omega),
      List.nil_append]
    by_cases hfull : M.length - 16 * b ≥ 16
    · have h16 : ((M.drop (16 * b)).take 16).length = 16 := by simp; omega
      rw [List.take_append_of_le_length (by simp [h16])]
      rw [List.take_of_length_le (by simp [h16])]
    · have hq := encryptLoop_length s M q
      have hrest : rest = [] := by
        have h1 := congrArg List.length hr
        rw [List.length_append, encryptLoop_length, hq] at h1
        exact List.eq_nil_of_length_eq_zero (by omega)
      subst hrest
      rw [List.append_nil, List.take_of_length_le (by simp)]
  · have h0 : segment M b = [] := List.eq_nil_of_length_eq_zero (by rw [segment_length]; omega)
    rw [h0]
    exact List.eq_nil_of_length_eq_zero (by rw [segment_length, encryptLoop_length]; simp; omega)

/-- The first blocks of a byte sequence, put together again. -/
theorem take_succ_segment (M : List Byte) (q : Nat) : M.take (16 * (q + 1)) = M.take (16 * q) ++ segment M q := by
  rw [Nat.mul_succ, List.take_add]; rfl

end Sys2Proof.Machine
end

