-- ==== Sys2Proof/Laws/Checks.lean ====
section
/-! SUPPORT. The checks on the buffers said in terms of addresses (spec/42_commands.md R175, R176, spec/60_exceptions.md
R213, spec/70_reset_and_hazards.md R236), and what acceptance captures, field by field. -/

namespace Sys2Proof.Machine

@[simp] theorem Engine.capture_op (e : Engine) (op : Op) : (e.capture op).op = op := rfl
@[simp] theorem Engine.capture_K (e : Engine) (op : Op) : (e.capture op).K = e.keyBytes := rfl
@[simp] theorem Engine.capture_N (e : Engine) (op : Op) : (e.capture op).N = e.nonceBytes := rfl
@[simp] theorem Engine.capture_T (e : Engine) (op : Op) : (e.capture op).T = e.tagBytes := rfl
@[simp] theorem Engine.capture_A (e : Engine) (op : Op) : (e.capture op).A = e.adAddr := rfl
@[simp] theorem Engine.capture_a (e : Engine) (op : Op) : (e.capture op).a = e.adLen := rfl
@[simp] theorem Engine.capture_I (e : Engine) (op : Op) : (e.capture op).I = e.inAddr := rfl
@[simp] theorem Engine.capture_n (e : Engine) (op : Op) : (e.capture op).n = e.inLen := rfl
@[simp] theorem Engine.capture_O (e : Engine) (op : Op) : (e.capture op).O = e.outAddr := rfl

/-- Two buffers overlap when some address lies in both (R176). -/
theorem overlaps_iff (a l b m : Nat) :
    overlaps a l b m = true ↔ ∃ x, a ≤ x ∧ x < a + l ∧ b ≤ x ∧ x < b + m := by
  simp only [overlaps, Bool.and_eq_true, decide_eq_true_eq]
  constructor
  · intro h; exact ⟨max a b, by omega⟩
  · rintro ⟨x, h⟩; omega

theorem Ctx.rangeBad_iff (c : Ctx) : c.rangeBad = true ↔
    2 ^ 64 < c.A.toNat + c.a.toNat ∨ 2 ^ 64 < c.I.toNat + c.n.toNat ∨ 2 ^ 64 < c.O.toNat + c.n.toNat := by
  simp only [Ctx.rangeBad, Bool.or_eq_true, decide_eq_true_eq, or_assoc]

theorem Ctx.rangeBad_false_iff (c : Ctx) : c.rangeBad = false ↔
    c.A.toNat + c.a.toNat ≤ 2 ^ 64 ∧ c.I.toNat + c.n.toNat ≤ 2 ^ 64 ∧ c.O.toNat + c.n.toNat ≤ 2 ^ 64 := by
  rw [← Bool.not_eq_true, Ctx.rangeBad_iff]; simp only [not_or, Nat.not_lt]

theorem Ctx.overlapBad_iff (c : Ctx) : c.overlapBad = true ↔
    (∃ x, c.O.toNat ≤ x ∧ x < c.O.toNat + c.n.toNat ∧ c.A.toNat ≤ x ∧ x < c.A.toNat + c.a.toNat) ∨
    ((∃ x, c.O.toNat ≤ x ∧ x < c.O.toNat + c.n.toNat ∧ c.I.toNat ≤ x ∧ x < c.I.toNat + c.n.toNat) ∧ c.O ≠ c.I) := by
  simp only [Ctx.overlapBad, Bool.or_eq_true, Bool.and_eq_true, overlaps_iff, bne_iff_ne]

theorem Ctx.touches_iff (c : Ctx) (s l : Nat) : c.touches s l = true ↔
    (∃ x, s ≤ x ∧ x < s + l ∧ c.A.toNat ≤ x ∧ x < c.A.toNat + c.a.toNat) ∨
    (∃ x, s ≤ x ∧ x < s + l ∧ c.I.toNat ≤ x ∧ x < c.I.toNat + c.n.toNat) ∨
    ∃ x, s ≤ x ∧ x < s + l ∧ c.O.toNat ≤ x ∧ x < c.O.toNat + c.n.toNat := by
  simp only [Ctx.touches, Bool.or_eq_true, overlaps_iff, or_assoc]

theorem Ctx.outHit_iff (c : Ctx) (s l : Nat) : c.outHit s l = true ↔
    ∃ x, s ≤ x ∧ x < s + l ∧ c.O.toNat ≤ x ∧ x < c.O.toNat + c.n.toNat := overlaps_iff _ _ _ _

/-- A conflict with some command that runs on another engine (R213). -/
theorem peerConflict_iff (c : Ctx) (peers : List Engine) : peerConflict c peers = true ↔
    ∃ p ∈ peers, p.status.busy = true ∧
      (c.touches p.ctx.O.toNat p.ctx.n.toNat = true ∨ p.ctx.touches c.O.toNat c.n.toNat = true) := by
  simp only [peerConflict, List.any_eq_true, Bool.and_eq_true, Ctx.conflicts, Bool.or_eq_true]

/-- A field of a concatenation that lies in its low part. -/
theorem extract_append_low {n m : Nat} (x : BitVec n) (y : BitVec m) (i w : Nat) (h : i + w ≤ m) :
    (x ++ y).extractLsb' i w = y.extractLsb' i w := by
  apply BitVec.eq_of_getLsbD_eq
  intro k hk
  simp [BitVec.getLsbD_append, hk]; intro h; omega

/-- A field of a concatenation that lies in its high part. -/
theorem extract_append_high {n m : Nat} (x : BitVec n) (y : BitVec m) (i w : Nat) (h : m ≤ i) :
    (x ++ y).extractLsb' i w = x.extractLsb' (i - m) w := by
  apply BitVec.eq_of_getLsbD_eq
  intro k hk
  simp [BitVec.getLsbD_append, hk, show ¬ (i + k < m) by omega, show i - m + k = i + k - m by omega]

/-- A field of a field. -/
theorem extract_extract {n : Nat} (x : BitVec n) (a b c d : Nat) (h : b + d ≤ c) :
    (x.extractLsb' a c).extractLsb' b d = x.extractLsb' (a + b) d := by
  apply BitVec.eq_of_getLsbD_eq
  intro k hk
  simp [hk, Nat.add_assoc]; intro; omega

/-- The decoder's OP values, both ways (R91). -/
theorem opInstr_eq_some (op : BitVec 4) (i : Instr) : opInstr op = some i ↔ op = instrOp i := by
  revert op; cases i <;> decide

theorem opInstr_eq_none (op : BitVec 4) : opInstr op = none ↔ 3 ≤ op.toNat := by revert op; decide

end Sys2Proof.Machine
end

