-- ==== Sys2Proof/Laws/Memory.lean ====
section
/-! SUPPORT. Memory and the memory port: read after write, the canonical form, and what a run of accesses does. -/

namespace Sys2Proof.Machine

/-! ## One byte -/

@[simp] theorem Memory.read_nil (a : Nat) : Memory.read [] a = unlistedByte := rfl

theorem Memory.read_cons (b : Nat) (v : Byte) (rest : Memory) (a : Nat) :
    Memory.read ((b, v) :: rest) a = if a = b then v else Memory.read rest a := rfl

/-- A write leaves every other address alone, in any memory. -/
theorem Memory.read_write_other (m : Memory) (a : Nat) (v : Byte) (a' : Nat) (h : a' ≠ a) :
    (m.write a v).read a' = m.read a' := by
  induction m with
  | nil => by_cases hv : v = unlistedByte <;> simp [Memory.write, hv, Memory.read_cons, h]
  | cons c rest ih =>
    obtain ⟨b, w⟩ := c
    unfold Memory.write
    by_cases h1 : a < b
    · by_cases hv : v = unlistedByte
      · simp [h1, hv]
      · simp [h1, hv, Memory.read_cons, h]
    · by_cases h2 : a = b
      · subst h2
        by_cases hv : v = unlistedByte <;> simp [hv, Memory.read_cons, h]
      · simp [h1, h2, Memory.read_cons, ih]

/-- An address below every listed one is not listed. -/
theorem Memory.read_below (m : Memory) (a : Nat) (h : ∀ c ∈ m, a < c.1) : m.read a = unlistedByte := by
  induction m with
  | nil => rfl
  | cons c rest ih =>
    obtain ⟨b, w⟩ := c
    have hb : a < b := h (b, w) (by simp)
    rw [Memory.read_cons, if_neg (by omega)]
    exact ih (fun c hc => h c (by simp [hc]))

/-- A write is read back, in a memory of canonical form. -/
theorem Memory.read_write_same (m : Memory) (a : Nat) (v : Byte) (hm : m.wf) : (m.write a v).read a = v := by
  induction m with
  | nil => by_cases hv : v = unlistedByte <;> simp [Memory.write, hv, Memory.read_cons]
  | cons c rest ih =>
    obtain ⟨b, w⟩ := c
    obtain ⟨hp, hc⟩ := hm
    rw [List.pairwise_cons] at hp
    have hrest : Memory.wf rest := ⟨hp.2, fun c h => hc c (by simp [h])⟩
    unfold Memory.write
    by_cases h1 : a < b
    · by_cases hv : v = unlistedByte
      · simp only [h1, hv, if_true]
        apply Memory.read_below
        intro c hcm
        rcases List.mem_cons.mp hcm with h | h
        · subst h; exact h1
        · exact Nat.lt_trans h1 (hp.1 c h)
      · simp [h1, hv, Memory.read_cons]
    · by_cases h2 : a = b
      · subst h2
        by_cases hv : v = unlistedByte
        · simp only [hv, if_true, Nat.lt_irrefl, if_false]
          exact Memory.read_below _ _ hp.1
        · simp [hv, Memory.read_cons]
      · simp [h1, h2, Memory.read_cons, ih hrest]

/-- Every entry after a write was there or is the one written. -/
theorem Memory.mem_write (m : Memory) (a : Nat) (v : Byte) (c : Host.Cell) (h : c ∈ m.write a v) :
    c ∈ m ∨ (c = (a, v) ∧ v ≠ unlistedByte) := by
  induction m with
  | nil =>
    unfold Memory.write at h
    by_cases hv : v = unlistedByte
    · simp [hv] at h
    · simp [hv] at h; exact Or.inr ⟨h, hv⟩
  | cons d rest ih =>
    obtain ⟨b, w⟩ := d
    unfold Memory.write at h
    by_cases h1 : a < b
    · by_cases hv : v = unlistedByte
      · simp only [h1, hv, if_true] at h; exact Or.inl h
      · simp only [h1, hv, if_true, if_false] at h
        rcases List.mem_cons.mp h with h | h
        · exact Or.inr ⟨h, hv⟩
        · exact Or.inl h
    · by_cases h2 : a = b
      · subst h2
        by_cases hv : v = unlistedByte
        · simp only [hv, if_true, Nat.lt_irrefl, if_false] at h; exact Or.inl (List.mem_cons_of_mem _ h)
        · simp only [hv, if_true, Nat.lt_irrefl, if_false] at h
          rcases List.mem_cons.mp h with h | h
          · exact Or.inr ⟨h, hv⟩
          · exact Or.inl (List.mem_cons_of_mem _ h)
      · simp only [h1, h2, if_false] at h
        rcases List.mem_cons.mp h with h | h
        · exact Or.inl (by rw [h]; exact List.mem_cons_self)
        · rcases ih h with h | h
          · exact Or.inl (List.mem_cons_of_mem _ h)
          · exact Or.inr h

/-- A write keeps the canonical form. -/
theorem Memory.wf_write (m : Memory) (a : Nat) (v : Byte) (hm : m.wf) (ha : a < memorySize) : (m.write a v).wf := by
  refine ⟨?_, fun c hc => ?_⟩
  · obtain ⟨hp, -⟩ := hm
    induction m with
    | nil => unfold Memory.write; by_cases hv : v = unlistedByte <;> simp [hv]
    | cons d rest ih =>
      obtain ⟨b, w⟩ := d
      have hp0 := hp
      rw [List.pairwise_cons] at hp
      unfold Memory.write
      by_cases h1 : a < b
      · by_cases hv : v = unlistedByte
        · simpa [h1, hv] using hp0
        · simp only [h1, hv, if_true, if_false]
          refine List.pairwise_cons.mpr ⟨fun c hc => ?_, hp0⟩
          rcases List.mem_cons.mp hc with h | h
          · subst h; exact h1
          · exact Nat.lt_trans h1 (hp.1 c h)
      · by_cases h2 : a = b
        · subst h2
          by_cases hv : v = unlistedByte
          · simpa [hv] using hp.2
          · simp only [hv, Nat.lt_irrefl, if_true, if_false]
            exact List.pairwise_cons.mpr ⟨hp.1, hp.2⟩
        · simp only [h1, h2, if_false]
          refine List.pairwise_cons.mpr ⟨fun c hc => ?_, ih hp.2⟩
          rcases Memory.mem_write _ _ _ _ hc with h | h
          · exact hp.1 c h
          · rw [h.1]; show b < a; omega
  · rcases Memory.mem_write _ _ _ _ hc with h | h
    · exact hm.2 c h
    · rw [h.1]; exact ⟨h.2, ha⟩

/-- Memories of canonical form that read the same are the same. -/
theorem Memory.ext_read (m m' : Memory) (hm : m.wf) (hm' : m'.wf) (h : ∀ a, m.read a = m'.read a) : m = m' := by
  induction m generalizing m' with
  | nil =>
    cases m' with
    | nil => rfl
    | cons c rest =>
      have := h c.1
      rw [Memory.read_nil, show (c :: rest : Memory) = (c.1, c.2) :: rest from rfl, Memory.read_cons, if_pos rfl] at this
      exact absurd this.symm (hm'.2 c (by simp)).1
  | cons c rest ih =>
    cases m' with
    | nil =>
      have := h c.1
      rw [Memory.read_nil, show (c :: rest : Memory) = (c.1, c.2) :: rest from rfl, Memory.read_cons, if_pos rfl] at this
      exact absurd this (hm.2 c (by simp)).1
    | cons d rest' =>
      obtain ⟨b, v⟩ := c
      obtain ⟨b', v'⟩ := d
      have hp := List.pairwise_cons.mp hm.1
      have hp' := List.pairwise_cons.mp hm'.1
      have hb : b = b' := by
        rcases Nat.lt_trichotomy b b' with hlt | heq | hgt
        · have := h b
          rw [Memory.read_cons, if_pos rfl, Memory.read_cons, if_neg (by omega),
            Memory.read_below _ _ (fun c hc => Nat.lt_trans hlt (hp'.1 c hc))] at this
          exact absurd this (hm.2 (b, v) (by simp)).1
        · exact heq
        · have := h b'
          rw [Memory.read_cons, if_neg (by omega), Memory.read_cons, if_pos rfl,
            Memory.read_below _ _ (fun c hc => Nat.lt_trans hgt (hp.1 c hc))] at this
          exact absurd this.symm (hm'.2 (b', v') (by simp)).1
      subst hb
      have hv : v = v' := by
        have := h b
        rwa [Memory.read_cons, if_pos rfl, Memory.read_cons, if_pos rfl] at this
      subst hv
      congr 1
      apply ih rest' ⟨hp.2, fun c hc => hm.2 c (by simp [hc])⟩ ⟨hp'.2, fun c hc => hm'.2 c (by simp [hc])⟩
      intro a
      by_cases ha : a = b
      · rw [ha, Memory.read_below _ _ hp.1, Memory.read_below _ _ hp'.1]
      · have := h a
        rwa [Memory.read_cons, if_neg ha, Memory.read_cons, if_neg ha] at this

/-! ## Runs of bytes -/

@[simp] theorem Memory.writeAll_nil (m : Memory) (a : Nat) : m.writeAll a [] = m := rfl

theorem Memory.writeAll_append (m : Memory) (a : Nat) (l l' : List Byte) :
    m.writeAll a (l ++ l') = (m.writeAll a l).writeAll (a + l.length) l' := by
  induction l generalizing m a with
  | nil => rfl
  | cons v l ih =>
    simp only [List.cons_append, Memory.writeAll, ih, List.length_cons]
    rw [Nat.add_assoc, Nat.add_comm 1]

theorem Memory.wf_writeAll (m : Memory) (a : Nat) (l : List Byte) (hm : m.wf) (ha : a + l.length ≤ memorySize) :
    (m.writeAll a l).wf := by
  induction l generalizing m a with
  | nil => exact hm
  | cons v l ih =>
    simp only [List.length_cons] at ha
    exact ih (m.write a v) (a + 1) (Memory.wf_write m a v hm (by omega)) (by omega)

theorem Memory.read_writeAll_other (m : Memory) (a : Nat) (l : List Byte) (x : Nat)
    (h : x < a ∨ a + l.length ≤ x) : (m.writeAll a l).read x = m.read x := by
  induction l generalizing m a with
  | nil => rfl
  | cons v l ih =>
    simp only [List.length_cons] at h
    rw [Memory.writeAll, ih _ _ (by omega), Memory.read_write_other _ _ _ _ (by omega)]

theorem Memory.read_writeAll_same (m : Memory) (a : Nat) (l : List Byte) (j : Nat) (hm : m.wf)
    (ha : a + l.length ≤ memorySize) (hj : j < l.length) : (m.writeAll a l).read (a + j) = l[j] := by
  induction l generalizing m a j with
  | nil => simp at hj
  | cons v l ih =>
    simp only [List.length_cons] at ha hj
    rw [Memory.writeAll]
    cases j with
    | zero => rw [Memory.read_writeAll_other _ _ _ _ (by omega)]; exact Memory.read_write_same m a v hm
    | succ j =>
      rw [show a + (j + 1) = (a + 1) + j by omega]
      exact ih (m.write a v) (a + 1) j (Memory.wf_write m a v hm (by omega)) (by omega) (by omega)

/-- Writing a run of bytes twice leaves what the second write put there. -/
theorem Memory.writeAll_writeAll (m : Memory) (a : Nat) (l l' : List Byte) (hm : m.wf)
    (ha : a + l.length ≤ memorySize) (hl : l'.length = l.length) : (m.writeAll a l).writeAll a l' = m.writeAll a l' := by
  have h1 := Memory.wf_writeAll m a l hm ha
  refine Memory.ext_read _ _ (Memory.wf_writeAll _ a l' h1 (by omega)) (Memory.wf_writeAll _ a l' hm (by omega)) ?_
  intro x
  by_cases hx : a ≤ x ∧ x < a + l'.length
  · obtain ⟨j, rfl⟩ : ∃ j, x = a + j := ⟨x - a, by omega⟩
    rw [Memory.read_writeAll_same _ _ _ j h1 (by omega) (by omega),
      Memory.read_writeAll_same _ _ _ j hm (by omega) (by omega)]
  · rw [Memory.read_writeAll_other _ _ _ _ (by omega), Memory.read_writeAll_other _ _ _ _ (by omega),
      Memory.read_writeAll_other _ _ _ _ (by omega)]

@[simp] theorem Memory.readAll_length (m : Memory) (a n : Nat) : (m.readAll a n).length = n := by
  induction n generalizing a with
  | zero => rfl
  | succ n ih => simp [Memory.readAll, ih]

theorem Memory.readAll_getElem (m : Memory) (a n j : Nat) (h : j < (m.readAll a n).length) :
    (m.readAll a n)[j] = m.read (a + j) := by
  induction n generalizing a j with
  | zero => simp at h
  | succ n ih =>
    cases j with
    | zero => rfl
    | succ j =>
      simp only [Memory.readAll, List.getElem_cons_succ]
      rw [ih, Nat.add_assoc, Nat.add_comm 1]

/-- A run of bytes depends on those bytes only. -/
theorem Memory.readAll_congr (m m' : Memory) (a n : Nat) (h : ∀ j, j < n → m.read (a + j) = m'.read (a + j)) :
    m.readAll a n = m'.readAll a n := by
  apply List.ext_getElem
  · simp
  · intro j h1 h2
    simp only [Memory.readAll_length] at h1
    rw [Memory.readAll_getElem, Memory.readAll_getElem, h j h1]

/-- A run inside a longer run. -/
theorem Memory.readAll_segment (m : Memory) (a n b : Nat) :
    segment (m.readAll a n) b = m.readAll (a + 16 * b) (min 16 (n - 16 * b)) := by
  apply List.ext_getElem
  · simp [segment]
  · intro j h1 h2
    simp only [segment, List.getElem_take, List.getElem_drop, Memory.readAll_getElem, Nat.add_assoc]

theorem Memory.wf_drawAll (m : Memory) (a k n : Nat) (hm : m.wf) (ha : a + n ≤ memorySize) : (m.drawAll a k n).wf := by
  induction n generalizing m a k with
  | zero => exact hm
  | succ n ih => exact ih _ _ _ (Memory.wf_write m a _ hm (by omega)) (by omega)

theorem Memory.read_drawAll_other (m : Memory) (a k n x : Nat) (h : x < a ∨ a + n ≤ x) :
    (m.drawAll a k n).read x = m.read x := by
  induction n generalizing m a k with
  | zero => rfl
  | succ n ih => rw [Memory.drawAll, ih _ _ _ (by omega), Memory.read_write_other _ _ _ _ (by omega)]

/-- Every byte drawn is the free value of its own draw (I5). -/
theorem Memory.read_drawAll_same (m : Memory) (a k n j : Nat) (hm : m.wf) (ha : a + n ≤ memorySize) (hj : j < n) :
    (m.drawAll a k n).read (a + j) = Config.freeByte (k + j) := by
  induction n generalizing m a k j with
  | zero => omega
  | succ n ih =>
    rw [Memory.drawAll]
    cases j with
    | zero => rw [Memory.read_drawAll_other _ _ _ _ _ (by omega)]; exact Memory.read_write_same m a _ hm
    | succ j =>
      rw [show a + (j + 1) = (a + 1) + j by omega, show k + (j + 1) = (k + 1) + j by omega]
      exact ih _ _ _ j (Memory.wf_write m a _ hm (by omega)) (by omega) (by omega)

/-- Writing the same bytes keeps a byte alike that is alike. -/
theorem Memory.read_writeAll_congr {m m' : Memory} {a x : Nat} {l : List Byte} (hm : m.wf) (hm' : m'.wf)
    (ha : a + l.length ≤ memorySize) (h : m.read x = m'.read x) : (m.writeAll a l).read x = (m'.writeAll a l).read x := by
  by_cases hx : a ≤ x ∧ x < a + l.length
  · obtain ⟨j, rfl⟩ : ∃ j, x = a + j := ⟨x - a, by omega⟩
    rw [Memory.read_writeAll_same _ _ _ j hm ha (by omega), Memory.read_writeAll_same _ _ _ j hm' ha (by omega)]
  · rw [Memory.read_writeAll_other _ _ _ _ (by omega), Memory.read_writeAll_other _ _ _ _ (by omega), h]

/-! ## The memory port -/

/-- The accesses after the first one of an answered run are answered. -/
theorem Answered.tail {map : List Region} {kind : AccessKind} {a n : Nat} (h : Answered map kind a (n + 1)) :
    Answered map kind (a + 1) n := fun j hj => by
  have := h (j + 1) (by omega)
  rwa [show a + (j + 1) = a + 1 + j by omega] at this

/-- A run of reads is made exactly when every one is answered, and it reads memory. -/
theorem readBytes_ok_iff (map : List Region) (m : Memory) (a n : Nat) (l : List Byte) :
    readBytes map m a n = .ok l ↔ Answered map .read a n ∧ l = m.readAll a n := by
  induction n generalizing a l with
  | zero => simp [readBytes, Memory.readAll, Answered, eq_comm]
  | succ n ih =>
    constructor
    · intro h
      unfold readBytes at h
      cases hr : memResponse map .read a with
      | busError => simp [hr] at h
      | silent => simp [hr] at h
      | ok =>
        cases ht : readBytes map m (a + 1) n with
        | busError => simp [hr, ht] at h
        | silent => simp [hr, ht] at h
        | ok l' =>
          simp only [hr, ht, Access.ok.injEq] at h
          obtain ⟨ha, hl⟩ := (ih _ _).mp ht
          refine ⟨fun j hj => ?_, by rw [← h, hl]; rfl⟩
          cases j with
          | zero => exact hr
          | succ j => rw [show a + (j + 1) = a + 1 + j by omega]; exact ha j (by omega)
    · rintro ⟨ha, rfl⟩
      have h0 := ha 0 (by omega)
      have ht := (ih (a + 1) _).mpr ⟨ha.tail, rfl⟩
      unfold readBytes
      rw [show memResponse map .read a = .ok from h0]
      simp only [ht]
      rfl

/-- A run of writes is made exactly when every one is answered, and it writes memory. -/
theorem writeBytes_ok_iff (map : List Region) (m : Memory) (a : Nat) (l : List Byte) (m' : Memory) :
    writeBytes map m a l = .ok m' ↔ Answered map .write a l.length ∧ m' = m.writeAll a l := by
  induction l generalizing a m with
  | nil => simp [writeBytes, Answered, eq_comm]
  | cons v l ih =>
    constructor
    · intro h
      unfold writeBytes at h
      cases hr : memResponse map .write a with
      | busError => simp [hr] at h
      | silent => simp [hr] at h
      | ok =>
        simp only [hr] at h
        obtain ⟨ha, hl⟩ := (ih _ _).mp h
        refine ⟨fun j hj => ?_, hl⟩
        cases j with
        | zero => exact hr
        | succ j =>
          rw [show a + (j + 1) = a + 1 + j by omega]
          exact ha j (by simp only [List.length_cons] at hj; omega)
    · rintro ⟨ha, rfl⟩
      have h0 := ha 0 (by simp)
      unfold writeBytes
      rw [show memResponse map .write a = .ok from h0]
      exact (ih _ _).mpr ⟨Answered.tail ha, rfl⟩

/-! ## The first access that is not made decides -/

theorem readBytes_busError {map : List Region} {m : Memory} {a n j : Nat} (hj : j < n) (h1 : Answered map .read a j)
    (h2 : memResponse map .read (a + j) = .busError) : readBytes map m a n = .busError := by
  induction j generalizing a n with
  | zero =>
    obtain ⟨n, rfl⟩ := Nat.exists_eq_succ_of_ne_zero (by omega : n ≠ 0)
    simp at h2; simp [readBytes, h2]
  | succ j ih =>
    obtain ⟨n, rfl⟩ := Nat.exists_eq_succ_of_ne_zero (by omega : n ≠ 0)
    have := @ih (a + 1) n (by omega) h1.tail (by rw [← h2]; congr 1; omega)
    have h0 := h1 0 (by omega)
    simp at h0; simp [readBytes, h0, this]

theorem readBytes_silent {map : List Region} {m : Memory} {a n j : Nat} (hj : j < n) (h1 : Answered map .read a j)
    (h2 : memResponse map .read (a + j) = .silent) : readBytes map m a n = .silent := by
  induction j generalizing a n with
  | zero =>
    obtain ⟨n, rfl⟩ := Nat.exists_eq_succ_of_ne_zero (by omega : n ≠ 0)
    simp at h2; simp [readBytes, h2]
  | succ j ih =>
    obtain ⟨n, rfl⟩ := Nat.exists_eq_succ_of_ne_zero (by omega : n ≠ 0)
    have := @ih (a + 1) n (by omega) h1.tail (by rw [← h2]; congr 1; omega)
    have h0 := h1 0 (by omega)
    simp at h0; simp [readBytes, h0, this]

theorem writeBytes_busError {map : List Region} {m : Memory} {a j : Nat} {l : List Byte} (hj : j < l.length)
    (h1 : Answered map .write a j) (h2 : memResponse map .write (a + j) = .busError) :
    writeBytes map m a l = .busError := by
  induction j generalizing a l m with
  | zero =>
    cases l with
    | nil => simp at hj
    | cons v l => simp at h2; simp [writeBytes, h2]
  | succ j ih =>
    cases l with
    | nil => simp at hj
    | cons v l =>
      have := @ih (m.write a v) (a + 1) l (by simpa using hj) h1.tail (by rw [← h2]; congr 1; omega)
      have h0 := h1 0 (by omega)
      simp at h0; simp [writeBytes, h0, this]

theorem writeBytes_silent {map : List Region} {m : Memory} {a j : Nat} {l : List Byte} (hj : j < l.length)
    (h1 : Answered map .write a j) (h2 : memResponse map .write (a + j) = .silent) :
    writeBytes map m a l = .silent := by
  induction j generalizing a l m with
  | zero =>
    cases l with
    | nil => simp at hj
    | cons v l => simp at h2; simp [writeBytes, h2]
  | succ j ih =>
    cases l with
    | nil => simp at hj
    | cons v l =>
      have := @ih (m.write a v) (a + 1) l (by simpa using hj) h1.tail (by rw [← h2]; congr 1; omega)
      have h0 := h1 0 (by omega)
      simp at h0; simp [writeBytes, h0, this]

/-- Whether a run of reads is made depends on the platform only, not on memory. -/
theorem readBytes_kind (map : List Region) (m m' : Memory) (a n : Nat) :
    (readBytes map m a n = .busError ∧ readBytes map m' a n = .busError) ∨
    (readBytes map m a n = .silent ∧ readBytes map m' a n = .silent) ∨
    (readBytes map m a n = .ok (m.readAll a n) ∧ readBytes map m' a n = .ok (m'.readAll a n)) := by
  induction n generalizing a with
  | zero => exact .inr (.inr ⟨rfl, rfl⟩)
  | succ n ih =>
    simp only [readBytes]
    cases memResponse map .read a with
    | busError => exact .inl ⟨rfl, rfl⟩
    | silent => exact .inr (.inl ⟨rfl, rfl⟩)
    | ok =>
      rcases ih (a + 1) with ⟨h, h'⟩ | ⟨h, h'⟩ | ⟨h, h'⟩ <;> rw [h, h']
      · exact .inl ⟨rfl, rfl⟩
      · exact .inr (.inl ⟨rfl, rfl⟩)
      · exact .inr (.inr ⟨rfl, rfl⟩)

/-- Whether a run of writes is made depends on the platform and the number of bytes only. -/
theorem writeBytes_kind (map : List Region) (m m' : Memory) (a : Nat) (l l' : List Byte) (hl : l.length = l'.length) :
    (writeBytes map m a l = .busError ∧ writeBytes map m' a l' = .busError) ∨
    (writeBytes map m a l = .silent ∧ writeBytes map m' a l' = .silent) ∨
    (writeBytes map m a l = .ok (m.writeAll a l) ∧ writeBytes map m' a l' = .ok (m'.writeAll a l')) := by
  induction l generalizing m m' a l' with
  | nil =>
    cases l' with
    | nil => exact .inr (.inr ⟨rfl, rfl⟩)
    | cons => cases hl
  | cons v l ih =>
    cases l' with
    | nil => cases hl
    | cons v' l' =>
      simp only [writeBytes, Memory.writeAll]
      cases memResponse map .write a with
      | busError => exact .inl ⟨rfl, rfl⟩
      | silent => exact .inr (.inl ⟨rfl, rfl⟩)
      | ok => exact ih _ _ _ _ (Nat.succ.inj hl)

end Sys2Proof.Machine
end

