-- ==== Sys2Proof/Laws/State.lean ====
section
/-! SUPPORT. The fields of State and of Engine after each shared operation, one lemma per field, all true by rfl, so
that no proof unfolds a record update. -/

namespace Sys2Proof.Machine

/-! ## Wipe and finish -/

@[simp] theorem Engine.wipe_wiped (e : Engine) : e.wipe.Wiped := ⟨rfl, rfl, rfl, rfl, rfl⟩
@[simp] theorem Engine.finish_status (e : Engine) (st : Status) : (e.finish st).status = st := rfl
@[simp] theorem Engine.finish_phase (e : Engine) (st : Status) : (e.finish st).phase = .idle := rfl
@[simp] theorem Engine.finish_ie (e : Engine) (st : Status) : (e.finish st).ie = e.ie := rfl
@[simp] theorem Engine.finish_tag (e : Engine) (st : Status) : (e.finish st).tag = e.tag := rfl
@[simp] theorem Engine.finish_S (e : Engine) (st : Status) : (e.finish st).S = 0 := rfl
@[simp] theorem Engine.finish_ctx (e : Engine) (st : Status) : (e.finish st).ctx = Ctx.zero := rfl
@[simp] theorem Engine.finish_blk (e : Engine) (st : Status) : (e.finish st).blk = 0 := rfl
@[simp] theorem Engine.finish_rtag (e : Engine) (st : Status) : (e.finish st).rtag = 0 := rfl
@[simp] theorem Engine.finish_acc (e : Engine) (st : Status) : (e.finish st).acc = 0 := rfl
theorem Engine.finish_sameConfig (e : Engine) (st : Status) : e.SameConfig (e.finish st) := by
  simp [Engine.SameConfig, Engine.finish, Engine.wipe]

/-! ## Reject, accept, abort, reset -/

@[simp] theorem reject_eng (c : ErrCode) (s : State) :
    (reject c s).eng = { s.eng with status := Status.rejected c } := rfl
@[simp] theorem reject_peers (c : ErrCode) (s : State) : (reject c s).peers = s.peers := rfl
@[simp] theorem reject_mem (c : ErrCode) (s : State) : (reject c s).mem = s.mem := rfl
@[simp] theorem reject_map (c : ErrCode) (s : State) : (reject c s).map = s.map := rfl
@[simp] theorem reject_inputs (c : ErrCode) (s : State) : (reject c s).inputs = s.inputs := rfl

@[simp] theorem accept_status (op : Op) (s : State) : (accept op s).eng.status = Status.accepted := rfl
@[simp] theorem accept_ctx (op : Op) (s : State) : (accept op s).eng.ctx = s.eng.capture op := rfl
@[simp] theorem accept_phase (op : Op) (s : State) : (accept op s).eng.phase = .init 0 := rfl
@[simp] theorem accept_capture (op op' : Op) (s : State) :
    (accept op s).eng.capture op' = s.eng.capture op' := rfl
@[simp] theorem accept_peers (op : Op) (s : State) : (accept op s).peers = s.peers := rfl
@[simp] theorem accept_mem (op : Op) (s : State) : (accept op s).mem = s.mem := rfl
@[simp] theorem accept_map (op : Op) (s : State) : (accept op s).map = s.map := rfl
@[simp] theorem accept_inputs (op : Op) (s : State) : (accept op s).inputs = s.inputs := rfl

@[simp] theorem drawOut_eng (s : State) : (drawOut s).eng = s.eng := rfl
@[simp] theorem drawOut_peers (s : State) : (drawOut s).peers = s.peers := rfl
@[simp] theorem drawOut_map (s : State) : (drawOut s).map = s.map := rfl
@[simp] theorem drawOut_inputs (s : State) : (drawOut s).inputs = s.inputs := rfl
@[simp] theorem drawOut_mem (s : State) :
    (drawOut s).mem = s.mem.drawAll s.eng.ctx.O.toNat s.draws s.eng.ctx.n.toNat := rfl

@[simp] theorem busAbort_eng (s : State) :
    (busAbort s).eng = s.eng.finish (Status.aborted s.eng.phase.isFill) := rfl
@[simp] theorem busAbort_peers (s : State) : (busAbort s).peers = s.peers := rfl
@[simp] theorem busAbort_map (s : State) : (busAbort s).map = s.map := rfl
@[simp] theorem busAbort_inputs (s : State) : (busAbort s).inputs = s.inputs := rfl
@[simp] theorem busAbort_mem (s : State) :
    (busAbort s).mem = s.mem.drawAll s.eng.ctx.O.toNat s.draws s.eng.ctx.n.toNat := rfl

@[simp] theorem resetEngine_eng (s : State) : (resetEngine s).eng = Engine.reset := by
  unfold resetEngine; split <;> rfl
@[simp] theorem resetEngine_peers (s : State) : (resetEngine s).peers = s.peers := by
  unfold resetEngine; split <;> rfl
@[simp] theorem resetEngine_map (s : State) : (resetEngine s).map = s.map := by
  unfold resetEngine; split <;> rfl

/-! ## Swapping a peer into focus -/

theorem swapPeer_of_lt (j : Nat) (s : State) (h : j < s.peers.length) :
    swapPeer j s = { s with eng := s.peers[j], peers := s.peers.set j s.eng } := by
  simp [swapPeer, h]

theorem swapPeer_of_ge (j : Nat) (s : State) (h : s.peers.length ≤ j) : swapPeer j s = s := by
  simp [swapPeer, h]

@[simp] theorem swapPeer_mem (j : Nat) (s : State) : (swapPeer j s).mem = s.mem := by
  unfold swapPeer; split <;> rfl
@[simp] theorem swapPeer_map (j : Nat) (s : State) : (swapPeer j s).map = s.map := by
  unfold swapPeer; split <;> rfl
@[simp] theorem swapPeer_inputs (j : Nat) (s : State) : (swapPeer j s).inputs = s.inputs := by
  unfold swapPeer; split <;> rfl
@[simp] theorem swapPeer_rdata (j : Nat) (s : State) : (swapPeer j s).rdata = s.rdata := by
  unfold swapPeer; split <;> rfl
@[simp] theorem swapPeer_mdata (j : Nat) (s : State) : (swapPeer j s).mdata = s.mdata := by
  unfold swapPeer; split <;> rfl
@[simp] theorem swapPeer_draws (j : Nat) (s : State) : (swapPeer j s).draws = s.draws := by
  unfold swapPeer; split <;> rfl
@[simp] theorem swapPeer_peers_length (j : Nat) (s : State) : (swapPeer j s).peers.length = s.peers.length := by
  unfold swapPeer; split <;> simp

/-- Bringing a peer into focus twice changes nothing. -/
@[simp] theorem swapPeer_swapPeer (j : Nat) (s : State) : swapPeer j (swapPeer j s) = s := by
  by_cases h : j < s.peers.length
  · rw [swapPeer_of_lt j s h, swapPeer_of_lt j _ (by simpa using h)]
    simp
  · rw [swapPeer_of_ge j s (by omega), swapPeer_of_ge j s (by omega)]

/-- Bringing a peer into focus permutes the engines. -/
theorem swapPeer_engines_perm (j : Nat) (s : State) : (swapPeer j s).engines.Perm s.engines := by
  by_cases h : j < s.peers.length
  · rw [swapPeer_of_lt j s h]
    simp only [State.engines]
    have h1 : s.peers.set j s.eng = s.peers.take j ++ s.eng :: s.peers.drop (j + 1) :=
        List.set_eq_take_append_cons_drop ▸ by simp [h]
    have h2 : s.peers = s.peers.take j ++ s.peers[j] :: s.peers.drop (j + 1) := by
      rw [List.cons_getElem_drop_succ, List.take_append_drop]
    rw [h1]
    conv => rhs; rw [h2]
    refine List.Perm.trans (List.Perm.cons _ List.perm_middle) ?_
    refine List.Perm.trans (List.Perm.swap _ _ _) ?_
    exact List.Perm.cons _ List.perm_middle.symm
  · rw [swapPeer_of_ge j s (by omega)]

/-- The engines after a peer was brought into focus, changed, and put back. -/
theorem swapPeer_engines {j : Nat} {s r : State} (hj : j < s.peers.length) (hr : r.peers = (swapPeer j s).peers) :
    (swapPeer j r).engines = s.engines.set (j + 1) r.eng := by
  have hs : r.peers = s.peers.set j s.eng := by rw [hr, swapPeer_of_lt j s hj]
  rw [swapPeer_of_lt j r (by simpa [hs] using hj)]
  simp [State.engines, hs]

/-! ## Outcomes -/

theorem mapNext_next {f : State → State} {o : Host.Outcome State Fault Refusal} {t : State}
    (h : mapNext f o = .next t) : ∃ u, o = .next u ∧ t = f u := by
  cases o with
  | next s => exact ⟨s, rfl, by simpa [mapNext] using h.symm⟩
  | fault r => simp [mapNext] at h
  | refused r => simp [mapNext] at h

/-- What an event at engine `k` can do: `f` at the engine in focus, or `f` between two swaps. -/
theorem onEngine_next {k : Nat} {f : State → Host.Outcome State Fault Refusal} {s t : State}
    (h : onEngine k f s = .next t) :
    (k = 0 ∧ f s = .next t) ∨
    (∃ j u, k = j + 1 ∧ j < s.peers.length ∧ f (swapPeer j s) = .next u ∧ t = swapPeer j u) := by
  cases k with
  | zero => exact .inl ⟨rfl, h⟩
  | succ j =>
    simp only [onEngine] at h
    split at h
    · next hj =>
      obtain ⟨u, hu, rfl⟩ := mapNext_next h
      exact .inr ⟨j, u, rfl, hj, hu, rfl⟩
    · cases h

/-- What an event at engine `k` does, when it leaves the peers of its focus alone: it is `f` at that engine,
    and the other
engines stay as they were (R212). -/
theorem onEngine_acts {k : Nat} {f : State → Host.Outcome State Fault Refusal} {s t : State}
    (hf : ∀ r u, f r = .next u → u.peers = r.peers) (h : onEngine k f s = .next t) :
    ∃ e ps u, s.engines[k]? = some e ∧ f { s with eng := e, peers := ps } = .next u ∧
      t.engines = s.engines.set k u.eng ∧ t.mem = u.mem ∧ t.map = u.map := by
  rcases onEngine_next h with ⟨rfl, hu⟩ | ⟨j, u, rfl, hj, hu, rfl⟩
  · exact ⟨s.eng, s.peers, t, rfl, hu, by simp [State.engines, hf _ _ hu], rfl, rfl⟩
  · refine ⟨s.peers[j], s.peers.set j s.eng, u, by simp [State.engines, hj], ?_, swapPeer_engines hj (hf _ _ hu),
      swapPeer_mem .., swapPeer_map ..⟩
    rw [← swapPeer_of_lt j s hj]; exact hu

end Sys2Proof.Machine
end

