-- ==== Sys2Proof/Laws/Engine.lean ====
section
/-! SUPPORT. Everything one internal step of an engine can do (spec/10_state.md R42, spec/42_commands.md R178 to
R181): one inversion lemma per step that accesses memory. -/

namespace Sys2Proof.Machine

/-- The run of accesses was not made because one raised `BusError`; the first that was not made decides. -/
theorem readBytes_ne_silent {map : List Region} {m : Memory} {a n : Nat}
    (h : ∀ j, j < n → memResponse map .read (a + j) ≠ .silent) : readBytes map m a n ≠ .silent := by
  induction n generalizing a with
  | zero => simp [readBytes]
  | succ n ih =>
    have h0 := h 0 (by omega)
    have ht := @ih (a + 1) (fun j hj => by have := h (j + 1) (by omega); rwa [show a + (j + 1) = a + 1 + j by
        omega] at this)
    unfold readBytes
    cases hr : memResponse map .read a with
    | busError => simp
    | silent => exact absurd hr h0
    | ok =>
      cases hl : readBytes map m (a + 1) n with
      | ok l => simp
      | busError => simp
      | silent => exact absurd hl ht

theorem writeBytes_ne_silent {map : List Region} {m : Memory} {a : Nat} {l : List Byte}
    (h : ∀ j, j < l.length → memResponse map .write (a + j) ≠ .silent) : writeBytes map m a l ≠ .silent := by
  induction l generalizing a m with
  | nil => simp [writeBytes]
  | cons v l ih =>
    have h0 := h 0 (by simp)
    unfold writeBytes
    cases hr : memResponse map .write a with
    | busError => simp
    | silent => exact absurd hr h0
    | ok =>
      exact ih (fun j hj => by
        have := h (j + 1) (by simp only [List.length_cons]; omega)
        rwa [show a + (j + 1) = a + 1 + j by omega] at this)

/-- AD(b): the block is absorbed, or the command aborts, or it never gets a response. -/
theorem stepAd_cases (b : Nat) (s : State) :
    (Answered s.map .read (s.eng.ctx.A.toNat + 16 * b) (blockLen s.eng.ctx.a.toNat b) ∧
      stepAd b s = { s with eng := { s.eng with
        S := absorb (pad (s.mem.readAll (s.eng.ctx.A.toNat + 16 * b) (blockLen s.eng.ctx.a.toNat b))) s.eng.S,
        blk := mask s.eng.S (pad (s.mem.readAll (s.eng.ctx.A.toNat + 16 * b) (blockLen s.eng.ctx.a.toNat b))),
        phase := s.eng.ctx.nextAd b } }) ∨
    stepAd b s = busAbort s ∨
    (stepAd b s = s ∧
      readBytes s.map s.mem (s.eng.ctx.A.toNat + 16 * b) (blockLen s.eng.ctx.a.toNat b) = .silent) := by
  cases h : readBytes s.map s.mem (s.eng.ctx.A.toNat + 16 * b) (blockLen s.eng.ctx.a.toNat b) with
  | ok seg =>
    obtain ⟨ha, rfl⟩ := (readBytes_ok_iff _ _ _ _ _).mp h
    exact .inl ⟨ha, by simp [stepAd, h, encBlock]⟩
  | busError => exact .inr (.inl (by simp [stepAd, h]))
  | silent => exact .inr (.inr ⟨by simp [stepAd, h], rfl⟩)

/-- The bytes of block `b` of IN, as MSG(b) reads them. -/
def payloadSeg (s : State) (b : Nat) : List Byte :=
  s.mem.readAll (s.eng.ctx.I.toNat + 16 * b) (blockLen s.eng.ctx.n.toNat b)

/-- The new state and the masked block of MSG(b). -/
def payloadResult (s : State) (b : Nat) : S512 × Block := payloadBlock s.eng.ctx.op s.eng.S (payloadSeg s b)

/-- The bytes MSG(b) writes to OUT. -/
def payloadOut (s : State) (b : Nat) : List Byte :=
  (blockBytes (payloadResult s b).2).take (blockLen s.eng.ctx.n.toNat b)

@[simp] theorem payloadSeg_length (s : State) (b : Nat) :
    (payloadSeg s b).length = blockLen s.eng.ctx.n.toNat b := by simp [payloadSeg]

@[simp] theorem payloadOut_length (s : State) (b : Nat) :
    (payloadOut s b).length = blockLen s.eng.ctx.n.toNat b := by
  simp [payloadOut, blockLen]

/-- MSG(b): the block is processed and written, or the command aborts, or it never gets a response. -/
theorem stepMsg_cases (b : Nat) (s : State) :
    (Answered s.map .read (s.eng.ctx.I.toNat + 16 * b) (blockLen s.eng.ctx.n.toNat b) ∧
      Answered s.map .write (s.eng.ctx.O.toNat + 16 * b) (blockLen s.eng.ctx.n.toNat b) ∧
      stepMsg b s = { s with
        mem := s.mem.writeAll (s.eng.ctx.O.toNat + 16 * b) (payloadOut s b),
        eng := { s.eng with S := (payloadResult s b).1, blk := (payloadResult s b).2,
                            phase := s.eng.ctx.nextMsg b } }) ∨
    stepMsg b s = busAbort s ∨
    (stepMsg b s = s ∧
      (readBytes s.map s.mem (s.eng.ctx.I.toNat + 16 * b) (blockLen s.eng.ctx.n.toNat b) = .silent ∨
        writeBytes s.map s.mem (s.eng.ctx.O.toNat + 16 * b) (payloadOut s b) = .silent)) := by
  cases h : readBytes s.map s.mem (s.eng.ctx.I.toNat + 16 * b) (blockLen s.eng.ctx.n.toNat b) with
  | ok seg =>
    obtain ⟨ha, rfl⟩ := (readBytes_ok_iff _ _ _ _ _).mp h
    have hout : (blockBytes (payloadBlock s.eng.ctx.op s.eng.S
        (s.mem.readAll (s.eng.ctx.I.toNat + 16 * b) (blockLen s.eng.ctx.n.toNat b))).2).take
        (s.mem.readAll (s.eng.ctx.I.toNat + 16 * b) (blockLen s.eng.ctx.n.toNat b)).length = payloadOut s b := by
      simp [payloadOut, payloadResult, payloadSeg]
    cases hw : writeBytes s.map s.mem (s.eng.ctx.O.toNat + 16 * b) (payloadOut s b) with
    | ok m =>
      obtain ⟨hb, rfl⟩ := (writeBytes_ok_iff _ _ _ _ _).mp hw
      rw [payloadOut_length] at hb
      refine .inl ⟨ha, hb, ?_⟩
      simp only [stepMsg, h, hout, hw]
      rfl
    | busError => exact .inr (.inl (by simp only [stepMsg, h, hout, hw]))
    | silent => exact .inr (.inr ⟨by simp only [stepMsg, h, hout, hw], .inr rfl⟩)
  | busError => exact .inr (.inl (by simp only [stepMsg, h]))
  | silent => exact .inr (.inr ⟨by simp only [stepMsg, h], .inl rfl⟩)

/-- FILL(o): the byte is written, or the command aborts, or it never gets a response. -/
theorem stepFill_cases (o : Nat) (s : State) :
    (memResponse s.map .write (s.eng.ctx.O.toNat + o) = .ok ∧
      stepFill o s = { s with mem := s.mem.write (s.eng.ctx.O.toNat + o) failByte,
                              eng := { s.eng with phase := s.eng.ctx.nextFill o } }) ∨
    (memResponse s.map .write (s.eng.ctx.O.toNat + o) = .busError ∧ stepFill o s = busAbort s) ∨
    (memResponse s.map .write (s.eng.ctx.O.toNat + o) = .silent ∧ stepFill o s = s) := by
  cases h : memResponse s.map .write (s.eng.ctx.O.toNat + o) with
  | ok => exact .inl ⟨rfl, by simp [stepFill, writeBytes, h]⟩
  | busError => exact .inr (.inl ⟨rfl, by simp [stepFill, writeBytes, h]⟩)
  | silent => exact .inr (.inr ⟨rfl, by simp [stepFill, writeBytes, h]⟩)

/-- An internal step aborts the command, or it reports no new error and stores nothing, its payload block, or its fill
byte. -/
theorem engineStep_cases (s : State) :
    (engineStep s = busAbort s ∧ ((∃ b, s.eng.phase = .ad b) ∨ (∃ b, s.eng.phase = .msg b) ∨
      ∃ o, s.eng.phase = .fill o ∧ memResponse s.map .write (s.eng.ctx.O.toNat + o) = .busError)) ∨
    (((engineStep s).eng.status.err = true → s.eng.status.err = true) ∧
      ((engineStep s).mem = s.mem ∨
        (∃ b, s.eng.phase = .msg b ∧
          (engineStep s).mem = s.mem.writeAll (s.eng.ctx.O.toNat + 16 * b) (payloadOut s b)) ∨
        ∃ o, s.eng.phase = .fill o ∧ (engineStep s).mem = s.mem.write (s.eng.ctx.O.toNat + o) failByte)) := by
  unfold engineStep
  cases hp : s.eng.phase with
  | idle => exact .inr ⟨id, .inl rfl⟩
  | init i => exact .inr ⟨id, .inl rfl⟩
  | mac j => exact .inr ⟨id, .inl rfl⟩
  | verify => exact .inr ⟨id, .inl rfl⟩
  | wipe => exact .inr ⟨fun h => Bool.noConfusion h, .inl rfl⟩
  | ad b =>
    rcases stepAd_cases b s with ⟨-, h⟩ | h | ⟨h, -⟩ <;> simp only [h]
    · exact .inr ⟨id, .inl trivial⟩
    · exact .inl ⟨trivial, .inl ⟨b, rfl⟩⟩
    · exact .inr ⟨id, .inl trivial⟩
  | msg b =>
    rcases stepMsg_cases b s with ⟨-, -, h⟩ | h | ⟨h, -⟩ <;> simp only [h]
    · exact .inr ⟨id, .inr (.inl ⟨b, rfl, rfl⟩)⟩
    · exact .inl ⟨trivial, .inr (.inl ⟨b, rfl⟩)⟩
    · exact .inr ⟨id, .inl trivial⟩
  | fill o =>
    rcases stepFill_cases o s with ⟨-, h⟩ | ⟨hr, h⟩ | ⟨-, h⟩ <;> simp only [h]
    · exact .inr ⟨id, .inr (.inr ⟨o, rfl, rfl⟩)⟩
    · exact .inl ⟨trivial, .inr (.inr ⟨o, rfl, hr⟩)⟩
    · exact .inr ⟨id, .inl trivial⟩

/-- What an internal step leaves as it was: everything around the engine, its configuration and IRQ_EN. -/
theorem engineStep_around (s : State) :
    State.SameAround s (engineStep s) ∧ s.eng.SameConfig (engineStep s).eng ∧ (engineStep s).eng.ie = s.eng.ie := by
  have hab : State.SameAround s (busAbort s) ∧ s.eng.SameConfig (busAbort s).eng ∧ (busAbort s).eng.ie = s.eng.ie :=
    ⟨⟨rfl, rfl, rfl, rfl, rfl⟩, Engine.finish_sameConfig _ _, rfl⟩
  unfold engineStep
  split
  · simp [State.SameAround, Engine.SameConfig]
  · simp [State.SameAround, Engine.SameConfig, stepInit]
  · next b _ =>
    rcases stepAd_cases b s with ⟨-, h⟩ | h | ⟨h, -⟩ <;> rw [h]
    · simp [State.SameAround, Engine.SameConfig]
    · exact hab
    · simp [State.SameAround, Engine.SameConfig]
  · next b _ =>
    rcases stepMsg_cases b s with ⟨-, -, h⟩ | h | ⟨h, -⟩ <;> rw [h]
    · simp [State.SameAround, Engine.SameConfig]
    · exact hab
    · simp [State.SameAround, Engine.SameConfig]
  · simp [State.SameAround, Engine.SameConfig, stepMac]
  · simp [State.SameAround, Engine.SameConfig, stepVerify]
  · next o _ =>
    rcases stepFill_cases o s with ⟨-, h⟩ | ⟨-, h⟩ | ⟨-, h⟩ <;> rw [h]
    · simp [State.SameAround, Engine.SameConfig]
    · exact hab
    · simp [State.SameAround, Engine.SameConfig]
  · simp [State.SameAround, Engine.SameConfig, stepWipe, Engine.finish, Engine.wipe]

theorem engineSteps_succ' (k : Nat) (s : State) : engineSteps (k + 1) s = engineStep (engineSteps k s) := by
  induction k generalizing s with
  | zero => rfl
  | succ k ih => exact ih (engineStep s)

theorem engineSteps_add (j k : Nat) (s : State) : engineSteps (j + k) s = engineSteps k (engineSteps j s) := by
  induction j generalizing s with
  | zero => rw [Nat.zero_add]; rfl
  | succ j ih => rw [Nat.succ_add]; exact ih (engineStep s)

/-- An idle engine has no step to make. -/
theorem engineStep_of_idle {s : State} (h : s.eng.phase = .idle) : engineStep s = s := by
  simp only [engineStep, h]

/-- A step of the engine in focus neither reads nor changes the other engines. -/
theorem engineStep_peers (s : State) (ps : List Engine) :
    engineStep { s with peers := ps } = { engineStep s with peers := ps } := by
  unfold engineStep
  cases hp : s.eng.phase <;> simp only [stepInit, stepMac, stepVerify, stepWipe, stepAd, stepMsg, stepFill,
      busAbort, drawOut]
  · split <;> rfl
  · split
    · split <;> rfl
    · rfl
    · rfl
  · split <;> rfl

/-- An internal step of engine `k` is a step of that engine, and the others stay as they were. -/
theorem tickEngine_acts {k : Nat} {s : State} {e : Engine} (hk : s.engines[k]? = some e) :
    (tickEngine k s).engines = s.engines.set k (engineStep { s with eng := e, peers := [] }).eng ∧
    (tickEngine k s).mem = (engineStep { s with eng := e, peers := [] }).mem ∧ (tickEngine k s).map = s.map := by
  have hp : ∀ (r : State), (engineStep r).peers = r.peers := fun r => (engineStep_around r).1.1
  have hm : ∀ (r : State), (engineStep r).map = r.map := fun r => (engineStep_around r).1.2.1
  cases k with
  | zero =>
    obtain rfl : s.eng = e := by simpa [State.engines] using hk
    rw [engineStep_peers]
    exact ⟨by simp [tickEngine, State.engines, hp], rfl, hm s⟩
  | succ j =>
    obtain ⟨hj, rfl⟩ : ∃ hj : j < s.peers.length, s.peers[j] = e := by
      simpa [State.engines, List.getElem?_eq_some_iff] using hk
    have hsw := swapPeer_of_lt j s hj
    rw [engineStep_peers { s with eng := s.peers[j] }]
    have h2 := engineStep_peers { s with eng := s.peers[j] } (s.peers.set j s.eng)
    refine ⟨?_, ?_, ?_⟩
    · show (swapPeer j (engineStep (swapPeer j s))).engines = _
      rw [swapPeer_engines hj (hp _), hsw, h2]
    · show (swapPeer j (engineStep (swapPeer j s))).mem = _
      rw [swapPeer_mem, hsw, h2]
    · show (swapPeer j (engineStep (swapPeer j s))).map = _
      rw [swapPeer_map, hm, swapPeer_map]

end Sys2Proof.Machine
end

