-- ==== Sys2Proof/Laws/Events.lean ====
section
/-! SUPPORT. Everything a command word and a register write can do: one inversion lemma per shared operation. -/

namespace Sys2Proof.Machine

/-- Everything a launch that ends in a next state can do (R172, R174 to R177). -/
theorem launch_next {op : Op} {s t : State} (h : launch op s = .next t) :
    (s.eng.status.busy = true ∧ t = s) ∨
    (s.eng.status.busy = false ∧ (s.eng.capture op).rangeBad = true ∧ t = reject .range s) ∨
    (s.eng.status.busy = false ∧ (s.eng.capture op).rangeBad = false ∧ (s.eng.capture op).overlapBad = true ∧
      t = reject .overlap s) ∨
    (Launchable op s ∧ t = accept op s) := by
  unfold launch at h
  split at h
  · next hb => cases h; exact .inl ⟨hb, rfl⟩
  · next hb =>
    have hb : s.eng.status.busy = false := by simpa using hb
    split at h
    · next hr => cases h; exact .inr (.inl ⟨hb, hr, rfl⟩)
    · next hr =>
      have hr : (s.eng.capture op).rangeBad = false := by simpa using hr
      split at h
      · next ho => cases h; exact .inr (.inr (.inl ⟨hb, hr, ho, rfl⟩))
      · next ho =>
        split at h
        · cases h
        · next hp => cases h; exact .inr (.inr (.inr ⟨⟨hb, hr, by simpa using ho, by simpa using hp⟩, rfl⟩))

/-- A launch never faults, and it is refused only for a conflict with another engine (R213). -/
theorem launch_refused {op : Op} {s : State} {r : Refusal} (h : launch op s = .refused r) :
    r = .engineOverlap ∧ peerConflict (s.eng.capture op) s.peers = true := by
  unfold launch at h
  split at h
  · cases h
  · split at h
    · cases h
    · split at h
      · cases h
      · split at h
        · next hp => cases h; exact ⟨rfl, hp⟩
        · cases h

theorem launch_of_launchable {op : Op} {s : State} (h : Launchable op s) : launch op s = .next (accept op s) := by
  obtain ⟨hb, hr, ho, hp⟩ := h
  simp [launch, hb, hr, ho, hp]

/-- Everything a write to CMD can do: nothing, the meaning of the word's instruction, or a rejection (R172). -/
theorem commandWrite_cases (v : Word) (s : State) :
    (s.eng.status.busy = true ∧ commandWrite v s = .next s) ∨
    (s.eng.status.busy = false ∧ ∃ i, decode v = .ok i ∧ commandWrite v s = exec i s) ∨
    (s.eng.status.busy = false ∧ (∃ e, decode v = .error e) ∧ commandWrite v s = .next (reject .illegalCmd s)) := by
  cases hb : s.eng.status.busy with
  | true => exact .inl ⟨rfl, by simp [commandWrite, hb]⟩
  | false =>
    cases hd : decode v with
    | ok i => exact .inr (.inl ⟨rfl, i, rfl, by simp [commandWrite, hb, hd]⟩)
    | error e => exact .inr (.inr ⟨rfl, ⟨e, rfl⟩, by simp [commandWrite, hb, hd]⟩)

/-- The register at a register's own offset is that register (R28). -/
theorem Reg.atOffset_offset (r : Reg) : Reg.atOffset r.offset = some r := by
  cases r with
  | key k => revert k; decide
  | nonce k => revert k; decide
  | tag k => revert k; decide
  | _ => decide

theorem accessDefined_offset (r : Reg) : accessDefined .w32 r.offset = true := by
  cases r with
  | key k => revert k; decide
  | nonce k => revert k; decide
  | tag k => revert k; decide
  | _ => decide

/-- A 32-bit write to a register but CMD (R170). -/
theorem hostWrite_reg (r : Reg) (v : Word) (s : State) (h : r ≠ .cmd) :
    hostWrite .w32 r.offset v s = .next { s with eng := s.eng.writeReg r v } := by
  unfold hostWrite
  rw [accessDefined_offset, Reg.atOffset_offset]
  cases r <;> first | rfl | exact absurd rfl h

/-- A 32-bit write to CMD (R170). -/
theorem hostWrite_cmd (v : Word) (s : State) : hostWrite .w32 Reg.cmd.offset v s = commandWrite v s := by
  unfold hostWrite
  rw [accessDefined_offset, Reg.atOffset_offset]
  rfl

/-- A 32-bit read of a register (R171). -/
theorem hostReadValue_reg (r : Reg) (e : Engine) : hostReadValue .w32 r.offset e = e.readReg r := by
  unfold hostReadValue
  rw [accessDefined_offset, Reg.atOffset_offset]
  rfl

/-- Everything a host write can be, whatever the state: nothing, a CMD write, or a register write (R170, R39, R61). -/
theorem hostWrite_cases (w : Width) (off : BitVec 8) (v : Word) :
    (∀ s, hostWrite w off v s = .next s) ∨ (∀ s, hostWrite w off v s = commandWrite v s) ∨
    ∃ r, r ≠ .cmd ∧ ∀ s, hostWrite w off v s = .next { s with eng := s.eng.writeReg r v } := by
  unfold hostWrite
  cases accessDefined w off with
  | false => exact .inl fun _ => rfl
  | true =>
    cases Reg.atOffset off with
    | none => exact .inl fun _ => rfl
    | some r =>
      cases r
      case cmd => exact .inr (.inl fun _ => rfl)
      all_goals exact .inr (.inr ⟨_, by simp, fun _ => rfl⟩)

/-- A launch neither sees nor changes the other engines, but for a conflict with one that runs (R212, R213). -/
theorem launch_alone {op : Op} {s t : State} (h : launch op s = .next t) :
    t.peers = s.peers ∧ t.map = s.map ∧
      ∃ u, launch op { s with peers := [] } = .next u ∧ u.eng = t.eng ∧ u.mem = t.mem := by
  rcases launch_next h with ⟨hb, rfl⟩ | ⟨hb, hr, rfl⟩ | ⟨hb, hr, ho, rfl⟩ | ⟨⟨hb, hr, ho, -⟩, rfl⟩
  · exact ⟨rfl, rfl, { t with peers := [] }, by simp [launch, hb], rfl, rfl⟩
  · exact ⟨rfl, rfl, reject .range { s with peers := [] }, by simp [launch, hb, hr], rfl, rfl⟩
  · exact ⟨rfl, rfl, reject .overlap { s with peers := [] }, by simp [launch, hb, hr, ho], rfl, rfl⟩
  · exact ⟨rfl, rfl, accept op { s with peers := [] }, by simp [launch, hb, hr, ho, peerConflict], rfl, rfl⟩

/-- So does every access to a register window. -/
theorem regAccess_alone {op : RegOp} {s t : State} (h : regAccess op s = .next t) :
    t.peers = s.peers ∧ t.map = s.map ∧
      ∃ u, regAccess op { s with peers := [] } = .next u ∧ u.eng = t.eng ∧ u.mem = t.mem := by
  cases op with
  | read w off => cases h; exact ⟨rfl, rfl, _, rfl, rfl, rfl⟩
  | poll off mask val => cases h; exact ⟨rfl, rfl, _, rfl, rfl, rfl⟩
  | write w off v =>
    simp only [regAccess] at h ⊢
    rcases hostWrite_cases w off v with hw | hw | ⟨r, -, hw⟩ <;> rw [hw] at h ⊢
    · cases h; exact ⟨rfl, rfl, _, rfl, rfl, rfl⟩
    · rcases commandWrite_cases v s with ⟨hb, hc⟩ | ⟨hb, i, hd, hc⟩ | ⟨hb, ⟨e, hd⟩, hc⟩ <;> rw [hc] at h
      · cases h; exact ⟨rfl, rfl, { s with peers := [] }, by simp [commandWrite, hb], rfl, rfl⟩
      · simp only [commandWrite, hb, hd, Bool.false_eq_true, if_false]
        cases i with
        | nop => cases h; exact ⟨rfl, rfl, _, rfl, rfl, rfl⟩
        | encrypt => exact launch_alone h
        | decrypt => exact launch_alone h
      · cases h
        exact ⟨rfl, rfl, reject .illegalCmd { s with peers := [] }, by simp [commandWrite, hb, hd], rfl, rfl⟩
    · cases h; exact ⟨rfl, rfl, _, rfl, rfl, rfl⟩

end Sys2Proof.Machine
end

