-- ==== Sys2Proof/Laws/Invariant.lean ====
section
/-! SUPPORT. The engine's invariant under one internal step, and what carries it to the system. -/

namespace Sys2Proof.Machine

theorem Engine.reset_inv (map : List Region) : Engine.reset.Inv map := by
  refine ⟨⟨by decide, by decide, by decide⟩, fun _ => ⟨rfl,rfl,rfl,rfl,rfl⟩, fun h => absurd rfl h, trivial,
      fun j hj => ?_⟩
  exact absurd hj (Nat.not_lt_zero _)

theorem Engine.finish_inv (map : List Region) (e : Engine) (st : Status) (hb : st.busy = false) (he : st.err =
    false ↔ st.errCode = .none) : (e.finish st).Inv map := by
  refine ⟨⟨by simp [hb], by simp [hb], he⟩, fun _ => ⟨rfl,rfl,rfl,rfl,rfl⟩, fun h => absurd rfl h, trivial,
      fun j hj => ?_⟩
  exact absurd hj (Nat.not_lt_zero _)

theorem Engine.finish_withTag_inv (map : List Region) (e : Engine) (st : Status) (t) (hb : st.busy = false) (he :
    st.err = false ↔ st.errCode = .none) : ({e.finish st with tag := t} : Engine).Inv map := by
  refine ⟨⟨by simp [hb], by simp [hb], he⟩, fun _ => ⟨rfl,rfl,rfl,rfl,rfl⟩, fun h => absurd rfl h, trivial,
      fun j hj => ?_⟩
  exact absurd hj (Nat.not_lt_zero _)

/-- An engine that runs on, in a phase it may be in, keeps its invariant. -/
theorem Engine.inv_of_running (map : List Region) (e : Engine) (h : e.Inv map) (hp : e.phase ≠ .idle) (e' : Engine)
    (hst : e'.status = e.status) (hctx : e'.ctx = e.ctx)
   (hcap : ∀ op, e'.capture op = e.capture op) (hph : e'.phase ≠ .idle) (h1 : e'.PhaseInv) (h2 :
       e'.WritableInv map) : e'.Inv map := by
  refine ⟨?_, fun h => absurd h hph, fun _ => ?_, h1, h2⟩
  · refine ⟨?_, ?_, ?_⟩
    · rw [hst]; exact ⟨fun _ => hph, fun _ => h.status.1.mpr hp⟩
    · rw [hst]; exact h.status.2.1
    · rw [hst]; exact h.status.2.2
  · rw [hctx, hcap]; exact h.ctx hp

theorem Engine.outRange (e : Engine) (map : List Region) (h : e.Inv map) (hp : e.phase ≠ .idle) :
    e.ctx.O.toNat + e.ctx.n.toNat ≤ memorySize := by
  have := (h.ctx hp).2.2.1
  simp [Ctx.rangeBad] at this
  exact this.2

theorem busAbort_inv (s : State) (h : s.eng.Inv s.map) (hp : s.eng.phase ≠ .idle) (hm : s.mem.wf) :
    (busAbort s).eng.Inv s.map ∧ (busAbort s).mem.wf := by
  refine ⟨Engine.finish_inv _ _ _ rfl (by simp [Status.aborted]), ?_⟩
  exact Memory.wf_drawAll _ _ _ _ hm (Engine.outRange _ _ h hp)


/-- What a running engine's phase has to satisfy. -/
def Engine.PhaseGood (map : List Region) (e : Engine) : Prop := e.phase ≠ .idle ∧ e.PhaseInv ∧ e.WritableInv map
theorem Answered.zero (map k a) : Answered map k a 0 := fun _ hj => absurd hj (Nat.not_lt_zero _)
theorem phaseGood_init (map : List Region) (e : Engine) (i) (hq : e.phase = .init i) : Engine.PhaseGood map e :=
  ⟨by simp [hq], by simp [Engine.PhaseInv, hq], by
      unfold Engine.WritableInv Engine.written; rw [hq]; exact Answered.zero _ _ _⟩
theorem phaseGood_ad (map : List Region) (e : Engine) (b) (hq : e.phase = .ad b) (h : 16*b < e.ctx.a.toNat) :
    Engine.PhaseGood map e :=
  ⟨by simp [hq], by simpa [Engine.PhaseInv, hq] using h, by
      unfold Engine.WritableInv Engine.written; rw [hq]; exact Answered.zero _ _ _⟩
theorem phaseGood_msg (map : List Region) (e : Engine) (b) (hq : e.phase = .msg b) (h : 16*b < e.ctx.n.toNat) (hw :
    Answered map .write e.ctx.O.toNat (16*b)) : Engine.PhaseGood map e :=
  ⟨by simp [hq], by simpa [Engine.PhaseInv, hq] using h, by
      unfold Engine.WritableInv Engine.written; rw [hq]; exact hw⟩
theorem phaseGood_mac (map : List Region) (e : Engine) (b) (hq : e.phase = .mac b) (hw :
    Answered map .write e.ctx.O.toNat e.ctx.n.toNat) : Engine.PhaseGood map e :=
  ⟨by simp [hq], by simp [Engine.PhaseInv, hq], by unfold Engine.WritableInv Engine.written; rw [hq]; exact hw⟩
theorem phaseGood_verify (map : List Region) (e : Engine) (hq : e.phase = .verify) (h : e.ctx.op = .decrypt) (hw :
    Answered map .write e.ctx.O.toNat e.ctx.n.toNat) : Engine.PhaseGood map e :=
  ⟨by simp [hq], by simpa [Engine.PhaseInv, hq] using h, by
      unfold Engine.WritableInv Engine.written; rw [hq]; exact hw⟩
theorem phaseGood_fill (map : List Region) (e : Engine) (o) (hq : e.phase = .fill o) (h : o < e.ctx.n.toNat ∧
    e.ctx.op = .decrypt ∧ e.acc ≠ 0) (hw : Answered map .write e.ctx.O.toNat e.ctx.n.toNat) :
    Engine.PhaseGood map e :=
  ⟨by simp [hq], by simpa [Engine.PhaseInv, hq] using h, by
      unfold Engine.WritableInv Engine.written; rw [hq]; exact hw⟩
theorem phaseGood_wipe (map : List Region) (e : Engine) (hq : e.phase = .wipe) (hw :
    Answered map .write e.ctx.O.toNat e.ctx.n.toNat) : Engine.PhaseGood map e :=
  ⟨by simp [hq], by simp [Engine.PhaseInv, hq], by unfold Engine.WritableInv Engine.written; rw [hq]; exact hw⟩
theorem phaseGood_afterAd (map : List Region) (e : Engine) (hq : e.phase = e.ctx.afterAd) :
    Engine.PhaseGood map e := by
  unfold Ctx.afterAd at hq
  split at hq
  · next h => exact phaseGood_msg _ _ 0 hq h (Answered.zero _ _ _)
  · next h => exact phaseGood_mac _ _ 0 hq (by rw [show e.ctx.n.toNat = 0 by omega]; exact Answered.zero _ _ _)
theorem phaseGood_afterInit (map : List Region) (e : Engine) (hq : e.phase = e.ctx.afterInit) :
    Engine.PhaseGood map e := by
  unfold Ctx.afterInit at hq
  split at hq
  · next h => exact phaseGood_ad _ _ 0 hq h
  · exact phaseGood_afterAd map e hq

/-- One internal step keeps the engine's invariant and the canonical form of memory. -/
theorem engineStep_inv (s : State) (h : s.eng.Inv s.map) (hm : s.mem.wf) : (engineStep s).eng.Inv s.map ∧
    (engineStep s).mem.wf := by
  have run : ∀ e' : Engine, e'.status = s.eng.status → e'.ctx = s.eng.ctx → (∀ op, e'.capture op =
      s.eng.capture op) → s.eng.phase ≠ .idle → Engine.PhaseGood s.map e' → e'.Inv s.map :=
    fun e' h1 h2 h3 hp hg => Engine.inv_of_running _ _ h hp _ h1 h2 h3 hg.1 hg.2.1 hg.2.2
  have wr : ∀ n, s.eng.written = n → Answered s.map .write s.eng.ctx.O.toNat n := fun n hn => hn ▸ h.writable
  unfold engineStep
  split
  · exact ⟨h, hm⟩
  · next i hi =>
    refine ⟨run _ rfl rfl (fun _ => rfl) (by simp [hi]) ?_, hm⟩
    have hq : (stepInit i s).eng.phase = (stepInit i s).eng.ctx.nextInit i := rfl
    unfold Ctx.nextInit at hq
    split at hq
    · exact phaseGood_init _ _ _ hq
    · exact phaseGood_afterInit _ _ hq
  · next b hb =>
    have hp : s.eng.phase ≠ .idle := by simp [hb]
    rcases stepAd_cases b s with ⟨-, he⟩ | he | ⟨he, -⟩
    · have hq : (stepAd b s).eng.phase = s.eng.ctx.nextAd b := by rw [he]
      have hc : (stepAd b s).eng.ctx = s.eng.ctx := by rw [he]
      refine ⟨run _ (by rw [he]) hc (fun _ => by rw [he]; rfl) hp ?_, by rw [he]; exact hm⟩
      unfold Ctx.nextAd at hq
      split at hq
      · next hl => exact phaseGood_ad _ _ _ hq (by rw [hc]; exact hl)
      · exact phaseGood_afterAd _ _ (by rw [hc]; exact hq)
    · rw [he]; exact busAbort_inv s h hp hm
    · rw [he]; exact ⟨h, hm⟩
  · next b hb =>
    have hp : s.eng.phase ≠ .idle := by simp [hb]
    rcases stepMsg_cases b s with ⟨-, hw, he⟩ | he | ⟨he, -⟩
    · have hbn : 16 * b < s.eng.ctx.n.toNat := by simpa [Engine.PhaseInv, hb] using h.phase
      have hwr := wr (16*b) (by simp [Engine.written, hb])
      have hout := Engine.outRange _ _ h hp
      have hboth : Answered s.map .write s.eng.ctx.O.toNat (16*b + blockLen s.eng.ctx.n.toNat b) := by
        intro j hj
        by_cases hj2 : j < 16*b
        · exact hwr j hj2
        · have := hw (j - 16*b) (by omega)
          rwa [show s.eng.ctx.O.toNat + 16*b + (j - 16*b) = s.eng.ctx.O.toNat + j by omega] at this
      have hq : (stepMsg b s).eng.phase = s.eng.ctx.nextMsg b := by rw [he]
      have hc : (stepMsg b s).eng.ctx = s.eng.ctx := by rw [he]
      refine ⟨run _ (by rw [he]) hc (fun _ => by rw [he]; rfl) hp ?_, ?_⟩
      · unfold Ctx.nextMsg at hq
        split at hq
        · next hl =>
          refine phaseGood_msg _ _ _ hq (by rw [hc]; exact hl) ?_
          have : blockLen s.eng.ctx.n.toNat b = 16 := by unfold blockLen; omega
          rw [hc]; rw [this] at hboth; exact hboth
        · next hl =>
          have : 16 * b + blockLen s.eng.ctx.n.toNat b = s.eng.ctx.n.toNat := by unfold blockLen; omega
          exact phaseGood_mac _ _ 0 hq (by rw [hc]; rw [this] at hboth; exact hboth)
      · rw [he]; exact Memory.wf_writeAll _ _ _ hm (by rw [payloadOut_length]; unfold blockLen; omega)
    · rw [he]; exact busAbort_inv s h hp hm
    · rw [he]; exact ⟨h, hm⟩
  · next j hj =>
    have hwr := wr s.eng.ctx.n.toNat (by simp [Engine.written, hj])
    refine ⟨run _ rfl rfl (fun _ => rfl) (by simp [hj]) ?_, hm⟩
    have hq : (stepMac j s).eng.phase = s.eng.ctx.nextMac j := rfl
    unfold Ctx.nextMac at hq
    split at hq
    · exact phaseGood_mac _ _ _ hq hwr
    · split at hq
      · next ho => exact phaseGood_verify _ _ hq ho hwr
      · exact phaseGood_wipe _ _ hq hwr
  · next hv =>
    have hwr := wr s.eng.ctx.n.toNat (by simp [Engine.written, hv])
    refine ⟨run _ rfl rfl (fun _ => rfl) (by simp [hv]) ?_, hm⟩
    have ho : s.eng.ctx.op = .decrypt := by simpa [Engine.PhaseInv, hv] using h.phase
    have hq : (stepVerify s).eng.phase = s.eng.ctx.nextVerify (stepVerify s).eng.acc := rfl
    unfold Ctx.nextVerify at hq
    split at hq
    · next hc => exact phaseGood_fill _ _ _ hq ⟨hc.2, ho, hc.1⟩ hwr
    · exact phaseGood_wipe _ _ hq hwr
  · next o hf =>
    have hp : s.eng.phase ≠ .idle := by simp [hf]
    have hwr := wr s.eng.ctx.n.toNat (by simp [Engine.written, hf])
    have hpi : o < s.eng.ctx.n.toNat ∧ s.eng.ctx.op = .decrypt ∧ s.eng.acc ≠ 0 := by simpa [Engine.PhaseInv,
        hf] using h.phase
    have hout := Engine.outRange _ _ h hp
    rcases stepFill_cases o s with ⟨-, he⟩ | ⟨-, he⟩ | ⟨-, he⟩
    · have hq : (stepFill o s).eng.phase = s.eng.ctx.nextFill o := by rw [he]
      have hc : (stepFill o s).eng.ctx = s.eng.ctx := by rw [he]
      refine ⟨run _ (by rw [he]) hc (fun _ => by rw [he]; rfl) hp ?_, by rw [he]; exact Memory.wf_write _ _ _ hm (by
          omega)⟩
      unfold Ctx.nextFill at hq
      split at hq
      · next hl =>
        have hacc : (stepFill o s).eng.acc = s.eng.acc := by rw [he]
        exact phaseGood_fill _ _ _ hq (by rw [hc, hacc]; exact ⟨hl, hpi.2⟩) (by rw [hc]; exact hwr)
      · exact phaseGood_wipe _ _ hq (by rw [hc]; exact hwr)
    · rw [he]; exact busAbort_inv s h hp hm
    · rw [he]; exact ⟨h, hm⟩
  · exact ⟨Engine.finish_withTag_inv _ _ _ _ rfl (by simp [Status.completed]), hm⟩

/-- An engine that is BUSY after an internal step was BUSY before it, with the same command. -/
theorem engineStep_ctx (s : State) (h : (engineStep s).eng.status.busy = true) : s.eng.status.busy = true ∧
    (engineStep s).eng.ctx = s.eng.ctx := by
  unfold engineStep at h ⊢
  split at h
  · exact ⟨h, rfl⟩
  · exact ⟨h, rfl⟩
  · next b _ =>
    rcases stepAd_cases b s with ⟨-, he⟩ | he | ⟨he, -⟩ <;> rw [he] at h ⊢
    · exact ⟨h, rfl⟩
    · cases h
    · exact ⟨h, rfl⟩
  · next b _ =>
    rcases stepMsg_cases b s with ⟨-, -, he⟩ | he | ⟨he, -⟩ <;> rw [he] at h ⊢
    · exact ⟨h, rfl⟩
    · cases h
    · exact ⟨h, rfl⟩
  · exact ⟨h, rfl⟩
  · exact ⟨h, rfl⟩
  · next o _ =>
    rcases stepFill_cases o s with ⟨-, he⟩ | ⟨-, he⟩ | ⟨-, he⟩ <;> rw [he] at h ⊢
    · exact ⟨h, rfl⟩
    · cases h
    · exact ⟨h, rfl⟩
  · cases h

/-- An internal step stores nothing outside the OUT range (R65). -/
theorem engineStep_outside (s : State) (h : s.eng.Inv s.map) {x : Nat} (hx : s.eng.ctx.outside x) :
    (engineStep s).mem.read x = s.mem.read x := by
  have hp := h.phase
  rcases engineStep_cases s with ⟨he, -⟩ | ⟨-, he | ⟨b, hb, he⟩ | ⟨o, ho, he⟩⟩ <;> rw [he]
  · exact Memory.read_drawAll_other _ _ _ _ _ hx
  · simp only [Engine.PhaseInv, hb] at hp
    refine Memory.read_writeAll_other _ _ _ _ ?_
    rw [payloadOut_length]
    simp only [Ctx.outside, blockLen] at *
    omega
  · simp only [Engine.PhaseInv, ho] at hp
    refine Memory.read_write_other _ _ _ _ ?_
    simp only [Ctx.outside] at hx
    omega

/-- What a step does to its engine depends on that engine, the platform and the bytes of AD and IN only, and without a
bus error so does what it stores. -/
theorem engineStep_congr {s u : State} (he : s.eng = u.eng) (hmap : s.map = u.map) (hi : s.eng.Inv s.map)
    (hm : s.mem.wf) (hm' : u.mem.wf)
    (hr : s.eng.phase ≠ .idle → ∀ x, s.eng.ctx.inBuffers x → s.mem.read x = u.mem.read x) :
    (engineStep s).eng = (engineStep u).eng ∧
    ((engineStep u).eng.status.err = false → ∀ x, s.mem.read x = u.mem.read x →
      (engineStep s).mem.read x = (engineStep u).mem.read x) := by
  have hph := hi.phase
  unfold engineStep
  rw [← he]
  cases hp : s.eng.phase with
  | idle => exact ⟨he, fun _ _ h => h⟩
  | init i => exact ⟨by simp only [stepInit, he], fun _ _ h => h⟩
  | mac j => exact ⟨by simp only [stepMac, he], fun _ _ h => h⟩
  | verify => exact ⟨by simp only [stepVerify, he], fun _ _ h => h⟩
  | wipe => exact ⟨by simp only [stepWipe, he], fun _ _ h => h⟩
  | ad b =>
    have hA : s.mem.readAll (s.eng.ctx.A.toNat + 16 * b) (blockLen s.eng.ctx.a.toNat b) =
        u.mem.readAll (s.eng.ctx.A.toNat + 16 * b) (blockLen s.eng.ctx.a.toNat b) :=
      Memory.readAll_congr _ _ _ _ fun j hj => hr (by simp [hp]) _ (.inl (by unfold blockLen at hj; omega))
    simp only [stepAd]
    rw [← hmap, ← he]
    rcases readBytes_kind s.map s.mem u.mem (s.eng.ctx.A.toNat + 16 * b) (blockLen s.eng.ctx.a.toNat b) with
      ⟨h, h'⟩ | ⟨h, h'⟩ | ⟨h, h'⟩ <;> simp only [h, h']
    · exact ⟨by simp only [busAbort_eng, he], fun h => Bool.noConfusion h⟩
    · exact ⟨he, fun _ _ h => h⟩
    · exact ⟨by rw [hA], fun _ _ h => h⟩
  | msg b =>
    have hI : s.mem.readAll (s.eng.ctx.I.toNat + 16 * b) (blockLen s.eng.ctx.n.toNat b) =
        u.mem.readAll (s.eng.ctx.I.toNat + 16 * b) (blockLen s.eng.ctx.n.toNat b) :=
      Memory.readAll_congr _ _ _ _ fun j hj => hr (by simp [hp]) _ (.inr (.inl (by unfold blockLen at hj; omega)))
    simp only [Engine.PhaseInv, hp] at hph
    have hout := Engine.outRange _ _ hi (by simp [hp])
    simp only [stepMsg]
    rw [← hmap, ← he]
    rcases readBytes_kind s.map s.mem u.mem (s.eng.ctx.I.toNat + 16 * b) (blockLen s.eng.ctx.n.toNat b) with
      ⟨h, h'⟩ | ⟨h, h'⟩ | ⟨h, h'⟩ <;> simp only [h, h']
    · exact ⟨by simp only [busAbort_eng, he], fun h => Bool.noConfusion h⟩
    · exact ⟨he, fun _ _ h => h⟩
    · rw [← hI]
      generalize hl : (blockBytes (payloadBlock s.eng.ctx.op s.eng.S _).2).take _ = l
      have hll : s.eng.ctx.O.toNat + 16 * b + l.length ≤ memorySize := by
        rw [← hl]; simp only [List.length_take, blockBytes_length, Memory.readAll_length]; unfold blockLen; omega
      rcases writeBytes_kind s.map s.mem u.mem (s.eng.ctx.O.toNat + 16 * b) l l rfl with
        ⟨h, h'⟩ | ⟨h, h'⟩ | ⟨h, h'⟩ <;> simp only [h, h']
      · exact ⟨by simp only [busAbort_eng, he], fun h => Bool.noConfusion h⟩
      · exact ⟨he, fun _ _ h => h⟩
      · exact ⟨trivial, fun _ x hx => Memory.read_writeAll_congr hm hm' hll hx⟩
  | fill o =>
    simp only [Engine.PhaseInv, hp] at hph
    have hout := Engine.outRange _ _ hi (by simp [hp])
    simp only [stepFill]
    rw [← hmap, ← he]
    rcases writeBytes_kind s.map s.mem u.mem (s.eng.ctx.O.toNat + o) [failByte] [failByte] rfl with
      ⟨h, h'⟩ | ⟨h, h'⟩ | ⟨h, h'⟩ <;> simp only [h, h']
    · exact ⟨by simp only [busAbort_eng, he], fun h => Bool.noConfusion h⟩
    · exact ⟨he, fun _ _ h => h⟩
    · exact ⟨trivial, fun _ x hx => Memory.read_writeAll_congr hm hm' (by simp; omega) hx⟩

/-! ## The system -/

theorem Ctx.conflicts_symm (c d : Ctx) : c.conflicts d = d.conflicts c := by
  simp [Ctx.conflicts, Bool.or_comm]
theorem Engine.Compatible.symm {e f : Engine} (h : e.Compatible f) : f.Compatible e := fun h1 h2 => by
    rw [Ctx.conflicts_symm]; exact h h2 h1

theorem swapPeer_inv (j) (s : State) (h : s.Inv) : (swapPeer j s).Inv := by
  have hp := swapPeer_engines_perm j s
  refine ⟨fun e he => by rw [swapPeer_map]; exact h.engines e (hp.mem_iff.mp he), ?_, by
      rw [swapPeer_mem]; exact h.memory⟩
  exact (hp.pairwise_iff (fun hab => Engine.Compatible.symm hab)).mpr h.compatible

/-- The system keeps its invariant when the engine in focus is replaced by one that keeps its own. -/
theorem focus_inv (s t : State) (h : s.Inv) (hpe : t.peers = s.peers) (hmap : t.map = s.map) (hm : t.mem.wf) (he :
    t.eng.Inv s.map)
   (hc : ∀ f ∈ s.peers, t.eng.Compatible f) : t.Inv := by
  have hall := h.engines
  have hpw := List.pairwise_cons.mp h.compatible
  refine ⟨fun e hin => ?_, List.pairwise_cons.mpr ⟨by rw [hpe]; exact hc, by rw [hpe]; exact hpw.2⟩, hm⟩
  rw [hmap]
  rcases List.mem_cons.mp hin with rfl | hin
  · exact he
  · rw [hpe] at hin; exact hall e (List.mem_cons_of_mem _ hin)

theorem State.Inv.compat_of_sub (s : State) (h : s.Inv) (e' : Engine) (hb : e'.status.busy = true →
    s.eng.status.busy = true ∧ e'.ctx = s.eng.ctx) : ∀ f ∈ s.peers, e'.Compatible f := by
  intro f hf h1 h2
  have hpw := List.pairwise_cons.mp h.compatible
  obtain ⟨h3, h4⟩ := hb h1
  rw [h4]; exact hpw.1 f hf h3 h2

theorem State.Inv.eng (s : State) (h : s.Inv) : s.eng.Inv s.map := h.engines _ (List.mem_cons_self ..)

/-- A step of an engine keeps the invariant of the system. -/
theorem tickEngine_inv (k : Nat) (s : State) (h : s.Inv) : (tickEngine k s).Inv := by
  have step : ∀ r : State, r.Inv → (engineStep r).Inv := fun r hr => by
    have he := engineStep_inv r hr.eng hr.memory
    have ha := (engineStep_around r).1
    exact focus_inv r _ hr ha.1 ha.2.1 he.2 he.1 (hr.compat_of_sub r _ (engineStep_ctx r))
  cases k with
  | zero => exact step s h
  | succ j => exact swapPeer_inv j _ (step _ (swapPeer_inv j s h))

end Sys2Proof.Machine
end

