-- ==== Sys2Proof/Laws/PerInstr.lean ====
section
/-! SUPPORT. Statements made of every instruction, one lemma per constructor. -/

/-- The instruction is well formed, and so are the fields of the word that encodes it (R91, R92). -/
def Sys2Proof.Laws.EncodingFields.Statement (i : Sys2Proof.Instr) : Prop :=
  i.wellFormed = true ∧ (Sys2Proof.wordFields (Sys2Proof.encode i)).wellFormed = true

theorem Sys2Proof.Laws.EncodingFields.nop : Sys2Proof.Laws.EncodingFields.Statement .nop := by
  unfold Sys2Proof.Laws.EncodingFields.Statement; decide

theorem Sys2Proof.Laws.EncodingFields.encrypt : Sys2Proof.Laws.EncodingFields.Statement .encrypt := by
  unfold Sys2Proof.Laws.EncodingFields.Statement; decide

theorem Sys2Proof.Laws.EncodingFields.decrypt : Sys2Proof.Laws.EncodingFields.Statement .decrypt := by
  unfold Sys2Proof.Laws.EncodingFields.Statement; decide
end

