-- ==== Sys2Proof/Laws/Run.lean ====
section
/-! SUPPORT. Whole phases of an accepted command, step after step (spec/42_commands.md R178, R179): one lemma per
phase, each saying in which state the phase leaves the system. -/

namespace Sys2Proof.Machine

/-- The load of `Init` overwrites every lane: what stood in `S` before does not matter (R118). -/
theorem loadIV_indep (s t : S512) : loadIV s = loadIV t := by
  have key : ∀ (u : S512) (n : Nat), n ≤ 8 → ∀ i, i < n →
      laneX (forUpTo n (fun i t => setY (setX t i (initialValue.getD i 0)) i (initialValue.getD (8 + i) 0)) u) i =
          initialValue.getD i 0 ∧
      laneY (forUpTo n (fun i t => setY (setX t i (initialValue.getD i 0)) i (initialValue.getD (8 + i) 0)) u) i =
          initialValue.getD (8+i) 0 := by
    intro u n hn
    induction n with
    | zero => intro i hi; omega
    | succ n ih =>
      intro i hi
      rw [forUpTo_succ, laneX_setY _ _ _ _ (by omega) (by omega), laneX_setX _ _ _ _ (by omega), laneY_setY _ _ _ _
          (by omega), laneY_setX _ _ _ _ (by omega)]
      by_cases h : i = n
      · subst h; simp
      · rw [if_neg h, if_neg h]; exact ih (by omega) i (by omega)
  refine s512_extLanes (fun i hi => ?_) (fun i hi => ?_)
  · exact ((key s 8 (Nat.le_refl _) i hi).1).trans ((key t 8 (Nat.le_refl _) i hi).1).symm
  · exact ((key s 8 (Nat.le_refl _) i hi).2).trans ((key t 8 (Nat.le_refl _) i hi).2).symm

/-- The system while the engine in focus runs the command `c`, with its hidden state and memory named. -/
def running (s : State) (c : Ctx) (S : S512) (blk rtag : Block) (acc : Byte) (ph : Phase) (m : Memory) : State :=
  { s with
    mem := m
    eng := { s.eng with
      status := Status.accepted, ctx := c, S := S, blk := blk, rtag := rtag, acc := acc, phase := ph } }

/-- INIT(0) to INIT(19): twenty steps compute `Init(K, N)` (R118). -/
theorem engineSteps_init (s : State) (c : Ctx) (S blk rtag acc m) :
    engineSteps 20 (running s c S blk rtag acc (.init 0) m) = running s c
        (init c.K c.N) blk rtag acc c.afterInit m := by
  have h : ∀ i, (hi : i < 20) → engineSteps (i+1) (running s c S blk rtag acc (.init 0) m) =
     running s c (forUpTo (i+1) initUpdate (initLoad c.K c.N S)) blk rtag acc (c.nextInit ⟨i, hi⟩) m := by
    intro i hi
    induction i with
    | zero => rfl
    | succ i ih =>
      rw [engineSteps_succ', ih (by omega)]
      have : c.nextInit ⟨i, by omega⟩ = .init ⟨i+1, hi⟩ := by simp [Ctx.nextInit, hi]
      rw [this, forUpTo_succ (i+1)]
      simp only [engineStep, running, stepInit]
      simp
  have := h 19 (by omega)
  rw [show initLoad c.K c.N S = initLoad c.K c.N 0 by unfold initLoad; rw [loadIV_indep S 0]] at this
  rw [this]; rfl

/-- The AD phase absorbs the associated data, block by block (R145, R178). -/
theorem engineSteps_ad (s : State) (c : Ctx) (S rtag acc m) (hA : Answered s.map .read c.A.toNat c.a.toNat) (blk) :
   ∃ blk', engineSteps (blockCount c.a.toNat) (running s c S blk rtag acc c.afterInit m) = running s c
       (absorbLoop S (m.readAll c.A.toNat c.a.toNat) (blockCount c.a.toNat)) blk' rtag acc c.afterAd m := by
  by_cases h0 : c.a.toNat = 0
  · have : blockCount c.a.toNat = 0 := by rw [h0]; rfl
    rw [this]
    exact ⟨blk, by simp [engineSteps, Ctx.afterInit, h0]⟩
  · have hph : c.afterInit = .ad 0 := by simp [Ctx.afterInit, Nat.pos_of_ne_zero h0]
    have h : ∀ b, b < blockCount c.a.toNat → ∃ blk', engineSteps (b+1) (running s c S blk rtag acc c.afterInit m) =
        running s c (absorbLoop S (m.readAll c.A.toNat c.a.toNat) (b+1)) blk' rtag acc (c.nextAd b) m := by
      have step : ∀ b S' blk0, b < blockCount c.a.toNat → ∃ blk', engineStep (running s c S' blk0 rtag acc
          (.ad b) m) = running s c (encBlock S' (pad (segment (m.readAll c.A.toNat c.a.toNat) b))).1 blk' rtag acc
          (c.nextAd b) m := by
        intro b S' blk0 hb
        have hr : readBytes s.map m (c.A.toNat + 16*b) (blockLen c.a.toNat b) = .ok (segment
            (m.readAll c.A.toNat c.a.toNat) b) := by
          rw [readBytes_ok_iff]
          refine ⟨fun j hj => ?_, ?_⟩
          · have := hA (16*b + j) (by unfold blockLen at hj; omega)
            rwa [← Nat.add_assoc] at this
          · rw [Memory.readAll_segment]; rfl
        refine ⟨mask S' (pad (segment (m.readAll c.A.toNat c.a.toNat) b)), ?_⟩
        · simp only [engineStep, running, stepAd, hr, encBlock]
      intro b hb
      induction b with
      | zero =>
        obtain ⟨blk', h⟩ := step 0 S blk hb
        exact ⟨blk', by rw [hph]; exact h⟩
      | succ b ih =>
        obtain ⟨blk1, h1⟩ := ih (by omega)
        have : c.nextAd b = .ad (b+1) := by
          have : 16*(b+1) < c.a.toNat := by unfold blockCount at hb; omega
          simp [Ctx.nextAd, this]
        obtain ⟨blk2, h2⟩ := step (b+1) (absorbLoop S (m.readAll c.A.toNat c.a.toNat) (b+1)) blk1 hb
        exact ⟨blk2, by rw [engineSteps_succ', h1, this, h2, absorbLoop_succ _ _ (b+1)]⟩
    have hpos : 0 < blockCount c.a.toNat := by unfold blockCount; omega
    obtain ⟨blk', h'⟩ := h (blockCount c.a.toNat - 1) (by omega)
    rw [Nat.sub_add_cancel hpos] at h'
    refine ⟨blk', h'.trans ?_⟩
    have : c.nextAd (blockCount c.a.toNat - 1) = c.afterAd := by
      have : ¬ 16 * (blockCount c.a.toNat - 1 + 1) < c.a.toNat := by unfold blockCount; omega
      simp [Ctx.nextAd, this]
    rw [this]

/-- One block of the payload of either command. -/
def payloadStep (op : Op) (M : List Byte) (st : S512 × List Byte) (b : Nat) : S512 × List Byte :=
  let r := payloadBlock op st.1 (segment M b)
  (r.1, st.2 ++ (blockBytes r.2).take (segment M b).length)

/-- The first `q` blocks of the payload of either command, from the state `S`. -/
def payloadLoop (op : Op) (S : S512) (M : List Byte) (q : Nat) := (List.range q).foldl (payloadStep op M) (S, [])
theorem payloadLoop_succ (op S M q) : payloadLoop op S M (q+1) = payloadStep op M (payloadLoop op S M q) q := by
  simp [payloadLoop, List.range_succ]
theorem payloadLoop_length (op s M q) : (payloadLoop op s M q).2.length = min (16 * q) M.length := by
  induction q with
  | zero => simp [payloadLoop]
  | succ q ih =>
    rw [payloadLoop_succ]
    simp only [payloadStep, List.length_append, List.length_take, blockBytes_length, ih, segment_length]
    omega

/-- The MSG phase processes the payload, in place or not, and writes the output (R147, R149, R178, R179). -/
theorem engineSteps_msg (s : State) (c : Ctx) (S rtag acc) (m : Memory) (hI :
    Answered s.map .read c.I.toNat c.n.toNat) (hO : Answered s.map .write c.O.toNat c.n.toNat)
    (hov : c.overlapBad = false) (blk) :
   ∃ blk', engineSteps (blockCount c.n.toNat) (running s c S blk rtag acc c.afterAd m) =
     running s c (payloadLoop c.op S (m.readAll c.I.toNat c.n.toNat) (blockCount c.n.toNat)).1 blk' rtag acc
         (.mac 0) (m.writeAll c.O.toNat (payloadLoop c.op S (m.readAll c.I.toNat c.n.toNat)
         (blockCount c.n.toNat)).2) := by
  by_cases h0 : c.n.toNat = 0
  · have : blockCount c.n.toNat = 0 := by rw [h0]; rfl
    rw [this]
    exact ⟨blk, by simp [engineSteps, Ctx.afterAd, Ctx.afterMsg, h0, payloadLoop]⟩
  · have hph : c.afterAd = .msg 0 := by simp [Ctx.afterAd, Nat.pos_of_ne_zero h0]
    generalize hM : m.readAll c.I.toNat c.n.toNat = M
    have hMl : M.length = c.n.toNat := by rw [← hM]; simp
    have hdis : c.O = c.I ∨ c.O.toNat + c.n.toNat ≤ c.I.toNat ∨ c.I.toNat + c.n.toNat ≤ c.O.toNat := by
      simp only [Ctx.overlapBad, overlaps, Bool.or_eq_false_iff, Bool.and_eq_false_iff, decide_eq_false_iff_not,
          bne_eq_false_iff_eq] at hov
      rcases hov.2 with h | h
      · omega
      · exact .inl h
    have step : ∀ b S' blk0 out, b < blockCount c.n.toNat → out.length = 16*b → ∃ blk', engineStep
        (running s c S' blk0 rtag acc (.msg b) (m.writeAll c.O.toNat out)) =
        running s c (payloadStep c.op M (S', out) b).1 blk' rtag acc (c.nextMsg b) (m.writeAll c.O.toNat
            (payloadStep c.op M (S', out) b).2) := by
      intro b S' blk0 out hb hout
      have hbn : 16 * b < c.n.toNat := by unfold blockCount at hb; omega
      have hr : readBytes s.map (m.writeAll c.O.toNat out) (c.I.toNat + 16*b) (blockLen c.n.toNat b) = .ok
          (segment M b) := by
        rw [readBytes_ok_iff]
        refine ⟨fun j hj => ?_, ?_⟩
        · have := hI (16*b + j) (by unfold blockLen at hj; omega)
          rwa [← Nat.add_assoc] at this
        · rw [← hM, Memory.readAll_segment]
          apply Memory.readAll_congr
          intro j hj
          rw [Memory.read_writeAll_other]
          rw [hout]
          rcases hdis with h | h | h
          · rw [h]; omega
          · omega
          · omega
      have hlen : (segment M b).length = blockLen c.n.toNat b := by rw [segment_length, hMl]; rfl
      have hw : writeBytes s.map (m.writeAll c.O.toNat out) (c.O.toNat + 16*b) ((blockBytes (payloadBlock c.op S'
          (segment M b)).2).take (segment M b).length) =
          .ok ((m.writeAll c.O.toNat out).writeAll (c.O.toNat + 16*b) ((blockBytes (payloadBlock c.op S'
              (segment M b)).2).take (segment M b).length)) := by
        rw [writeBytes_ok_iff]
        refine ⟨fun j hj => ?_, rfl⟩
        have := hO (16*b + j) (by rw [hlen] at hj; simp only [List.length_take,
            blockBytes_length] at hj; unfold blockLen at hj; omega)
        rwa [← Nat.add_assoc] at this
      refine ⟨(payloadBlock c.op S' (segment M b)).2, ?_⟩
      simp only [engineStep, running, stepMsg, hr, hw, payloadStep]
      rw [Memory.writeAll_append, hout]
    have h : ∀ b, b < blockCount c.n.toNat → ∃ blk', engineSteps (b+1) (running s c S blk rtag acc c.afterAd m) =
        running s c (payloadLoop c.op S M (b+1)).1 blk' rtag acc (c.nextMsg b) (m.writeAll c.O.toNat
        (payloadLoop c.op S M (b+1)).2) := by
      intro b hb
      induction b with
      | zero =>
        obtain ⟨blk', h⟩ := step 0 S blk [] hb rfl
        exact ⟨blk', by rw [hph]; exact h⟩
      | succ b ih =>
        obtain ⟨blk1, h1⟩ := ih (by omega)
        have : c.nextMsg b = .msg (b+1) := by
          have : 16*(b+1) < c.n.toNat := by unfold blockCount at hb; omega
          simp [Ctx.nextMsg, this]
        obtain ⟨blk2, h2⟩ := step (b+1) (payloadLoop c.op S M (b+1)).1 blk1 (payloadLoop c.op S M (b+1)).2 hb (by
            rw [payloadLoop_length, hMl]; unfold blockCount at hb; omega)
        exact ⟨blk2, by rw [engineSteps_succ', h1, this, h2, payloadLoop_succ _ _ _ (b+1)]⟩
    have hpos : 0 < blockCount c.n.toNat := by unfold blockCount; omega
    obtain ⟨blk', h'⟩ := h (blockCount c.n.toNat - 1) (by omega)
    rw [Nat.sub_add_cancel hpos] at h'
    refine ⟨blk', h'.trans ?_⟩
    have : c.nextMsg (blockCount c.n.toNat - 1) = .mac 0 := by
      have : ¬ 16 * (blockCount c.n.toNat - 1 + 1) < c.n.toNat := by unfold blockCount; omega
      simp [Ctx.nextMsg, this, Ctx.afterMsg]
    rw [this]

/-- The MAC phase derives the tag (R151). -/
theorem engineSteps_mac (s : State) (c : Ctx) (S blk rtag acc m) :
   engineSteps 10 (running s c S blk rtag acc (.mac 0) m) = running s c (forUpTo 10
       (fun _ t => macUpdate c.a c.n t) S) blk (mac S c.a c.n) acc (if c.op = .decrypt then .verify else .wipe) m :=
       by
  rfl

theorem payloadLoop_encrypt (S M q) : payloadLoop .encrypt S M q = encryptLoop S M q := by
  unfold payloadLoop encryptLoop
  congr 1
theorem payloadLoop_decrypt (S M q) : payloadLoop .decrypt S M q = decryptLoop S M q := by
  unfold payloadLoop decryptLoop
  congr 1

/-- The FILL phase overwrites the whole output (R153). -/
theorem engineSteps_fill (s : State) (c : Ctx) (S blk rtag acc) (m : Memory) (hO :
    Answered s.map .write c.O.toNat c.n.toNat) (h0 : 0 < c.n.toNat) :
   engineSteps c.n.toNat (running s c S blk rtag acc (.fill 0) m) = running s c S blk rtag acc .wipe
       (m.writeAll c.O.toNat (List.replicate c.n.toNat failByte)) := by
  have h : ∀ o, o < c.n.toNat → engineSteps (o+1) (running s c S blk rtag acc (.fill 0) m) =
      running s c S blk rtag acc (c.nextFill o) (m.writeAll c.O.toNat (List.replicate (o+1) failByte)) := by
    have step : ∀ o m', o < c.n.toNat → engineStep (running s c S blk rtag acc (.fill o) m') =
        running s c S blk rtag acc (c.nextFill o) (m'.write (c.O.toNat + o) failByte) := by
      intro o m' ho
      have : memResponse s.map .write (c.O.toNat + o) = .ok := hO o ho
      simp only [engineStep, running, stepFill, writeBytes, this]
    intro o ho
    induction o with
    | zero => exact step 0 m ho
    | succ o ih =>
      rw [engineSteps_succ', ih (by omega)]
      have : c.nextFill o = .fill (o+1) := by simp [Ctx.nextFill, ho]
      rw [this, step (o+1) _ ho]
      congr 1
      rw [show List.replicate (o+1+1) failByte = List.replicate
          (o+1) failByte ++ [failByte] from List.replicate_succ']
      rw [Memory.writeAll_append]; simp [Memory.writeAll]
  have h' := h (c.n.toNat - 1) (by omega)
  rw [Nat.sub_add_cancel h0] at h'
  rw [h']
  have : c.nextFill (c.n.toNat - 1) = .wipe := by
    have : ¬ c.n.toNat - 1 + 1 < c.n.toNat := by omega
    simp [Ctx.nextFill, this]
  rw [this]

end Sys2Proof.Machine
end

