-- ==== Sys2Proof/Tests/Slice0.lean ====
section
/-! SUPPORT. The model's own tests: the checks of WellFormed, decoding of written-out words, vectors of
spec/95_test_vectors.md (each test names its vector), and one witness for every hypothesis of the statements. -/

namespace Sys2Proof.Tests

open Sys2Proof Sys2Proof.Machine

/-! ## WellFormed: an ill-formed term for each check -/

theorem test_reservedZero_refuses : ({ op := 0x1, rsvd := 0x1 } : CmdWord).wellFormed = false := by decide
theorem test_reservedZero_refuses_top : ({ op := 0x2, rsvd := 0x8000000 } : CmdWord).wellFormed = false := by decide
theorem test_opDefined_refuses : ({ op := 0x3, rsvd := 0x0 } : CmdWord).wellFormed = false := by decide
theorem test_opDefined_refuses_top : ({ op := 0xF, rsvd := 0x0 } : CmdWord).wellFormed = false := by decide
theorem test_wellFormed_accepts : ({ op := 0x2, rsvd := 0x0 } : CmdWord).wellFormed = true := by decide

/-! ## Decoding of words written out from R91 and R93: 28 zeros, then the four bits of OP -/

theorem test_decode_nop : decode (0b0000000000000000000000000000#28 ++ 0b0000#4) = .ok .nop := by decide
theorem test_decode_encrypt : decode (0b0000000000000000000000000000#28 ++ 0b0001#4) = .ok .encrypt := by decide
theorem test_decode_decrypt : decode (0b0000000000000000000000000000#28 ++ 0b0010#4) = .ok .decrypt := by decide
theorem test_decode_op3 : decode (0b0000000000000000000000000000#28 ++ 0b0011#4) = .error .reservedOp := by decide
/-- V10: 0x11, "OP = 1 but bit 4 set". -/
theorem test_decode_bit4 : decode (0b0000000000000000000000000001#28 ++ 0b0001#4) = .error .reservedBits := by decide
theorem test_decodeTableWord :
    decodeTableWord 32 0 = some .nop ∧ decodeTableWord 32 1 = some .encrypt ∧ decodeTableWord 32 2 = some .decrypt ∧
      decodeTableWord 32 3 = none ∧ decodeTableWord 32 0x12 = none := by decide

/-! ## Vectors of the permutation and the functions above it -/

/-- The lanes `x` and `y` of a state. -/
def lanes (s : S512) : List Word × List Word := ((List.range 8).map (laneX s), (List.range 8).map (laneY s))

/-- The state with the given 64 bytes' words, `x` first. -/
def ofWords (l : List Word) : S512 := l.foldr (fun w acc => (acc <<< 32) ||| w.setWidth 512) 0

def testKey : Key := 0x0101010101010101010101010101010101010101010101010101010101010101
def testNonce : Nonce := 0x0202020202020202020202020202020202020202

/-- V1. -/
theorem test_rotr32 :
    rotr32 0x80000001 1 = 0xc0000000 ∧ rotr32 0x12345678 0 = 0x12345678 ∧ rotr32 0x12345678 17 = 0x2b3c091a ∧
      rotr32 0x12345678 31 = 0x2468acf0 := by decide

/-- V2.2. -/
theorem test_permute_zero : lanes (permute 0) =
    ([0x84828dee, 0x6b2168bc, 0xee400e05, 0xec5394e9, 0xe06d7440, 0x3ab36cf5, 0x032cc541, 0xf062fc1c],
     [0xd6a04734, 0x34fdf379, 0x1bd52c02, 0x96a62992, 0x3a8cf415, 0xd0a56d09, 0xd7370431, 0x92fdd6dd]) := by
  decide +kernel

/-- V3.2. -/
theorem test_update_iv : lanes (update 1 2 (ofWords initialValue)) =
    ([0x0897dbe2, 0x66c7fad6, 0x65027c54, 0xf450e155, 0x586afb7c, 0x7dd45af1, 0x8bd0975b, 0x5ae87851],
     [0xcaf4afd2, 0x261d7991, 0x90b42181, 0x210bbc3f, 0xb234e90f, 0x6376ecf3, 0x939b9588, 0x7caf68a5]) := by
  decide +kernel

/-- V4.1: after the IV load and the key/nonce XOR. -/
theorem test_initLoad : lanes (initLoad testKey testNonce 0) =
    ([0x253e6b89, 0x84a209d2, 0x12188b2f, 0x02717245, 0xa5083923, 0x289e30d1, 0x092ffb99, 0xed4f6d88],
     [0x472a23e4, 0x3ad21175, 0xbc5664cd, 0x36eb0e6e, 0xc2ae2bb5, 0xc97c50dd, 0x3f84d5b5, 0xb5470917]) := by
  decide +kernel

/-- V4.1: the result of `Init`, written out. -/
def testInit : S512 := ofWords
  [0x04887c23, 0x4ff0a5c5, 0xe90403c9, 0x0a6aeb63, 0x11a6e275, 0xd5e83c63, 0xaa92b59f, 0x5fff6d8c,
   0x75b48e38, 0x13819a73, 0x160f6ffd, 0x127a466b, 0x7eda95be, 0x5daa7149, 0x8278c2ec, 0x470e7624]

/-- V4.1. -/
theorem test_init : init testKey testNonce = testInit := by decide +kernel

/-- V5.1: the block 00 01 .. 0f. -/
theorem test_encBlock : encBlock testInit 0x0f0e0d0c0b0a09080706050403020100 =
    (ofWords
      [0xbe46baf5, 0xb5d4cae1, 0x1dd32b2f, 0x58239b6c, 0x6738b0e3, 0x6d1429db, 0xfca7bf70, 0xd4be346c,
       0x79c99a65, 0x76d8d94c, 0x4d1470bb, 0xfb010b4f, 0x07127211, 0x460081d3, 0x5fbd87a1, 0x3dc4c6e6],
     0x17ff16a423e07e7b8f44482e6c7e76cb) := by decide +kernel

/-- V6.2, r = 9: `p` of the last block, and the two lanes that the rollback changes. -/
theorem test_rollback :
    (decBlock testInit (pad [0xcb, 0x76, 0x7e, 0x6c, 0x2e, 0x48, 0x44, 0x8f, 0x7b])).2 =
      0x18f11ba828ea77080706050403020100 ∧
    laneY (decBlock testInit (pad [0xcb, 0x76, 0x7e, 0x6c, 0x2e, 0x48, 0x44, 0x8f, 0x7b])).1 0 = 0x5a29e465 ∧
    laneY (decPayloadBlock testInit [0xcb, 0x76, 0x7e, 0x6c, 0x2e, 0x48, 0x44, 0x8f, 0x7b]).1 0 = 0x72c39365 ∧
    laneY (decPayloadBlock testInit [0xcb, 0x76, 0x7e, 0x6c, 0x2e, 0x48, 0x44, 0x8f, 0x7b]).1 1 = 0x79d6d440 := by
  decide +kernel

/-- V7.2 and V7.3. -/
theorem test_mac : mac testInit 0 0 = 0x330050f237ff8a973afcc36cb3c06581 ∧
    ctEq 0x20b365f984f4b92bef3adac9c4e9d846 0x20b365f984f4b92bef3adac9c4e9d846 = true ∧
    ctEq 0x20b365f984f4b92bef3adac9c4e9d846 0xa0b365f984f4b92bef3adac9c4e9d846 = false := by decide +kernel

/-- R92: byte `4k + j` is bits `[8j+7:8j]` of register `k`, written out for bytes 00, 01, 02, … -/
theorem test_operand_bytes :
    ({ Engine.reset with
        key := #v[0x03020100, 0x07060504, 0x0b0a0908, 0x0f0e0d0c, 0x13121110, 0x17161514, 0x1b1a1918, 0x1f1e1d1c]
      } : Engine).keyBytes = 0x1f1e1d1c1b1a191817161514131211100f0e0d0c0b0a09080706050403020100 ∧
    ({ Engine.reset with nonce := #v[0x03020100, 0x07060504, 0x0b0a0908, 0x0f0e0d0c, 0x13121110] } : Engine).nonceBytes =
      0x131211100f0e0d0c0b0a09080706050403020100 ∧
    tagWords 0x20b365f984f4b92bef3adac9c4e9d846 = #v[0xc4e9d846, 0xef3adac9, 0x84f4b92b, 0x20b365f9] := by decide +kernel

/-! ## Single steps (V10, L3.4) -/

/-- The engine of V10: from reset, with KEY and NONCE written. -/
def keyed : Engine :=
  { Engine.reset with
    key := #v[0x01010101, 0x01010101, 0x01010101, 0x01010101, 0x01010101, 0x01010101, 0x01010101, 0x01010101]
    nonce := #v[0x02020202, 0x02020202, 0x02020202, 0x02020202, 0x02020202] }

/-- That engine with buffers: AD, IN and OUT address, AD and IN length. -/
def withBuffers (A I O a n : Nat) : Engine :=
  { keyed with
    adAddrLo := BitVec.ofNat 32 A, adAddrHi := BitVec.ofNat 32 (A / 2 ^ 32)
    adLenLo := BitVec.ofNat 32 a, adLenHi := BitVec.ofNat 32 (a / 2 ^ 32)
    inAddrLo := BitVec.ofNat 32 I, inAddrHi := BitVec.ofNat 32 (I / 2 ^ 32)
    inLenLo := BitVec.ofNat 32 n, inLenHi := BitVec.ofNat 32 (n / 2 ^ 32)
    outAddrLo := BitVec.ofNat 32 O, outAddrHi := BitVec.ofNat 32 (O / 2 ^ 32) }

/-- The system with that engine and the rest at reset. -/
def withEngine (e : Engine) : State := { State.reset with eng := e }

/-- STATUS after a step with a command word. -/
def statusAfter (e : Engine) (w : Nat) : Option Word :=
  match step ((withEngine e).withFetchWord 32 w) with
  | .next t => some t.eng.status.toWord
  | _ => none

/-- V10: NOP from reset leaves STATUS 0. -/
theorem test_nop : statusAfter keyed 0x00000000 = some 0x00000000 := by decide
/-- L3.4: NOP after a rejection changes nothing. -/
theorem test_nop_keeps_error :
    statusAfter { keyed with status := Status.rejected .overlap } 0x00000000 = some 0x0000003A := by decide
/-- V10: RANGE takes priority over OVERLAP. -/
theorem test_encrypt_range : statusAfter (withBuffers 0 (2 ^ 64 - 16) (2 ^ 64 - 8) 0 32) 1 = some 0x0000002A := by decide
/-- V10: the buffer that ends exactly at 2^64 is accepted; R177: STATUS is 1. -/
theorem test_encrypt_top : statusAfter (withBuffers 0 (2 ^ 64 - 16) 0x3000 0 16) 1 = some 0x00000001 := by decide
/-- V10: OUT = 0x1008 overlaps IN = 0x1000. -/
theorem test_decrypt_overlap : statusAfter (withBuffers 0 0x1000 0x1008 0 16) 2 = some 0x0000003A := by decide
/-- V10: OUT = 0x1010 is adjacent to IN and accepted. -/
theorem test_decrypt_adjacent : statusAfter (withBuffers 0 0x1000 0x1010 0 16) 2 = some 0x00000001 := by decide
/-- V10: ILLEGAL_CMD takes priority; and 0x3 and 0x11 are illegal. -/
theorem test_illegal : statusAfter (withBuffers 0 (2 ^ 64 - 16) 0 0 32) 0x10 = some 0x0000001A ∧
    statusAfter keyed 0x3 = some 0x0000001A ∧ statusAfter keyed 0x11 = some 0x0000001A := by decide
/-- V10: a CMD write while BUSY is ignored. -/
theorem test_busy : statusAfter { keyed with status := Status.accepted, phase := .init 0 } 3 = some 0x00000001 := by decide
/-- V10: the write of 1 to DONE after 0x1A leaves 0x18. -/
theorem test_ack : ((Status.rejected .illegalCmd).hostWrite 0x00000002).toWord = 0x00000018 := by decide
/-- L3.6: a store to memory is read back, and the other engine access raises `BusError` at 0x3010. -/
theorem test_memOK : memOK [⟨0x3010, 2 ^ 64, .ok, .busError⟩] .write 0x300F = true ∧
    memOK [⟨0x3010, 2 ^ 64, .ok, .busError⟩] .write 0x3010 = false ∧
    memOK [⟨0x3010, 2 ^ 64, .ok, .busError⟩] .read 0x3010 = true := by decide
/-- L3.5's encoding, its last twelve pairs. -/
theorem test_script : Script.encoding (Script.setbufAd 0 0 ++ Script.setbufIn 0x2000 0x11 ++ Script.setout 0x3000 ++
      Script.encrypt) =
    [(0x60, 0), (0x64, 0), (0x68, 0), (0x6c, 0), (0x70, 0x2000), (0x74, 0), (0x78, 0x11), (0x7c, 0),
     (0x80, 0x3000), (0x84, 0), (0x00, 1)] := by decide

/-! ## Witnesses

States that meet the hypotheses of the statements, together; the boundary values of their clauses. -/

/-- AD of 20 bytes, IN of 17 bytes, OUT beside them: every phase occurs. -/
def ready : State := withEngine (withBuffers 0x1000 0x2000 0x3000 20 17)

/-- A command of `ready` that runs and has come to a phase, on a platform `map`. -/
def at_ (map : List Region) (op : Op) (ph : Phase) : State :=
  { ready with map := map, eng := { (accept op ready).eng with phase := ph, acc := if ph.isFill then 1 else 0 } }

/-- Two engines, running in disjoint buffers. -/
def two : State :=
  { at_ [] .encrypt (.msg 0) with
    peers := [(accept .decrypt (withEngine (withBuffers 0x1000 0x4000 0x5000 20 17))).eng] }

/-- Two engines, the one in focus idle, with an OUT range that the other's command reads. -/
def clash : State := { withEngine (withBuffers 0x9000 0x8000 0x2000 16 1) with peers := [(accept .encrypt ready).eng] }

theorem inv_of_single {s : State} (hp : s.peers = []) (hm : s.mem.wf) (he : s.eng.Inv s.map) : s.Inv :=
  ⟨by simpa [State.engines, hp] using he, by simp [State.engines, hp], hm⟩

theorem inv_of_running {e : Engine} {map : List Region} (hs : e.StatusInv) (hi : e.phase ≠ .idle)
    (hc : e.ctx = e.capture e.ctx.op ∧ e.ctx.op ≠ .none ∧ e.ctx.rangeBad = false ∧ e.ctx.overlapBad = false)
    (hp : e.PhaseInv) (hw : e.WritableInv map) : e.Inv map :=
  ⟨hs, fun h => absurd h hi, fun _ => hc, hp, hw⟩

theorem ready_inv : ready.Inv := inv_of_single rfl (by decide)
  ⟨by decide, fun _ => ⟨rfl, rfl, rfl, rfl, rfl⟩, fun h => absurd rfl h, trivial, fun j hj => absurd hj (Nat.not_lt_zero j)⟩

theorem init_inv : (at_ [] .decrypt (.init 0)).Inv := inv_of_single rfl (by decide)
  (inv_of_running (by decide) (by decide) (by decide +kernel) trivial (fun j hj => absurd hj (Nat.not_lt_zero j)))

theorem ad_inv (map : List Region) : (at_ map .encrypt (.ad 1)).Inv :=
  inv_of_single rfl (show Memory.wf [] by decide)
    (show (at_ [] .encrypt (.ad 1)).eng.Inv map from
      inv_of_running (by decide) (by decide) (by decide +kernel) (by show _ < _; decide)
        (fun j hj => absurd hj (Nat.not_lt_zero j)))

theorem msg_inv (map : List Region) : (at_ map .decrypt (.msg 0)).Inv :=
  inv_of_single rfl (show Memory.wf [] by decide)
    (show (at_ [] .decrypt (.msg 0)).eng.Inv map from
      inv_of_running (by decide) (by decide) (by decide +kernel) (by show _ < _; decide)
        (fun j hj => absurd hj (Nat.not_lt_zero j)))

theorem fill_inv : (at_ [] .decrypt (.fill 16)).Inv := inv_of_single rfl (by decide)
  (inv_of_running (by decide) (by decide) (by decide +kernel) (by show _ ∧ _; decide) (fun _ _ => rfl))

theorem wipe_inv : (at_ [] .decrypt .wipe).Inv := inv_of_single rfl (by decide)
  (inv_of_running (by decide) (by decide) (by decide +kernel) trivial (fun _ _ => rfl))

theorem two_inv : two.Inv := by
  refine ⟨?_, List.pairwise_pair.mpr (fun _ _ => by decide), by decide⟩
  intro e he
  simp only [State.engines, two, List.mem_cons, List.not_mem_nil, or_false] at he
  rcases he with rfl | rfl
  · exact inv_of_running (by decide) (by decide) (by decide +kernel) (by show _ < _; decide)
      (fun j hj => absurd hj (Nat.not_lt_zero j))
  · exact inv_of_running (by decide) (by decide) (by decide +kernel) trivial (fun j hj => absurd hj (Nat.not_lt_zero j))

/-! ### One witness for each statement with hypotheses -/

theorem witness_ResetZeroesEveryPieceOfState :
    State.reset.eng = State.reset.eng ∧ ∃ e, e = (resetEngine (at_ [] .decrypt (.msg 1))).eng := ⟨rfl, _, rfl⟩

theorem witness_ResetWhileBusyAbandonsTheCommand : (at_ [] .decrypt (.fill 16)).Inv ∧
    (at_ [] .decrypt (.fill 16)).eng.status.busy = true ∧ (at_ [] .decrypt (.fill 16)).eng.ctx.outside 0x2FFF ∧
    (at_ [] .decrypt (.fill 16)).eng.ctx.outside 0x3011 ∧ 16 < (at_ [] .decrypt (.fill 16)).eng.ctx.n.toNat :=
  ⟨fill_inv, by decide⟩

theorem witness_CommandWordsMatchExactly : (at_ [] .encrypt (.init 0)).eng.status.busy = true ∧
    ready.eng.status.busy = false ∧ ((3 : Word) ≠ 0 ∧ (3 : Word) ≠ 1 ∧ (3 : Word) ≠ 2) := by decide

theorem witness_DecodeAndEncodeAgree :
    Instr.decrypt.wellFormed = true ∧ decode 2 = .ok .decrypt ∧ (wordFields 2).wellFormed = true := by decide

theorem witness_ReservedEncodingsAreRejected : ready.eng.status.busy = false ∧
    (0x00000010 : Word).extractLsb' 4 28 ≠ 0 ∧ (0xFFFFFFFF : Word).extractLsb' 4 28 ≠ 0 ∧
    3 ≤ ((0x00000003 : Word).extractLsb' 0 4).toNat ∧ 3 ≤ ((0x0000000F : Word).extractLsb' 0 4).toNat := by decide

theorem witness_StepRunsTheDecodedCommand :
    (State.withFetchWord ready 32 2).inputs = commandEvent 2 :: [] ∧ decode 2 = .ok .decrypt ∧
    (2 : Nat) < 2 ^ 32 ∧ decode (BitVec.ofNat 32 2) = .ok .decrypt := by decide

theorem witness_StepsWithoutEventsAreEngineSteps :
    (at_ [] .encrypt (.mac 9)).inputs = [] ∧ (at_ [] .encrypt (.mac 9)).peers = [] := by decide

theorem witness_RegisterMapOffsets : Reg.atOffset 0x84 = some .outAddrHi ∧ Reg.atOffset 0x00 = some .cmd := by decide

theorem witness_HostReadReturnsTheRegister : Reg.atOffset 0x0C = none ∧ Reg.atOffset 0xFF = none ∧
    (Reg.tag 3).isConfig = true ∧ (∀ k, Reg.tag 3 ≠ .key k) ∧
    (engineStep (at_ [] .encrypt (.mac 9))).eng.status.busy = true := by decide

theorem witness_ReservedAndOddAccessesDoNothing : (Width.w8 ≠ .w32) ∧ (0x81 : BitVec 8).toNat % 4 ≠ 0 ∧
    (0x44 ≤ (0x44 : BitVec 8).toNat ∧ (0x44 : BitVec 8).toNat < 0x50) ∧
    (0x44 ≤ (0x4F : BitVec 8).toNat ∧ (0x4F : BitVec 8).toNat < 0x50) ∧
    0x88 ≤ (0x88 : BitVec 8).toNat ∧ 0x88 ≤ (0xFF : BitVec 8).toNat := by decide

theorem witness_ConfigWriteOfIdleEngine : ready.eng.status.busy = false ∧ (Reg.key 7).isConfig = true ∧
    Reg.outAddrHi.isConfig = true ∧ Reg.key 6 ≠ Reg.key 7 := by decide

theorem witness_BusyEngineIgnoresConfigWrites : (at_ [] .encrypt .wipe).eng.status.busy = true ∧
    Reg.outAddrHi.isConfig = true ∧ Reg.irqEn.offset ≠ Reg.status.offset := by decide

theorem witness_StatusWriteClearsOnlyDone : (at_ [] .encrypt .wipe).eng.StatusInv ∧
    (at_ [] .encrypt .wipe).eng.status.busy = true ∧ Reg.key 0 ≠ .cmd := by decide

theorem witness_InterruptIsALevel : (0x00000002 : Word).getLsbD 1 = true := by decide

theorem witness_OperandsAreTheRegistersBytes : (0 : Nat) < 4 ∧ (3 : Nat) < 4 := by decide

theorem witness_TagRegistersHoldTheTag :
    ({ ready.eng with tag := tagWords 0x20b365f984f4b92bef3adac9c4e9d846 } : Engine).tag =
      tagWords 0x20b365f984f4b92bef3adac9c4e9d846 := rfl

theorem witness_WritingTwiceIsWritingOnce : Reg.outAddrHi.offset ≠ Reg.cmd.offset ∧
    ∃ t, hostWrite .w32 Reg.outAddrHi.offset 5 ready = .next t := ⟨by decide, _, hostWrite_reg _ _ _ (by decide)⟩

/-- A buffer one byte beyond 2^64 for each of the three, and buffers that end there and overlap in one byte. -/
theorem witness_RejectionChangesOnlyStatus : (withBuffers (2 ^ 64 - 1) 0 0 2 0).status.busy = false ∧
    2 ^ 64 < (withBuffers (2 ^ 64 - 1) 0 0 2 0).adAddr.toNat + (withBuffers (2 ^ 64 - 1) 0 0 2 0).adLen.toNat ∧
    2 ^ 64 < (withBuffers 0 (2 ^ 64 - 1) 0 0 2).inAddr.toNat + (withBuffers 0 (2 ^ 64 - 1) 0 0 2).inLen.toNat ∧
    2 ^ 64 < (withBuffers 0 0 (2 ^ 64 - 1) 0 2).outAddr.toNat + (withBuffers 0 0 (2 ^ 64 - 1) 0 2).inLen.toNat := by
  decide

theorem witness_RejectionChangesOnlyStatus_overlap : ∀ e : Engine, e = withBuffers (2 ^ 64 - 1) 0x1000 (2 ^ 64 - 8) 1 8 →
    e.adAddr.toNat + e.adLen.toNat ≤ 2 ^ 64 ∧ e.inAddr.toNat + e.inLen.toNat ≤ 2 ^ 64 ∧
    e.outAddr.toNat + e.inLen.toNat ≤ 2 ^ 64 ∧
    ∃ x, e.outAddr.toNat ≤ x ∧ x < e.outAddr.toNat + e.inLen.toNat ∧
      e.adAddr.toNat ≤ x ∧ x < e.adAddr.toNat + e.adLen.toNat := by
  rintro e rfl
  exact ⟨by decide, by decide, by decide, 2 ^ 64 - 1, by decide⟩

theorem witness_RejectionChangesOnlyStatus_partial : ∀ e : Engine, e = withBuffers 0 0x1000 0x100F 0 16 →
    (∃ x, e.outAddr.toNat ≤ x ∧ x < e.outAddr.toNat + e.inLen.toNat ∧
      e.inAddr.toNat ≤ x ∧ x < e.inAddr.toNat + e.inLen.toNat) ∧ e.outAddr ≠ e.inAddr := by
  rintro e rfl
  exact ⟨⟨0x100F, by decide⟩, by decide⟩

/-- Accepted: apart, in place, empty, adjacent, at the top of memory. -/
theorem witness_AcceptanceCapturesTheContext : Launchable .encrypt ready ∧ Launchable .decrypt ready ∧
    Launchable .decrypt (withEngine (withBuffers 0x1000 0x2000 0x2000 20 100)) ∧
    Launchable .encrypt (withEngine (withBuffers 0 (2 ^ 64 - 1) (2 ^ 64 - 1) 0 0)) ∧
    Launchable .encrypt (withEngine (withBuffers 0 0x1000 0x1010 0 16)) ∧
    Launchable .encrypt (withEngine (withBuffers 0 (2 ^ 64 - 16) 0x3000 0 16)) := by decide

theorem witness_BusyEngineLosesCommands : (at_ [] .encrypt (.init 0)).eng.status.busy = true := by decide

/-- The idle engine's OUT meets the other's IN; its own AD is apart. -/
theorem witness_ConflictingLaunchIsRefused : clash.eng.status.busy = false ∧
    (clash.eng.capture .encrypt).rangeBad = false ∧ (clash.eng.capture .encrypt).overlapBad = false ∧
    ¬ (clash.eng.capture .encrypt).outside 0x2000 ∧
    ∃ p ∈ clash.peers, p.status.busy = true ∧
      (p.ctx.I.toNat ≤ 0x2000 ∧ 0x2000 < p.ctx.I.toNat + p.ctx.n.toNat) := by decide

/-- The last byte of AD and the first of IN for a store; the last byte of OUT for both. -/
theorem witness_LiveBufferAccessIsRefused : ∀ s : State, s = at_ [] .encrypt (.init 0) →
    s.eng ∈ s.engines ∧ s.eng.status.busy = true ∧
    ((0x1013 : DWord).toNat + [(0 : Byte)].length ≤ 2 ^ 64 ∧
      s.eng.ctx.A.toNat ≤ 0x1013 ∧ 0x1013 < s.eng.ctx.A.toNat + s.eng.ctx.a.toNat) ∧
    (s.eng.ctx.I.toNat ≤ 0x2000 ∧ 0x2000 < s.eng.ctx.I.toNat + s.eng.ctx.n.toNat) ∧ ¬ s.eng.ctx.outside 0x3010 := by
  rintro s rfl
  exact ⟨List.mem_cons_self .., by decide⟩

/-- The last byte of memory while no command runs; with a command running, a store to the byte before its IN range, and a
load of its whole IN range, which R236 does not prohibit. -/
theorem witness_AgentStoreThenLoad :
    (ready.mem.wf ∧ (0xFFFFFFFFFFFFFFFF : DWord).toNat + [(7 : Byte)].length ≤ 2 ^ 64 ∧
      ∀ e ∈ ready.engines, e.status.busy = false) ∧
    (∀ s : State, s = at_ [] .encrypt (.msg 0) → s.mem.wf ∧ s.eng.status.busy = true ∧
      (∀ e ∈ s.engines, e.status.busy = true → ∀ x, (0x1FFF : DWord).toNat ≤ x →
        x < (0x1FFF : DWord).toNat + [(7 : Byte)].length → ¬ e.ctx.inBuffers x) ∧
      (∀ e ∈ s.engines, e.status.busy = true → ∀ x, (0x2000 : DWord).toNat ≤ x → x < (0x2000 : DWord).toNat + 17 →
        e.ctx.outside x)) := by
  refine ⟨by decide, ?_⟩
  rintro s rfl
  refine ⟨by decide, rfl, ?_, ?_⟩ <;> intro e he _ x h1 h2 <;> rw [List.mem_singleton.mp he]
  · obtain rfl : x = 0x1FFF := Nat.le_antisymm (Nat.lt_succ_iff.mp h2) h1
    decide
  · exact .inl (Nat.lt_trans h2 (by decide))

theorem witness_RotationIsCircular : (0 : Nat) < 32 ∧ (31 : Nat) < 32 := by decide

/-- Two states that agree on lane 0 only. -/
theorem witness_PermuteIsLaneWise : laneX 0 0 = laneX (setX 0 1 7) 0 ∧ laneY 0 0 = laneY (setX 0 1 7) 0 := by
  decide +kernel

theorem witness_InitOnEveryByte : (0 : Nat) < 64 ∧ (63 : Nat) < 64 := by decide

theorem witness_MaskOnEveryByte : (0 : Nat) < 16 ∧ (15 : Nat) < 16 := by decide

theorem witness_PaddingAddsZeros :
    ([] : List Byte).length ≤ 16 ∧ (List.replicate 16 (1 : Byte)).length ≤ 16 := by decide

theorem witness_SegmentsMakeUpTheSequence : 0 < (List.replicate 17 (1 : Byte)).length / 16 := by decide

theorem witness_RollbackOnEveryByte :
    (1 ≤ 1 ∧ 1 ≤ 15 ∧ 0 < 64) ∧ ((1 : Nat) ≤ 15 ∧ (15 : Nat) ≤ 15 ∧ (63 : Nat) < 64) := by decide

theorem witness_TagOnEveryByte : (15 : Nat) < 16 ∧
    ∃ t : S512, t = (List.range 10).foldl (fun u _ => update 20 100 u) testInit := ⟨by decide, _, rfl⟩

theorem witness_AeadDecryptInvertsAeadEncrypt : (∃ T, T = decryptTag testKey testNonce [] []) ∧
    (0 : Block) ≠ decryptTag testKey testNonce [] [] := ⟨⟨_, rfl⟩, by decide +kernel⟩

theorem witness_EveryStepKeepsTheInvariant : (at_ [] .decrypt (.init 0)).Inv ∧ two.Inv ∧ ready.Inv ∧
    (∃ t, step (at_ [] .decrypt (.init 0)) = .next t) ∧ (∃ t, step two = .next t) ∧
    ∃ t, step (ready.withFetchWord 32 1) = .next t :=
  ⟨init_inv, two_inv, ready_inv, ⟨_, rfl⟩, ⟨_, rfl⟩, ⟨_, rfl⟩⟩

theorem witness_EncryptRunsToItsResult :
    Launchable .encrypt ready ∧ (ready.eng.capture .encrypt).AllAnswered ready.map :=
  ⟨by decide, fun _ _ => rfl, fun _ _ => rfl, fun _ _ => rfl⟩

theorem witness_DecryptRunsToItsResult :
    ready.mem.wf ∧ Launchable .decrypt ready ∧ (ready.eng.capture .decrypt).AllAnswered ready.map :=
  ⟨by decide, by decide, fun _ _ => rfl, fun _ _ => rfl, fun _ _ => rfl⟩

/-- A step of each kind: one that stores a payload block, one that stores a fill byte, ones that store nothing, one that
writes TAG, and one that aborts. -/
theorem witness_InternalStepFrame : (at_ [] .decrypt .wipe).Inv ∧ (at_ [] .decrypt .wipe).eng.ctx.outside 0x3011 ∧
    (engineStep (at_ [] .decrypt (.init 0))).eng.status.busy = true ∧
    (engineStep { at_ [] .encrypt .wipe with eng := { (at_ [] .encrypt .wipe).eng with rtag := 1 } }).eng.tag ≠
      (at_ [] .encrypt .wipe).eng.tag := ⟨wipe_inv, by decide⟩

theorem witness_InternalStepFrame_stores :
    ((at_ [] .decrypt (.msg 0)).Inv ∧ ¬ (at_ [] .decrypt (.msg 0)).Aborts ∧
      0x3010 = (at_ [] .decrypt (.msg 0)).eng.ctx.O.toNat + 16 * 0 +
        blockLen (at_ [] .decrypt (.msg 0)).eng.ctx.n.toNat 0) ∧
    ((at_ [] .decrypt (.fill 16)).Inv ∧ ¬ (at_ [] .decrypt (.fill 16)).Aborts) ∧
    ((at_ [] .encrypt (.ad 1)).Inv ∧ ¬ (at_ [] .encrypt (.ad 1)).Aborts) ∧
    ((at_ [⟨0x1013, 1, .busError, .ok⟩] .encrypt (.ad 1)).Inv ∧
      (at_ [⟨0x1013, 1, .busError, .ok⟩] .encrypt (.ad 1)).Aborts) :=
  ⟨⟨msg_inv [], by decide +kernel⟩, ⟨fill_inv, by decide⟩, ⟨ad_inv [], by decide +kernel⟩, ⟨ad_inv _, by decide⟩⟩

/-- The last byte of the last AD block, of an IN block, and of an OUT block. -/
theorem witness_BusErrorAbortsTheCommand :
    (∀ s : State, s = at_ [⟨0x1013, 1, .busError, .ok⟩] .encrypt (.ad 1) → s.Inv ∧ s.eng.phase = .ad 1 ∧
      3 < blockLen s.eng.ctx.a.toNat 1 ∧ Answered s.map .read (s.eng.ctx.A.toNat + 16 * 1) 3 ∧
      memOK s.map .read (s.eng.ctx.A.toNat + 16 * 1 + 3) = false) ∧
    (∀ s : State, s = at_ [⟨0x200F, 1, .busError, .ok⟩] .decrypt (.msg 0) → s.Inv ∧ s.eng.phase = .msg 0 ∧
      15 < blockLen s.eng.ctx.n.toNat 0 ∧ Answered s.map .read (s.eng.ctx.I.toNat + 16 * 0) 15 ∧
      memOK s.map .read (s.eng.ctx.I.toNat + 16 * 0 + 15) = false) ∧
    (∀ s : State, s = at_ [⟨0x300F, 1, .ok, .busError⟩] .decrypt (.msg 0) → s.Inv ∧ s.eng.phase = .msg 0 ∧
      15 < blockLen s.eng.ctx.n.toNat 0 ∧
      Answered s.map .read (s.eng.ctx.I.toNat + 16 * 0) (blockLen s.eng.ctx.n.toNat 0) ∧
      Answered s.map .write (s.eng.ctx.O.toNat + 16 * 0) 15 ∧
      memOK s.map .write (s.eng.ctx.O.toNat + 16 * 0 + 15) = false) := by
  refine ⟨?_, ?_, ?_⟩
  · rintro s rfl; exact ⟨ad_inv _, by decide⟩
  · rintro s rfl; exact ⟨msg_inv _, by decide⟩
  · rintro s rfl; exact ⟨msg_inv _, by decide⟩

/-- The fill's case: a state that no run reaches, on a platform that refuses the write of the last byte. -/
theorem witness_BusErrorAbortsTheCommand_fill : ∀ s : State, s = at_ [⟨0x3010, 1, .ok, .busError⟩] .decrypt (.fill 16) →
    s.mem.wf ∧ s.eng.ctx.O.toNat + s.eng.ctx.n.toNat ≤ 2 ^ 64 ∧ s.eng.phase = .fill 16 ∧
    memOK s.map .write (s.eng.ctx.O.toNat + 16) = false := by
  rintro s rfl
  exact ⟨show Memory.wf [] by decide, by decide⟩

theorem witness_FillNeverAborts :
    (at_ [] .decrypt (.fill 16)).Inv ∧ (at_ [] .decrypt (.fill 16)).eng.phase = .fill 16 := ⟨fill_inv, rfl⟩

theorem witness_EveryEndWipes : (at_ [] .decrypt .wipe).eng.status.busy = true ∧
    (engineStep (at_ [] .decrypt .wipe)).eng.status.busy = false := by decide

theorem witness_PhasesFollowTheOrder : (at_ [] .decrypt (.fill 16)).Inv ∧
    engineStep (at_ [] .decrypt (.fill 16)) ≠ at_ [] .decrypt (.fill 16) ∧
    (engineStep (at_ [] .decrypt (.fill 16))).eng.status.err = false :=
  ⟨fill_inv, fun h => absurd (congrArg (fun s => s.eng.phase) h) (by decide), by decide⟩

theorem witness_EveryCommandEnds : (at_ [] .decrypt (.init 0)).Inv ∧
    (at_ [] .decrypt (.init 0)).eng.status.busy = true ∧
    (at_ [] .decrypt (.init 0)).eng.ctx.NeverSilent (at_ [] .decrypt (.init 0)).map :=
  ⟨init_inv, rfl, by decide⟩

/-- An access without response at the last byte of each block kind, and in the fill. -/
theorem witness_UnansweredAccessHangs :
    (∀ s : State, s = at_ [⟨0x1013, 1, .silent, .ok⟩] .encrypt (.ad 1) → s.eng.phase = .ad 1 ∧
      3 < blockLen s.eng.ctx.a.toNat 1 ∧ Answered s.map .read (s.eng.ctx.A.toNat + 16 * 1) 3 ∧
      memResponse s.map .read (s.eng.ctx.A.toNat + 16 * 1 + 3) = .silent) ∧
    (∀ s : State, s = at_ [⟨0x2010, 1, .silent, .ok⟩] .decrypt (.msg 1) → s.eng.phase = .msg 1 ∧
      0 < blockLen s.eng.ctx.n.toNat 1 ∧ Answered s.map .read (s.eng.ctx.I.toNat + 16 * 1) 0 ∧
      memResponse s.map .read (s.eng.ctx.I.toNat + 16 * 1 + 0) = .silent) ∧
    (∀ s : State, s = at_ [⟨0x3010, 1, .ok, .silent⟩] .decrypt (.msg 1) → s.eng.phase = .msg 1 ∧
      0 < blockLen s.eng.ctx.n.toNat 1 ∧
      Answered s.map .read (s.eng.ctx.I.toNat + 16 * 1) (blockLen s.eng.ctx.n.toNat 1) ∧
      Answered s.map .write (s.eng.ctx.O.toNat + 16 * 1) 0 ∧
      memResponse s.map .write (s.eng.ctx.O.toNat + 16 * 1 + 0) = .silent) ∧
    (∀ s : State, s = at_ [⟨0x3010, 1, .ok, .silent⟩] .decrypt (.fill 16) → s.eng.phase = .fill 16 ∧
      memResponse s.map .write (s.eng.ctx.O.toNat + 16) = .silent) := by
  refine ⟨?_, ?_, ?_, ?_⟩ <;> rintro s rfl <;> decide

/-- Two runs that differ in the key, the state and the memory; their comparisons fail alike. -/
theorem witness_SequenceIsIndependentOfData : ∀ s s' : State,
    s = { at_ [] .decrypt .verify with eng := { (at_ [] .decrypt .verify).eng with rtag := 1 } } →
    s' = { s with
      mem := [(0x2000, 1)]
      eng := { s.eng with S := 1, rtag := 2, key := Engine.reset.key, ctx := { s.eng.ctx with K := 0, T := 3 } } } →
    State.SameShape s s' ∧ (∀ j, j < 1 → State.ComparesAlike (engineSteps j s) (engineSteps j s')) ∧
      s.eng.status = s'.eng.status ∧ (s.eng.acc = 0 ↔ s'.eng.acc = 0) := by
  rintro s s' rfl rfl
  refine ⟨⟨rfl, rfl, rfl, rfl, rfl, rfl, rfl, rfl, rfl, fun _ => rfl⟩, ?_, rfl, Iff.rfl⟩
  intro j hj
  obtain rfl : j = 0 := by omega
  exact fun _ => ⟨fun h => absurd h (by decide), fun h => absurd h (by decide)⟩

/-- A schedule of both engines, in which the first one's payload block is stored without a bus error; and every kind of
event at the second one, a poll that waits among them. -/
theorem witness_EnginesAreIndependent : two.Inv ∧ (∀ i ∈ [1, 0, 1], i ≤ two.peers.length) ∧
    two.engines[0]? = some two.eng ∧ two.eng.status.busy = true ∧
    (engineSteps ([1, 0, 1].count 0) { two with eng := two.eng, peers := [] }).eng.status.err = false ∧
    two.eng.ctx.inBuffers 0x3000 ∧ two.eng.ctx.inBuffers 0x1000 :=
  ⟨two_inv, by decide, rfl, rfl, by decide +kernel, by decide, by decide⟩

theorem witness_EnginesAreIndependent_events :
    (∃ e, two.engines[1]? = some e) ∧ waits 1 (.write .w32 Reg.irqEn.offset 1) two = false ∧
    (∃ t, runEvent (.reg 1 (.write .w32 Reg.irqEn.offset 1)) two = .next t) ∧
    (∃ t, runEvent (.engine 1) two = .next t) ∧ (∃ t, runEvent (.reset 1) two = .next t) ∧
    waits 1 (.poll Reg.status.offset 1 0) two = true ∧
    (∀ e ∈ two.peers, e.ctx.outside 0x4FFF ∧
      (engineStep { two with eng := e, peers := [] }).eng.status.err = false ∧
      (engineStep { two with eng := e, peers := [] }).eng.status.busy = true) :=
  ⟨⟨_, rfl⟩, rfl, ⟨_, rfl⟩, ⟨_, rfl⟩, ⟨_, rfl⟩, by decide, by decide⟩

theorem witness_MemoryWriteThenRead : Memory.wf [(0, 1), (0xFFFFFFFFFFFFFFFF, 2)] ∧
    0xFFFFFFFFFFFFFFFF < 2 ^ 64 ∧ Memory.wf [] := by decide

end Sys2Proof.Tests
end

section
/-! The right rotation of a 32-bit word, bit by bit (spec/00_scope.md R10). -/

namespace Sys2Proof.Machine

@[simp] theorem rotr32_zero (v : Word) : rotr32 v 0 = v := rfl

/-- Below 32 the model's rotation is the library's, the rotation by 0 included. -/
theorem rotr32_eq_rotateRight (v : Word) {n : Nat} (hn : n < 32) : rotr32 v n = v.rotateRight n := by
  by_cases h0 : n = 0
  · subst h0
    rw [rotr32_zero, BitVec.rotateRight_eq_rotateRightAux_of_lt hn]
    simp [BitVec.rotateRightAux]
  · rw [rotr32, if_neg h0, BitVec.rotateRight_eq_rotateRightAux_of_lt hn, BitVec.rotateRightAux]

/-- The bits below `32 - n` come from `n` places further up, and the others wrap around. -/
theorem getLsbD_rotr32 (v : Word) {n i : Nat} (hn : n < 32) (hi : i < 32) :
    (rotr32 v n).getLsbD i = v.getLsbD ((i + n) % 32) := by
  rw [rotr32_eq_rotateRight v hn, BitVec.getLsbD_rotateRight_of_lt hn]
  by_cases hw : i < 32 - n
  · have hm : (i + n) % 32 = n + i := by omega
    simp [hw, hm]
  · have hm : (i + n) % 32 = i - (32 - n) := by omega
    simp [hw, hi, hm]

end Sys2Proof.Machine

/-- Settles O30: the rotation below 32 is the library's circular one, and the one by 0 is the identity. -/
theorem rotationIsCircular : Obligations.RotationIsCircular :=
  ⟨fun v _ _ hn hi => Sys2Proof.Machine.getLsbD_rotr32 v hn hi, Sys2Proof.Machine.rotr32_zero⟩
end

section
/-! Runs of a system of one engine that has no event left (spec/00_scope.md R17, log entry 1). -/

namespace Sys2Proof.Machine

/-- A round of one engine is a step of it. -/
theorem engineRound_of_single {s : State} (hp : s.peers = []) : engineRound s = engineStep s := by
  simp [engineRound, hp, tickEngine]

/-- With no event left, the system makes one round of its engines. -/
theorem step_of_no_inputs {s : State} (hi : s.inputs = []) : step s = .next (engineRound s) := by
  simp only [step, hi]

theorem core_run_succ (M : Host.Core) {k : Nat} {s t : M.State} (h : M.step s = .next t) :
    M.run (k + 1) s = M.run k t := by
  simp only [Host.Core.run, h]

/-- Neither premise is lost on the way: a step changes neither the events nor the peers. -/
theorem core_run_eq_engineSteps (k : Nat) (s : State) (hi : s.inputs = []) (hp : s.peers = []) :
    Host.Core.run core k s = .next (engineSteps k s) := by
  induction k generalizing s with
  | zero => rfl
  | succ k ih =>
    obtain ⟨⟨hpeers, -, hinputs, -⟩, -⟩ := engineStep_around s
    have hstep : step s = .next (engineStep s) := by rw [step_of_no_inputs hi, engineRound_of_single hp]
    rw [core_run_succ core hstep, engineSteps, ih _ (hinputs.trans hi) (hpeers.trans hp)]

end Sys2Proof.Machine

/-- Settles O8, by induction on the number of steps. -/
theorem stepsWithoutEventsAreEngineSteps : Obligations.StepsWithoutEventsAreEngineSteps :=
  Sys2Proof.Machine.core_run_eq_engineSteps
end

section
/-! The invariant of the system under every event and every round of the engines (spec/10_state.md R30, R41, R42,
spec/60_exceptions.md R213). -/

namespace Sys2Proof.Machine

/-! ## Register writes -/

/-- A host write to STATUS clears DONE when its bit 1 is set, and does nothing else (R31). -/
theorem Status.hostWrite_eq (st : Status) (v : Word) :
    st.hostWrite v = { st with done := st.done && !v.getLsbD 1 } := by
  unfold Status.hostWrite
  cases v.getLsbD 1 <;> simp

/-- Every register but STATUS and IRQ_EN ignores a write while BUSY (R40). -/
theorem Engine.writeReg_of_ne (e : Engine) {r : Reg} (v : Word) (hs : r ≠ .status) (hi : r ≠ .irqEn) :
    e.writeReg r v = if e.status.busy then e else e.writeConfig r v := by
  cases r with
  | status => exact absurd rfl hs
  | irqEn => exact absurd rfl hi
  | _ => rfl

@[simp] theorem Engine.writeConfig_status (e : Engine) (r : Reg) (v : Word) :
    (e.writeConfig r v).status = e.status := by
  cases r <;> rfl

theorem Engine.writeConfig_sameHidden (e : Engine) (r : Reg) (v : Word) : e.SameHidden (e.writeConfig r v) := by
  cases r <;> exact ⟨rfl, rfl, rfl, rfl, rfl, rfl⟩

/-- Everything a register write can do: clear DONE, set IE, nothing, or the configuration of an idle engine (R170). -/
theorem Engine.writeReg_cases (e : Engine) (r : Reg) (v : Word) :
    (r = .status ∧ e.writeReg r v = { e with status := { e.status with done := e.status.done && !v.getLsbD 1 } }) ∨
    (r = .irqEn ∧ e.writeReg r v = { e with ie := v.getLsbD 0 }) ∨
    (r ≠ .status ∧ e.status.busy = true ∧ e.writeReg r v = e) ∨
    (r ≠ .status ∧ e.status.busy = false ∧ e.writeReg r v = e.writeConfig r v) := by
  by_cases hs : r = .status
  · subst hs; exact .inl ⟨rfl, by rw [← Status.hostWrite_eq]; rfl⟩
  · by_cases hi : r = .irqEn
    · subst hi; exact .inr (.inl ⟨rfl, rfl⟩)
    · have hw := Engine.writeReg_of_ne e v hs hi
      cases hb : e.status.busy with
      | true => exact .inr (.inr (.inl ⟨hs, rfl, by simpa [hb] using hw⟩))
      | false => exact .inr (.inr (.inr ⟨hs, rfl, by simpa [hb] using hw⟩))

/-- No register write moves BUSY or the context of a command. -/
theorem Engine.writeReg_busy_ctx (e : Engine) (r : Reg) (v : Word) :
    (e.writeReg r v).status.busy = e.status.busy ∧ (e.writeReg r v).ctx = e.ctx := by
  rcases Engine.writeReg_cases e r v with ⟨-, h⟩ | ⟨-, h⟩ | ⟨-, -, h⟩ | ⟨-, -, h⟩ <;> rw [h]
  · exact ⟨rfl, rfl⟩
  · exact ⟨rfl, rfl⟩
  · exact ⟨rfl, rfl⟩
  · exact ⟨by rw [Engine.writeConfig_status], (Engine.writeConfig_sameHidden e r v).2.1⟩

/-! ## One engine -/

theorem Engine.Inv.idle_of_not_busy {map : List Region} {e : Engine} (h : e.Inv map) (hb : e.status.busy = false) :
    e.phase = .idle := by
  by_contra hp
  simp [h.status.1.mpr hp] at hb

/-- What is done to an idle engine keeps its invariant when it leaves the hidden state alone and BUSY clear. -/
theorem Engine.Inv.of_idle {map : List Region} {e e' : Engine} (h : e.Inv map) (hp : e.phase = .idle)
    (hh : e.SameHidden e') (hb : e'.status.busy = false) (herr : e'.status.err = false ↔ e'.status.errCode = .none) :
    e'.Inv map := by
  obtain ⟨hS, hctx, hphase, hblk, hrtag, hacc⟩ := hh
  have hp' : e'.phase = .idle := hphase.trans hp
  refine ⟨⟨by simp [hb, hp'], by simp [hb], herr⟩, fun _ => ?_, fun hn => absurd hp' hn, ?_, ?_⟩
  · rw [Engine.Wiped, hS, hctx, hblk, hrtag, hacc]; exact h.quiet hp
  · simp only [Engine.PhaseInv, hp']
  · simp only [Engine.WritableInv, Engine.written, hp']; exact Answered.zero _ _ _

/-- A register write keeps the engine's invariant: only an idle engine takes a new configuration (R40). -/
theorem Engine.Inv.writeReg {map : List Region} {e : Engine} (h : e.Inv map) (r : Reg) (v : Word) :
    (e.writeReg r v).Inv map := by
  rcases Engine.writeReg_cases e r v with ⟨-, hw⟩ | ⟨-, hw⟩ | ⟨-, -, hw⟩ | ⟨-, hb, hw⟩ <;> rw [hw]
  · obtain ⟨hbusy, hrun, herr⟩ := h.status
    have hst : ∀ hb : e.status.busy = true, (e.status.done && !v.getLsbD 1) = false := fun hb => by simp [(hrun hb).1]
    exact ⟨⟨hbusy, fun hb => ⟨hst hb, (hrun hb).2⟩, herr⟩, h.quiet, h.ctx, h.phase, h.writable⟩
  · exact ⟨h.status, h.quiet, h.ctx, h.phase, h.writable⟩
  · exact h
  · refine h.of_idle (h.idle_of_not_busy hb) (Engine.writeConfig_sameHidden e r v) ?_ ?_ <;>
      rw [Engine.writeConfig_status]
    · exact hb
    · exact h.status.2.2

/-! ## The events -/

/-- The invariant does not speak of the events to come or of what reads returned. -/
theorem State.Inv.withHost {s : State} (h : s.Inv) (evs : List Event) (v : Word) (bytes : List Byte) :
    State.Inv { s with inputs := evs, rdata := v, mdata := bytes } :=
  ⟨h.engines, h.compatible, h.memory⟩

/-- What an operation answers keeps the invariant of the system. -/
def KeepsInv (f : State → Host.Outcome State Fault Refusal) : Prop := ∀ s t : State, s.Inv → f s = .next t → t.Inv

theorem keepsInv_next {f : State → State} (hf : ∀ s : State, s.Inv → (f s).Inv) : KeepsInv (fun s => .next (f s)) :=
  fun s _ hs h => by cases h; exact hf s hs

/-- An operation that keeps the invariant at the engine in focus keeps it at every engine. -/
theorem onEngine_keepsInv {f : State → Host.Outcome State Fault Refusal} (hf : KeepsInv f) (k : Nat) :
    KeepsInv (onEngine k f) := by
  intro s t hs h
  rcases onEngine_next h with ⟨-, hu⟩ | ⟨j, u, -, -, hu, rfl⟩
  · exact hf s t hs hu
  · exact swapPeer_inv j u (hf _ u (swapPeer_inv j s hs) hu)

theorem reject_inv {s : State} (h : s.Inv) (hb : s.eng.status.busy = false) {code : ErrCode} (hc : code ≠ .none) :
    (reject code s).Inv := by
  have he : (reject code s).eng.Inv s.map :=
    h.eng.of_idle (h.eng.idle_of_not_busy hb) ⟨rfl, rfl, rfl, rfl, rfl, rfl⟩ rfl (by simp [Status.rejected, hc])
  exact focus_inv s _ h rfl rfl h.memory he fun _ _ hbusy => Bool.noConfusion hbusy

/-- An acceptance keeps the invariant: the checks that it passed are what the invariant asks of a running command. -/
theorem accept_inv {op : Op} {s : State} (h : s.Inv) (hop : op ≠ .none) (hl : Launchable op s) : (accept op s).Inv := by
  obtain ⟨-, hrange, hoverlap, hpeers⟩ := hl
  have hgood : Engine.PhaseGood s.map (accept op s).eng := phaseGood_init _ _ 0 rfl
  have he : (accept op s).eng.Inv s.map :=
    ⟨⟨by simp [Status.accepted], by simp [Status.accepted], by simp [Status.accepted]⟩, fun hp => absurd hp hgood.1,
      fun _ => ⟨rfl, hop, hrange, hoverlap⟩, hgood.2.1, hgood.2.2⟩
  refine focus_inv s _ h rfl rfl h.memory he fun f hf _ hbusy => ?_
  have hno := (List.any_eq_false.mp hpeers) f hf
  rw [Ctx.conflicts_symm]
  simpa [hbusy] using hno

theorem launch_keepsInv {op : Op} (hop : op ≠ .none) : KeepsInv (launch op) := by
  intro s t hs h
  rcases launch_next h with ⟨-, rfl⟩ | ⟨hb, -, rfl⟩ | ⟨hb, -, -, rfl⟩ | ⟨hl, rfl⟩
  · exact hs
  · exact reject_inv hs hb (by decide)
  · exact reject_inv hs hb (by decide)
  · exact accept_inv hs hop hl

theorem exec_keepsInv (i : Instr) : KeepsInv (exec i) := by
  cases i with
  | nop => exact keepsInv_next fun _ hs => hs
  | encrypt => exact launch_keepsInv (by decide)
  | decrypt => exact launch_keepsInv (by decide)

theorem commandWrite_keepsInv (v : Word) : KeepsInv (commandWrite v) := by
  intro s t hs h
  rcases commandWrite_cases v s with ⟨-, hc⟩ | ⟨-, i, -, hc⟩ | ⟨hb, -, hc⟩ <;> rw [hc] at h
  · cases h; exact hs
  · exact exec_keepsInv i s t hs h
  · cases h; exact reject_inv hs hb (by decide)

theorem writeReg_inv {s : State} (h : s.Inv) (r : Reg) (v : Word) : State.Inv { s with eng := s.eng.writeReg r v } :=
  focus_inv s _ h rfl rfl h.memory (h.eng.writeReg r v)
    (h.compat_of_sub s _ fun hb =>
      have ⟨hbusy, hctx⟩ := Engine.writeReg_busy_ctx s.eng r v
      ⟨hbusy ▸ hb, hctx⟩)

theorem regAccess_keepsInv (op : RegOp) : KeepsInv (regAccess op) := by
  cases op with
  | read w off => exact keepsInv_next fun _ hs => hs.withHost _ _ _
  | poll off mask val => exact keepsInv_next fun _ hs => hs.withHost _ _ _
  | write w off v =>
    intro s t hs h
    simp only [regAccess] at h
    rcases hostWrite_cases w off v with hw | hw | ⟨r, -, hw⟩ <;> rw [hw] at h
    · cases h; exact hs
    · exact commandWrite_keepsInv v s t hs h
    · cases h; exact writeReg_inv hs r v

/-- A reset keeps the invariant: the OUT bytes that it draws lie inside memory (R175, R231). -/
theorem resetEngine_inv {s : State} (h : s.Inv) : (resetEngine s).Inv := by
  have hm : (resetEngine s).mem.wf := by
    unfold resetEngine
    split
    · next hb => exact Memory.wf_drawAll _ _ _ _ h.memory (Engine.outRange _ _ h.eng (h.eng.status.1.mp hb))
    · exact h.memory
  refine focus_inv s _ h (resetEngine_peers s) (resetEngine_map s) hm ?_ fun _ _ hb => ?_
  · rw [resetEngine_eng]; exact Engine.reset_inv _
  · rw [resetEngine_eng] at hb; cases hb

theorem agentStore_keepsInv (addr : DWord) (bytes : List Byte) : KeepsInv (agentStore addr bytes) := by
  intro s t hs h
  unfold agentStore at h
  split at h
  · cases h
  · next hin =>
    split at h
    · cases h
    · cases h
      exact ⟨hs.engines, hs.compatible, Memory.wf_writeAll _ _ _ hs.memory (Nat.le_of_not_lt hin)⟩

theorem agentLoad_keepsInv (addr : DWord) (len : Nat) : KeepsInv (agentLoad addr len) := by
  intro s t hs h
  unfold agentLoad at h
  split at h
  · cases h
  · split at h
    · cases h
    · cases h; exact hs.withHost _ _ _

theorem engineRound_inv {s : State} (h : s.Inv) : (engineRound s).Inv :=
  List.foldlRecOn _ _ h fun t ht k _ => tickEngine_inv k t ht

theorem runEvent_keepsInv (ev : Event) : KeepsInv (runEvent ev) := by
  cases ev with
  | store addr bytes => exact agentStore_keepsInv addr bytes
  | load addr len => exact agentLoad_keepsInv addr len
  | engine k => exact onEngine_keepsInv (keepsInv_next (tickEngine_inv 0)) k
  | reset k => exact onEngine_keepsInv (keepsInv_next fun _ => resetEngine_inv) k
  | reg k op =>
    intro s t hs h
    have hacc := onEngine_keepsInv (regAccess_keepsInv op) k s
    simp only [runEvent] at h
    split at h
    · obtain ⟨u, hu, rfl⟩ := mapNext_next h
      exact (engineRound_inv (hacc u hs hu)).withHost _ _ _
    · exact hacc t hs h

theorem step_keepsInv : KeepsInv step := by
  intro s t hs h
  cases hi : s.inputs with
  | nil =>
    rw [step_of_no_inputs hi] at h
    cases h
    exact engineRound_inv hs
  | cons ev rest =>
    simp only [step, hi] at h
    exact runEvent_keepsInv ev { s with inputs := rest } t (hs.withHost _ _ _) h

end Sys2Proof.Machine

/-- Settles O47: every event, and the round of the engines that stands for no event, keeps the invariant. -/
theorem everyStepKeepsTheInvariant : Obligations.EveryStepKeepsTheInvariant := Sys2Proof.Machine.step_keepsInv
end

section
/-! The register window: its map, the accesses that find no register, and what reads and writes of each register do
(spec/10_state.md R28 to R40, spec/20_memory.md R61, R62). -/

namespace Sys2Proof.Machine

/-! ## The map (R28, R39, R61) -/

theorem Reg.offset_of_atOffset {off : BitVec 8} {r : Reg} (h : Reg.atOffset off = some r) : r.offset = off := by
  simpa using List.find?_some h

theorem Reg.key_offset_toNat (k : Fin 8) : (Reg.key k).offset.toNat = 0x10 + 4 * k.val := by revert k; decide
theorem Reg.nonce_offset_toNat (k : Fin 5) : (Reg.nonce k).offset.toNat = 0x30 + 4 * k.val := by revert k; decide
theorem Reg.tag_offset_toNat (k : Fin 4) : (Reg.tag k).offset.toNat = 0x50 + 4 * k.val := by revert k; decide

/-- The offsets that R28's map leaves out: the word at 0x0C, the gap behind NONCE, and the rest behind OUT_ADDR. -/
def reservedOffset (off : BitVec 8) : Prop :=
  off = 0x0C ∨ (0x44 ≤ off.toNat ∧ off.toNat < 0x50) ∨ 0x88 ≤ off.toNat

theorem Reg.offset_not_reserved (r : Reg) : ¬ reservedOffset r.offset := by
  unfold reservedOffset
  cases r with
  | key k => revert k; decide
  | nonce k => revert k; decide
  | tag k => revert k; decide
  | _ => decide

theorem Reg.atOffset_of_reserved {off : BitVec 8} (h : reservedOffset off) : Reg.atOffset off = none := by
  cases hr : Reg.atOffset off with
  | none => rfl
  | some r => exact absurd (Reg.offset_of_atOffset hr ▸ h) r.offset_not_reserved

theorem accessDefined_iff (w : Width) (off : BitVec 8) :
    accessDefined w off = true ↔ w = .w32 ∧ off.toNat % 4 = 0 := by
  simp [accessDefined]

/-! ## Accesses -/

/-- An access finds no register: it is not a word, not aligned, or at a reserved offset. -/
def NoRegister (w : Width) (off : BitVec 8) : Prop := accessDefined w off = true → Reg.atOffset off = none

theorem noRegister_of_odd {w : Width} {off : BitVec 8} (h : w ≠ .w32 ∨ off.toNat % 4 ≠ 0) : NoRegister w off := by
  intro hd
  obtain ⟨hw, hal⟩ := (accessDefined_iff w off).mp hd
  rcases h with h | h
  · exact absurd hw h
  · exact absurd hal h

theorem hostReadValue_of_noRegister {w : Width} {off : BitVec 8} (h : NoRegister w off) (e : Engine) :
    hostReadValue w off e = 0 := by
  unfold hostReadValue
  split
  · next hd => rw [h hd]
  · rfl

theorem hostWrite_of_noRegister {w : Width} {off : BitVec 8} (h : NoRegister w off) (v : Word) (s : State) :
    hostWrite w off v s = .next s := by
  unfold hostWrite
  split
  · next hd => rw [h hd]
  · rfl

/-- A read tells two engines apart only when the register at its offset does. -/
theorem hostReadValue_congr {w : Width} {off : BitVec 8} {e e' : Engine}
    (h : ∀ r, r.offset = off → e.readReg r = e'.readReg r) : hostReadValue w off e = hostReadValue w off e' := by
  unfold hostReadValue
  split
  · cases hr : Reg.atOffset off with
    | none => rfl
    | some r => exact h r (Reg.offset_of_atOffset hr)
  · rfl

theorem hostWrite_status (v : Word) (s : State) : hostWrite .w32 Reg.status.offset v s =
    .next { s with eng := { s.eng with status := s.eng.status.hostWrite v } } :=
  hostWrite_reg .status v s (by decide)

theorem hostWrite_irqEn (v : Word) (s : State) : hostWrite .w32 Reg.irqEn.offset v s =
    .next { s with eng := { s.eng with ie := v.getLsbD 0 } } :=
  hostWrite_reg .irqEn v s (by decide)

/-- A configuration register ignores a write while BUSY (R40). -/
theorem hostWrite_config_of_busy {s : State} (hb : s.eng.status.busy = true) {r : Reg} (hr : r.isConfig = true)
    (v : Word) : hostWrite .w32 r.offset v s = .next s := by
  have hne : ∀ r', r'.isConfig = false → r ≠ r' := fun r' h' he => by simp [he, h'] at hr
  rw [hostWrite_reg r v s (hne .cmd rfl), Engine.writeReg_of_ne _ v (hne .status rfl) (hne .irqEn rfl), if_pos hb]

/-- No register write reaches AUTH_FAIL, ERR or ERR_CODE, whether a command runs or not (R31). -/
theorem Engine.writeReg_errorFields (e : Engine) (r : Reg) (v : Word) :
    (e.writeReg r v).status.authFail = e.status.authFail ∧ (e.writeReg r v).status.err = e.status.err ∧
      (e.writeReg r v).status.errCode = e.status.errCode := by
  rcases Engine.writeReg_cases e r v with ⟨-, h⟩ | ⟨-, h⟩ | ⟨-, -, h⟩ | ⟨-, -, h⟩ <;> rw [h]
  · exact ⟨rfl, rfl, rfl⟩
  · exact ⟨rfl, rfl, rfl⟩
  · exact ⟨rfl, rfl, rfl⟩
  · rw [Engine.writeConfig_status]; exact ⟨rfl, rfl, rfl⟩

theorem getLsbD_of_lowBits_eq {n k i : Nat} {v v' : BitVec n} (h : v.extractLsb' 0 k = v'.extractLsb' 0 k)
    (hi : i < k) : v.getLsbD i = v'.getLsbD i := by
  have := congrArg (fun x => BitVec.getLsbD x i) h
  simpa [hi] using this

/-! ## The layouts of STATUS and IRQ_EN (R30, R32) -/

theorem Status.toWord_reserved (st : Status) : st.toWord.extractLsb' 8 24 = 0 := by
  simp (disch := decide) only [Status.toWord, extract_append_high]
  rfl

theorem Status.toWord_errCode (st : Status) : st.toWord.extractLsb' 4 4 = st.errCode.bits := by
  simp (disch := decide) only [Status.toWord, extract_append_high]
  exact BitVec.extractLsb'_append_eq_right

theorem Status.toWord_flags (st : Status) : st.toWord.getLsbD 0 = st.busy ∧ st.toWord.getLsbD 1 = st.done ∧
    st.toWord.getLsbD 2 = st.authFail ∧ st.toWord.getLsbD 3 = st.err := by
  simp only [Status.toWord, BitVec.getLsbD_append]
  simp

theorem ErrCode.bits_lt (c : ErrCode) : c.bits.toNat < 5 := by cases c <;> decide

theorem irqEnWord_eq (ie : Bool) : irqEnWord ie = if ie then 0x00000001 else 0x00000000 := by cases ie <;> rfl

theorem irqEnWord_reserved (ie : Bool) : (irqEnWord ie).extractLsb' 1 31 = 0 := BitVec.extractLsb'_append_eq_left

/-! ## The TAG registers (R35, R62) -/

theorem tagWords_getElem (T : Block) (k : Fin 4) : (tagWords T)[k] = T.extractLsb' (32 * k.val) 32 := by
  match k with
  | 0 => rfl
  | 1 => rfl
  | 2 => rfl
  | 3 => rfl

theorem byte_tagWords (T : Block) (k : Fin 4) {j : Nat} (hj : j < 4) :
    (tagWords T)[k].extractLsb' (8 * j) 8 = T.extractLsb' (8 * (4 * k.val + j)) 8 := by
  rw [tagWords_getElem, extract_extract _ _ _ _ _ (by omega)]
  congr 1
  omega

/-- The four words of a tag put together again, the highest first. -/
theorem tagBytes_of_tagWords {e : Engine} {T : Block} (h : e.tag = tagWords T) : e.tagBytes = T := by
  have h64 : T.extractLsb' 96 32 ++ T.extractLsb' 64 32 = T.extractLsb' 64 64 :=
    BitVec.extractLsb'_append_extractLsb'_eq_extractLsb' rfl
  have h32 : T.extractLsb' 64 64 ++ T.extractLsb' 32 32 = T.extractLsb' 32 96 :=
    BitVec.extractLsb'_append_extractLsb'_eq_extractLsb' rfl
  have h0 : T.extractLsb' 32 96 ++ T.extractLsb' 0 32 = T.extractLsb' 0 128 :=
    BitVec.extractLsb'_append_extractLsb'_eq_extractLsb' rfl
  calc e.tagBytes
    _ = T.extractLsb' 96 32 ++ T.extractLsb' 64 32 ++ T.extractLsb' 32 32 ++ T.extractLsb' 0 32 := by
      rw [Engine.tagBytes, h]; rfl
    _ = T.extractLsb' 0 128 := by rw [h64, h32, h0]
    _ = T := BitVec.extractLsb'_eq_self

end Sys2Proof.Machine

open Sys2Proof.Machine

/-- Settles O9: the offsets written out, and that each names its register. -/
theorem registerMapOffsets : Obligations.RegisterMapOffsets :=
  ⟨Reg.atOffset_offset, fun _ _ => Reg.offset_of_atOffset, Reg.key_offset_toNat, Reg.nonce_offset_toNat,
    Reg.tag_offset_toNat, rfl, rfl, rfl, rfl, rfl, rfl, rfl, rfl, rfl, rfl, rfl, rfl, rfl⟩

/-- Settles O11: an odd or a reserved access finds no register, and STATUS and IRQ_EN take one bit of a write. -/
theorem reservedAndOddAccessesDoNothing : Obligations.ReservedAndOddAccessesDoNothing := by
  refine ⟨fun w off h => ?_, fun w off h => ?_, fun e => ?_, fun v v' s h => ?_, fun v v' s h => ?_⟩
  · have hno := noRegister_of_odd h
    exact ⟨hostReadValue_of_noRegister hno, hostWrite_of_noRegister hno⟩
  · have hno : NoRegister w off := fun _ => Reg.atOffset_of_reserved h
    exact ⟨hostReadValue_of_noRegister hno, hostWrite_of_noRegister hno⟩
  · rw [hostReadValue_reg, hostReadValue_reg]
    exact ⟨e.status.toWord_reserved, irqEnWord_reserved e.ie⟩
  · rw [hostWrite_status, hostWrite_status, Status.hostWrite_eq, Status.hostWrite_eq,
      getLsbD_of_lowBits_eq h (by decide : 1 < 8)]
  · rw [hostWrite_irqEn, hostWrite_irqEn, getLsbD_of_lowBits_eq h (by decide : 0 < 1)]

/-- Settles O13: of the registers only STATUS and IRQ_EN take a write while BUSY, and only STATUS reads BUSY. -/
theorem busyEngineIgnoresConfigWrites : Obligations.BusyEngineIgnoresConfigWrites := by
  intro s hb
  refine ⟨fun r v hr => ?_, fun v => hostWrite_status v s, fun v => hostWrite_irqEn v s, fun w off hoff => ?_⟩
  · rcases hr with rfl | hr
    · rw [hostWrite_cmd, commandWrite, if_pos hb]
    · exact hostWrite_config_of_busy hb hr v
  · refine hostReadValue_congr fun r hr => ?_
    cases r with
    | status => exact absurd hr.symm hoff
    | _ => rfl

/-- Settles O14: a STATUS write reaches DONE alone, which is clear while BUSY, and no other write reaches a result. -/
theorem statusWriteClearsOnlyDone : Obligations.StatusWriteClearsOnlyDone := by
  refine ⟨fun s v => ?_, fun s v hinv hb => ?_, fun s r v hr => ?_, fun _ _ _ => rfl, fun _ => engineStep_of_idle⟩
  · rw [hostWrite_status, Status.hostWrite_eq]
  · obtain ⟨-, hrun, -⟩ := hinv
    have hdone : (s.eng.status.done && !v.getLsbD 1) = s.eng.status.done := by simp [(hrun hb).1]
    rw [hostWrite_status, Status.hostWrite_eq, hdone]
  · exact ⟨_, hostWrite_reg r v s hr, (Engine.writeReg_busy_ctx s.eng r v).1, Engine.writeReg_errorFields s.eng r v⟩

/-- Settles O15: IE is written and read as bit 0 of IRQ_EN. -/
theorem irqEnHoldsOneBit : Obligations.IrqEnHoldsOneBit :=
  ⟨fun s v => hostWrite_irqEn v s, fun e => (hostReadValue_reg .irqEn e).trans (irqEnWord_eq e.ie),
    fun e => by simp [Engine.irq], rfl⟩

/-- Settles O17: the fields of the word, from the lowest. -/
theorem statusWordLayout : Obligations.StatusWordLayout := fun st =>
  have ⟨hbusy, hdone, hauth, herr⟩ := st.toWord_flags
  ⟨hbusy, hdone, hauth, herr, st.toWord_errCode, st.toWord_reserved, st.errCode.bits_lt⟩

/-- Settles O20: the registers split the tag into words, and put together they are the tag again. -/
theorem tagRegistersHoldTheTag : Obligations.TagRegistersHoldTheTag :=
  ⟨fun T k _ hj => byte_tagWords T k hj, fun _ _ => tagBytes_of_tagWords⟩

/-- Settles O21: no register that a read returns is one of the fields that differ; KEY reads 0. -/
theorem readsRevealNoHiddenState : Obligations.ReadsRevealNoHiddenState := by
  intro e S c p b t a K w off
  refine hostReadValue_congr fun r _ => ?_
  cases r <;> rfl
end

section
/-! What one internal step of an engine does: which phase comes next, how a command ends, and what stays as it was
(spec/10_state.md R33 to R35, R42, spec/42_commands.md R178 to R181). -/

namespace Sys2Proof.Machine

/-! ## The comparison of tags (R152) -/

/-- An accumulator of ORs is zero when every value that went in is. -/
theorem foldl_or_eq_zero_iff (f : Nat → Byte) (l : List Nat) (acc : Byte) :
    l.foldl (fun a j => a ||| f j) acc = 0 ↔ acc = 0 ∧ ∀ j ∈ l, f j = 0 := by
  induction l generalizing acc with
  | nil => simp
  | cons j l ih =>
    rw [List.foldl_cons, ih, List.forall_mem_cons, ← and_assoc]
    exact and_congr_left' BitVec.or_eq_zero_iff

theorem tagDiff_eq_zero_iff (T T' : Block) : tagDiff T T' = 0 ↔ T = T' := by
  unfold tagDiff
  rw [foldl_or_eq_zero_iff fun j => T.extractLsb' (8 * j) 8 ^^^ T'.extractLsb' (8 * j) 8]
  constructor
  · rintro ⟨-, h⟩
    exact block_ext fun j hj => BitVec.xor_eq_zero_iff.mp (h j (List.mem_range.mpr hj))
  · rintro rfl
    exact ⟨rfl, fun _ _ => BitVec.xor_self⟩

/-! ## The outcomes of a step -/

/-- The phase that follows the engine's, when its step neither stays nor aborts (R42). -/
def Engine.nextPhase (e : Engine) : Phase :=
  match e.phase with
  | .idle => .idle
  | .init i => e.ctx.nextInit i
  | .ad b => e.ctx.nextAd b
  | .msg b => e.ctx.nextMsg b
  | .mac j => e.ctx.nextMac j
  | .verify => e.ctx.nextVerify (tagDiff e.rtag e.ctx.T)
  | .fill o => e.ctx.nextFill o
  | .wipe => .idle

/-- The command goes on: the next phase, and STATUS and TAG as they were. -/
def GoesOn (s t : State) : Prop :=
  t.eng.phase = s.eng.nextPhase ∧ t.eng.status = s.eng.status ∧ t.eng.tag = s.eng.tag

/-- A step stays where it is, aborts, ends the command in WIPE, or goes on. -/
theorem engineStep_outcome (s : State) :
    engineStep s = s ∨ engineStep s = busAbort s ∨ (s.eng.phase = .wipe ∧ engineStep s = stepWipe s) ∨
    (s.eng.phase ≠ .idle ∧ GoesOn s (engineStep s)) := by
  unfold engineStep GoesOn Engine.nextPhase
  cases hp : s.eng.phase with
  | idle => exact .inl rfl
  | init i => exact .inr (.inr (.inr ⟨by simp, rfl, rfl, rfl⟩))
  | mac j => exact .inr (.inr (.inr ⟨by simp, rfl, rfl, rfl⟩))
  | verify => exact .inr (.inr (.inr ⟨by simp, rfl, rfl, rfl⟩))
  | wipe => exact .inr (.inr (.inl ⟨rfl, rfl⟩))
  | ad b =>
    rcases stepAd_cases b s with ⟨-, h⟩ | h | ⟨h, -⟩ <;> simp only [h]
    · exact .inr (.inr (.inr ⟨by simp, trivial, trivial, trivial⟩))
    · exact .inr (.inl trivial)
    · exact .inl trivial
  | msg b =>
    rcases stepMsg_cases b s with ⟨-, -, h⟩ | h | ⟨h, -⟩ <;> simp only [h]
    · exact .inr (.inr (.inr ⟨by simp, trivial, trivial, trivial⟩))
    · exact .inr (.inl trivial)
    · exact .inl trivial
  | fill o =>
    rcases stepFill_cases o s with ⟨-, h⟩ | ⟨-, h⟩ | ⟨-, h⟩ <;> simp only [h]
    · exact .inr (.inr (.inr ⟨by simp, trivial, trivial, trivial⟩))
    · exact .inr (.inl trivial)
    · exact .inl trivial

/-- A step that moves and reports no error leads from a phase that is not IDLE to the next one. -/
theorem engineStep_phase {s : State} (hne : engineStep s ≠ s) (herr : (engineStep s).eng.status.err = false) :
    s.eng.phase ≠ .idle ∧ (engineStep s).eng.phase = s.eng.nextPhase := by
  rcases engineStep_outcome s with h | h | ⟨hp, h⟩ | ⟨hp, hnext, -⟩
  · exact absurd h hne
  · rw [h] at herr; cases herr
  · refine ⟨by simp [hp], ?_⟩
    rw [h]
    simp only [Engine.nextPhase, hp]
    rfl
  · exact ⟨hp, hnext⟩

/-- Both ends of a command, the abort and WIPE, leave the engine wiped and idle with DONE set. -/
theorem engineStep_end {s : State} (hb : s.eng.status.busy = true) (hend : (engineStep s).eng.status.busy = false) :
    (engineStep s).eng.Wiped ∧ (engineStep s).eng.phase = .idle ∧ (engineStep s).eng.status.done = true := by
  rcases engineStep_outcome s with h | h | ⟨-, h⟩ | ⟨-, -, hst, -⟩
  · rw [h, hb] at hend; cases hend
  · rw [h]; exact ⟨s.eng.wipe_wiped, rfl, rfl⟩
  · rw [h]; exact ⟨s.eng.wipe_wiped, rfl, rfl⟩
  · rw [hst, hb] at hend; cases hend

/-! ## The frame of a step -/

theorem engineStep_status {s : State} (hb : (engineStep s).eng.status.busy = true) :
    (engineStep s).eng.status = s.eng.status := by
  rcases engineStep_outcome s with h | h | ⟨-, h⟩ | ⟨-, -, hst, -⟩
  · rw [h]
  · rw [h] at hb; cases hb
  · rw [h] at hb; cases hb
  · exact hst

/-- Only the end of an ENCRYPT writes TAG, and it reports no error (R35). -/
theorem engineStep_tag {s : State} (ht : (engineStep s).eng.tag ≠ s.eng.tag) :
    s.eng.phase = .wipe ∧ s.eng.ctx.op = .encrypt ∧ (engineStep s).eng.status.done = true ∧
      (engineStep s).eng.status.err = false := by
  rcases engineStep_outcome s with h | h | ⟨hp, h⟩ | ⟨-, -, -, htag⟩
  · exact absurd (by rw [h]) ht
  · exact absurd (by rw [h, busAbort_eng, Engine.finish_tag]) ht
  · rw [h] at ht ⊢
    refine ⟨hp, ?_, rfl, rfl⟩
    by_contra hop
    exact ht (if_neg hop)
  · exact absurd htag ht

/-- The bytes that a step may store when it does not abort: its payload block, its fill byte, or none (R65). -/
theorem engineStep_stores {s : State} (h : s.eng.Inv s.map) (hna : ¬ s.Aborts) :
    match s.eng.phase with
    | .msg b => ∀ x, (x < s.eng.ctx.O.toNat + 16 * b ∨
        s.eng.ctx.O.toNat + 16 * b + blockLen s.eng.ctx.n.toNat b ≤ x) → (engineStep s).mem.read x = s.mem.read x
    | .fill o => ∀ x, x ≠ s.eng.ctx.O.toNat + o → (engineStep s).mem.read x = s.mem.read x
    | _ => (engineStep s).mem = s.mem := by
  rcases engineStep_cases s with ⟨he, hp⟩ | ⟨-, hm | ⟨b, hb, hm⟩ | ⟨o, ho, hm⟩⟩
  · have hrun : s.eng.phase ≠ .idle := by rcases hp with ⟨b, hp⟩ | ⟨b, hp⟩ | ⟨o, hp, -⟩ <;> simp [hp]
    exact absurd ⟨h.status.1.mpr hrun, by rw [he]; rfl⟩ hna
  · rw [hm]; split <;> simp
  · rw [hb, hm]
    intro x hx
    exact Memory.read_writeAll_other _ _ _ _ (by rwa [payloadOut_length])
  · rw [ho, hm]
    exact fun x hx => Memory.read_write_other _ _ _ _ hx

/-- Only an AD or a payload block aborts: every byte that a fill overwrites was written before, and takes a write
again (C8). -/
theorem phase_of_aborts {s : State} (h : s.eng.Inv s.map) (ha : s.Aborts) :
    ∃ b, s.eng.phase = .ad b ∨ s.eng.phase = .msg b := by
  obtain ⟨hbusy, herr⟩ := ha
  rcases engineStep_cases s with ⟨-, ⟨b, hb⟩ | ⟨b, hb⟩ | ⟨o, ho, hbus⟩⟩ | ⟨hkeeps, -⟩
  · exact ⟨b, .inl hb⟩
  · exact ⟨b, .inr hb⟩
  · have hin : o < s.eng.ctx.n.toNat ∧ s.eng.ctx.op = .decrypt ∧ s.eng.acc ≠ 0 := by
      simpa only [Engine.PhaseInv, ho] using h.phase
    have hw := h.writable o (by simpa only [Engine.written, ho] using hin.1)
    simp [hw] at hbus
  · obtain ⟨-, hrun, -⟩ := h.status
    obtain ⟨-, -, hno, -⟩ := hrun hbusy
    simp [hkeeps herr] at hno

end Sys2Proof.Machine

open Sys2Proof.Machine

/-- Settles O50, from the frame of a step, field by field. -/
theorem internalStepFrame : Obligations.InternalStepFrame := by
  intro s h
  obtain ⟨haround, hconfig, hie⟩ := engineStep_around s
  refine ⟨hconfig, hie, haround, fun x hx => engineStep_outside s h.eng hx, engineStep_status, engineStep_tag,
    fun hna => ?_, phase_of_aborts h.eng⟩
  have hst := engineStep_stores h.eng hna
  cases hp : s.eng.phase <;> simpa only [hp] using hst

/-- Settles O53: a command ends in an abort or in WIPE. -/
theorem everyEndWipes : Obligations.EveryEndWipes := fun _ => engineStep_end

/-- Settles O54: the next phase is the one that the context names, phase by phase. -/
theorem phasesFollowTheOrder : Obligations.PhasesFollowTheOrder := by
  intro s h hne herr
  obtain ⟨hidle, hnext⟩ := engineStep_phase hne herr
  have hinv := h.eng.phase
  unfold Engine.nextPhase at hnext
  unfold Engine.PhaseInv at hinv
  cases hp : s.eng.phase with
  | idle => exact hidle hp
  | verify =>
    simp only [hp, Ctx.nextVerify, ne_eq, tagDiff_eq_zero_iff] at hnext hinv
    exact ⟨hinv, hnext⟩
  | fill o =>
    simp only [hp] at hnext hinv
    obtain ⟨-, hop, -⟩ := hinv
    exact ⟨hop, hnext⟩
  | _ => simp only [hp] at hnext; exact hnext
end

section
/-! Memory as the host and the other agents see it: a byte and a run of bytes written and read back, and register
writes made twice (spec/20_memory.md R60, R63, R72, R76, spec/70_reset_and_hazards.md R236). -/

namespace Sys2Proof.Machine

/-! ## A register write made twice (R63) -/

theorem Status.hostWrite_hostWrite (st : Status) (v : Word) : (st.hostWrite v).hostWrite v = st.hostWrite v := by
  simp only [Status.hostWrite_eq, Bool.and_assoc, Bool.and_self]

theorem Engine.writeConfig_writeConfig (e : Engine) (r : Reg) (v : Word) :
    (e.writeConfig r v).writeConfig r v = e.writeConfig r v := by
  cases r with
  | key k => simp only [Engine.writeConfig, Vector.set_set]
  | nonce k => simp only [Engine.writeConfig, Vector.set_set]
  | tag k => simp only [Engine.writeConfig, Vector.set_set]
  | _ => rfl

theorem Engine.writeReg_writeReg (e : Engine) (r : Reg) (v : Word) :
    (e.writeReg r v).writeReg r v = e.writeReg r v := by
  by_cases hs : r = .status
  · subst hs
    exact congrArg (fun st => { e with status := st }) (e.status.hostWrite_hostWrite v)
  · by_cases hi : r = .irqEn
    · subst hi; rfl
    · have hw := fun e' : Engine => Engine.writeReg_of_ne e' v hs hi
      cases hb : e.status.busy with
      | true => simp only [hw, hb, if_true]
      | false => simp [hw, hb, Engine.writeConfig_writeConfig]

/-- Away from CMD a host write finds no register or writes one (R39, R61, R170). -/
theorem hostWrite_of_ne_cmd {off : BitVec 8} (h : off ≠ Reg.cmd.offset) (w : Width) (v : Word) :
    (∀ s, hostWrite w off v s = .next s) ∨
    ∃ r, ∀ s, hostWrite w off v s = .next { s with eng := s.eng.writeReg r v } := by
  by_cases hno : NoRegister w off
  · exact .inl (hostWrite_of_noRegister hno v)
  · obtain ⟨hd, hr⟩ := Classical.not_imp.mp hno
    obtain ⟨r, hr⟩ := Option.ne_none_iff_exists'.mp hr
    obtain ⟨rfl, -⟩ := (accessDefined_iff w off).mp hd
    obtain rfl := Reg.offset_of_atOffset hr
    exact .inr ⟨r, fun s => hostWrite_reg r v s fun hc => h (congrArg Reg.offset hc)⟩

/-! ## Other agents' accesses (R60, R236) -/

theorem Ctx.touches_iff_inBuffers (c : Ctx) (a l : Nat) :
    c.touches a l = true ↔ ∃ x, a ≤ x ∧ x < a + l ∧ c.inBuffers x := by
  simp only [Ctx.touches_iff, Ctx.inBuffers, Ctx.outside, not_or, Nat.not_lt, Nat.not_le, and_or_left, exists_or]

theorem Ctx.outHit_iff_not_outside (c : Ctx) (a l : Nat) :
    c.outHit a l = true ↔ ∃ x, a ≤ x ∧ x < a + l ∧ ¬ c.outside x := by
  simp only [Ctx.outHit_iff, Ctx.outside, not_or, Nat.not_lt, Nat.not_le]

/-- A store inside the address space lands when it touches no buffer of a running command. -/
theorem agentStore_of_free {s : State} {addr : DWord} {bytes : List Byte}
    (hin : addr.toNat + bytes.length ≤ memorySize)
    (hfree : ∀ e ∈ s.engines, e.status.busy = true → ∀ x, addr.toNat ≤ x → x < addr.toNat + bytes.length →
      ¬ e.ctx.inBuffers x) :
    agentStore addr bytes s = .next { s with mem := s.mem.writeAll addr.toNat bytes } := by
  have hno : ¬ s.engines.any (fun e => e.status.busy && e.ctx.touches addr.toNat bytes.length) = true := by
    simp only [List.any_eq_true, Bool.and_eq_true, Ctx.touches_iff_inBuffers]
    rintro ⟨e, he, hb, x, h1, h2, hx⟩
    exact hfree e he hb x h1 h2 hx
  rw [agentStore, if_neg (Nat.not_lt.mpr hin), if_neg hno]

/-- A load inside the address space is answered from memory when it sees no OUT byte of a running command. -/
theorem agentLoad_of_free {s : State} {addr : DWord} {len : Nat} (hin : addr.toNat + len ≤ memorySize)
    (hfree : ∀ e ∈ s.engines, e.status.busy = true → ∀ x, addr.toNat ≤ x → x < addr.toNat + len →
      e.ctx.outside x) :
    agentLoad addr len s = .next { s with mdata := s.mem.readAll addr.toNat len } := by
  have hno : ¬ s.engines.any (fun e => e.status.busy && e.ctx.outHit addr.toNat len) = true := by
    simp only [List.any_eq_true, Bool.and_eq_true, Ctx.outHit_iff_not_outside]
    rintro ⟨e, he, hb, x, h1, h2, hx⟩
    exact hx (hfree e he hb x h1 h2)
  rw [agentLoad, if_neg (Nat.not_lt.mpr hin), if_neg hno]

/-- A run of bytes is read back (R60, R76). -/
theorem Memory.readAll_writeAll {m : Memory} {a : Nat} {l : List Byte} (hm : m.wf)
    (ha : a + l.length ≤ memorySize) : (m.writeAll a l).readAll a l.length = l := by
  apply List.ext_getElem
  · simp
  · intro j _ hj
    rw [Memory.readAll_getElem, Memory.read_writeAll_same m a l j hm ha hj]

end Sys2Proof.Machine

open Sys2Proof.Machine

/-- Settles O22: away from CMD only a register write has an effect, and no register tells two writes of one value
from one. -/
theorem writingTwiceIsWritingOnce : Obligations.WritingTwiceIsWritingOnce := by
  intro w off v s t hoff h
  rcases hostWrite_of_ne_cmd hoff w v with hw | ⟨r, hw⟩
  · exact hw t
  · rw [hw] at h ⊢
    cases h
    rw [Engine.writeReg_writeReg]

/-- Settles O29: an access that R236 allows reaches memory, and the load is allowed too: a byte outside the buffers is
outside OUT. -/
theorem agentStoreThenLoad : Obligations.AgentStoreThenLoad := by
  refine ⟨fun s addr bytes hm hin hfree => ?_, fun s addr len hin hfree => agentLoad_of_free hin hfree⟩
  refine ⟨_, agentStore_of_free hin hfree, rfl, fun x => Memory.read_writeAll_other s.mem addr.toNat bytes x, ?_⟩
  rw [agentLoad_of_free hin, Memory.readAll_writeAll hm hin]
  intro e he hb x h1 h2
  by_contra hx
  exact hfree e he hb x h1 h2 (.inr (.inr hx))

/-- Settles O59, from the laws of one byte and of the canonical form. -/
theorem memoryWriteThenRead : Obligations.MemoryWriteThenRead :=
  ⟨fun m a v hm ha =>
    ⟨Memory.wf_write m a v hm ha, Memory.read_write_same m a v hm, Memory.read_write_other m a v⟩,
    Memory.ext_read⟩
end

section
/-! The command word: what the decoder reads in its two fields, and what a write of it to CMD does
(spec/30_encoding.md R90 to R94, spec/42_commands.md R172, R173). -/

namespace Sys2Proof.Machine

/-! ## The fields of a word (R91) -/

/-- A word is its two fields, RSVD above OP. -/
theorem rsvd_append_op (w : Word) : (wordFields w).rsvd ++ (wordFields w).op = w :=
  calc w.extractLsb' 4 28 ++ w.extractLsb' 0 4
    _ = w.extractLsb' 0 32 := BitVec.extractLsb'_append_extractLsb'_eq_extractLsb' rfl
    _ = w := BitVec.extractLsb'_eq_self

@[simp] theorem wordFields_encode (i : Instr) : wordFields (encode i) = { op := instrOp i, rsvd := 0 } := by
  cases i <;> rfl

theorem eq_encode_iff (w : Word) (i : Instr) :
    w = encode i ↔ (wordFields w).rsvd = 0 ∧ (wordFields w).op = instrOp i := by
  constructor
  · rintro rfl
    simp
  · rintro ⟨hr, ho⟩
    rw [encode, ← hr, ← ho, rsvd_append_op]

@[simp] theorem CmdWord.reservedZero_iff (c : CmdWord) : c.reservedZero = true ↔ c.rsvd = 0 := by
  simp [CmdWord.reservedZero]

theorem CmdWord.wellFormed_iff (c : CmdWord) : c.wellFormed = true ↔ c.rsvd = 0 ∧ c.op.toNat < 3 := by
  simp [CmdWord.wellFormed, CmdWord.opDefined]

/-! ## The decoder (R93, R94) -/

theorem decode_of_rsvd_ne_zero {w : Word} (h : (wordFields w).rsvd ≠ 0) : decode w = .error .reservedBits := by
  rw [decode, if_neg (by simpa using h)]

theorem decode_of_opInstr_none {w : Word} (hr : (wordFields w).rsvd = 0) (ho : opInstr (wordFields w).op = none) :
    decode w = .error .reservedOp := by
  rw [decode, if_pos (by simpa using hr), ho]

theorem decode_of_opInstr_some {w : Word} {i : Instr} (hr : (wordFields w).rsvd = 0)
    (ho : opInstr (wordFields w).op = some i) : decode w = .ok i := by
  rw [decode, if_pos (by simpa using hr), ho]

/-- The three outcomes of the decoder, by the word's fields. -/
theorem decode_cases (w : Word) :
    ((wordFields w).rsvd ≠ 0 ∧ decode w = .error .reservedBits) ∨
    ((wordFields w).rsvd = 0 ∧ 3 ≤ (wordFields w).op.toNat ∧ decode w = .error .reservedOp) ∨
    ∃ i, w = encode i ∧ (wordFields w).op.toNat < 3 ∧ decode w = .ok i := by
  by_cases hr : (wordFields w).rsvd = 0
  · cases ho : opInstr (wordFields w).op with
    | none => exact .inr (.inl ⟨hr, (opInstr_eq_none _).mp ho, decode_of_opInstr_none hr ho⟩)
    | some i =>
      have hlt : (wordFields w).op.toNat < 3 := by
        by_contra hge
        simp [(opInstr_eq_none _).mpr (Nat.not_lt.mp hge)] at ho
      exact .inr (.inr ⟨i, (eq_encode_iff w i).mpr ⟨hr, (opInstr_eq_some _ i).mp ho⟩, hlt,
        decode_of_opInstr_some hr ho⟩)
  · exact .inl ⟨hr, decode_of_rsvd_ne_zero hr⟩

@[simp] theorem decode_encode (i : Instr) : decode (encode i) = .ok i :=
  decode_of_opInstr_some (by simp) (by simp [opInstr_eq_some])

/-- The decoder matches the whole word (R93). -/
theorem decode_eq_ok_iff (w : Word) (i : Instr) : decode w = .ok i ↔ w = encode i := by
  refine ⟨fun h => ?_, fun h => h ▸ decode_encode i⟩
  rcases decode_cases w with ⟨-, hd⟩ | ⟨-, -, hd⟩ | ⟨j, hw, -, hd⟩ <;> rw [hd] at h <;> cases h
  exact hw

theorem decode_eq_reservedBits_iff (w : Word) : decode w = .error .reservedBits ↔ (wordFields w).rsvd ≠ 0 := by
  refine ⟨fun h => ?_, decode_of_rsvd_ne_zero⟩
  rcases decode_cases w with ⟨hr, -⟩ | ⟨-, -, hd⟩ | ⟨i, -, -, hd⟩
  · exact hr
  · simp [hd] at h
  · simp [hd] at h

theorem decode_eq_reservedOp_iff (w : Word) :
    decode w = .error .reservedOp ↔ (wordFields w).rsvd = 0 ∧ 3 ≤ (wordFields w).op.toNat := by
  refine ⟨fun h => ?_, fun ⟨hr, ho⟩ => decode_of_opInstr_none hr ((opInstr_eq_none _).mpr ho)⟩
  rcases decode_cases w with ⟨-, hd⟩ | ⟨hr, ho, -⟩ | ⟨i, -, -, hd⟩
  · simp [hd] at h
  · exact ⟨hr, ho⟩
  · simp [hd] at h

/-- A word has an instruction exactly when both of its fields are legal (R93, R94). -/
theorem exists_decode_eq_ok_iff (w : Word) : (∃ i, decode w = .ok i) ↔ (wordFields w).wellFormed = true := by
  rw [CmdWord.wellFormed_iff]
  rcases decode_cases w with ⟨hr, hd⟩ | ⟨-, ho, hd⟩ | ⟨i, hw, ho, hd⟩
  · simp only [hd, hr, reduceCtorEq, exists_false, false_and]
  · simp [hd, Nat.not_lt.mpr ho]
  · exact ⟨fun _ => ⟨((eq_encode_iff w i).mp hw).1, ho⟩, fun _ => ⟨i, hd⟩⟩

theorem exists_decode_eq_error {w : Word} (h : (wordFields w).rsvd ≠ 0 ∨ 3 ≤ (wordFields w).op.toNat) :
    ∃ e, decode w = .error e := by
  rcases decode_cases w with ⟨-, hd⟩ | ⟨-, -, hd⟩ | ⟨i, hw, ho, -⟩
  · exact ⟨_, hd⟩
  · exact ⟨_, hd⟩
  · rcases h with hr | hge
    · exact absurd ((eq_encode_iff w i).mp hw).1 hr
    · exact absurd ho (Nat.not_lt.mpr hge)

/-! ## The write to CMD (R172) -/

/-- A command that reaches a BUSY engine is lost, whichever it is (R172, log entry 15). -/
theorem exec_of_busy {s : State} (hb : s.eng.status.busy = true) (i : Instr) : exec i s = .next s := by
  have hlaunch (op : Op) : launch op s = .next s := by rw [launch, if_pos hb]
  cases i with
  | nop => rfl
  | encrypt => exact hlaunch .encrypt
  | decrypt => exact hlaunch .decrypt

/-- A write of a legal word is the decoded instruction, in every state of the engine. -/
theorem commandWrite_of_decode_ok {w : Word} {i : Instr} (hd : decode w = .ok i) (s : State) :
    commandWrite w s = exec i s := by
  cases hb : s.eng.status.busy with
  | true => rw [commandWrite, if_pos hb, exec_of_busy hb]
  | false => simp only [commandWrite, hb, hd, Bool.false_eq_true, if_false]

theorem commandWrite_encode (i : Instr) (s : State) : commandWrite (encode i) s = exec i s :=
  commandWrite_of_decode_ok (decode_encode i) s

theorem commandWrite_of_decode_error {w : Word} {e : IllegalWord} (hd : decode w = .error e) {s : State}
    (hb : s.eng.status.busy = false) : commandWrite w s = .next (reject .illegalCmd s) := by
  simp only [commandWrite, hb, hd, Bool.false_eq_true, if_false]

/-- The STATUS word of R94's rejection. -/
theorem Status.toWord_rejected_illegalCmd : (Status.rejected .illegalCmd).toWord = 0x0000001A := by decide

/-! ## The event that carries a command word (R90, log entries 1 and 10) -/

theorem step_of_inputs_cons {s : State} {ev : Event} {rest : List Event} (h : s.inputs = ev :: rest) :
    step s = runEvent ev { s with inputs := rest } := by
  simp only [step, h]

/-- A command word is no poll, so it never waits. -/
theorem runEvent_commandEvent (w : Word) (s : State) : runEvent (commandEvent w) s = commandWrite w s := by
  have hwaits : waits 0 (.write .w32 Reg.cmd.offset w) s = false := rfl
  rw [commandEvent, runEvent, if_neg (by simp [hwaits]), ← hostWrite_cmd]
  rfl

theorem step_of_commandEvent {s : State} {w : Word} {i : Instr} {rest : List Event}
    (h : s.inputs = commandEvent w :: rest) (hd : decode w = .ok i) : step s = exec i { s with inputs := rest } := by
  rw [step_of_inputs_cons h, runEvent_commandEvent, commandWrite_of_decode_ok hd]

end Sys2Proof.Machine

open Sys2Proof Sys2Proof.Machine

/-- Settles O4: a word is its two fields, and the decoder reads nothing else. -/
theorem decodeAndEncodeAgree : Obligations.DecodeAndEncodeAgree :=
  ⟨fun i _ => decode_encode i, fun w i h => ((decode_eq_ok_iff w i).mp h).symm, exists_decode_eq_ok_iff⟩

/-- Settles O3: the three words are the encodings of the three instructions, and only they decode. -/
theorem commandWordsMatchExactly : Obligations.CommandWordsMatchExactly := by
  refine ⟨fun w => ⟨decode_eq_ok_iff w .nop, decode_eq_ok_iff w .encrypt, decode_eq_ok_iff w .decrypt⟩,
    fun s w hb => by rw [commandWrite, if_pos hb], fun s hb => ⟨commandWrite_encode .nop s,
      commandWrite_encode .encrypt s, commandWrite_encode .decrypt s, fun w h0 h1 h2 => ?_⟩⟩
  cases hd : decode w with
  | error e => exact commandWrite_of_decode_error hd hb
  | ok i =>
    have hw := (decode_eq_ok_iff w i).mp hd
    cases i with
    | nop => exact absurd hw h0
    | encrypt => exact absurd hw h1
    | decrypt => exact absurd hw h2

/-- Settles O5: a word with an illegal field does not decode, and an idle engine rejects it in STATUS alone. -/
theorem reservedEncodingsAreRejected : Obligations.ReservedEncodingsAreRejected := by
  refine ⟨decode_eq_reservedBits_iff, decode_eq_reservedOp_iff, fun s w hb h => ?_⟩
  obtain ⟨e, hd⟩ := exists_decode_eq_error h
  exact ⟨reject .illegalCmd s, commandWrite_of_decode_error hd hb, Status.toWord_rejected_illegalCmd, rfl⟩

/-- Settles O6: three words are encodings, and the fields of the others are read off. -/
theorem writtenOutWordsDecode : Obligations.WrittenOutWordsDecode :=
  ⟨decode_encode .nop, decode_encode .encrypt, decode_encode .decrypt,
    (decode_eq_reservedOp_iff _).mpr (by decide), (decode_eq_reservedOp_iff _).mpr (by decide),
    decode_of_rsvd_ne_zero (by decide), decode_of_rsvd_ne_zero (by decide), decode_of_rsvd_ne_zero (by decide)⟩

/-- Settles O7: the event is a write to CMD, which runs the decoded instruction in every state; `withFetchWord` places
such an event. -/
theorem stepRunsTheDecodedCommand : Obligations.StepRunsTheDecodedCommand := by
  refine ⟨fun s w i rest => step_of_commandEvent, fun s w i hw hd => ?_⟩
  rw [← Nat.mod_eq_of_lt hw] at hd
  exact step_of_commandEvent (s := s.withFetchWord 32 w) rfl hd
end

section
/-! A command's operands as bytes and numbers (spec/30_encoding.md R92), the STATUS words that a command leaves (R95),
and the register writes of the host script (R96, R97). -/

namespace Sys2Proof.Machine

/-! ## Operands (R92) -/

theorem word_keyBytes (e : Engine) (k : Fin 8) : e.keyBytes.extractLsb' (32 * k.val) 32 = e.key[k] := by
  match k with
  | 0 => exact BitVec.extractLsb'_append_eq_right
  | 1 | 2 | 3 | 4 | 5 | 6 =>
    simp (disch := decide) only [Engine.keyBytes, extract_append_high]
    exact BitVec.extractLsb'_append_eq_right
  | 7 =>
    simp (disch := decide) only [Engine.keyBytes, extract_append_high]
    exact BitVec.extractLsb'_eq_self

theorem word_nonceBytes (e : Engine) (k : Fin 5) : e.nonceBytes.extractLsb' (32 * k.val) 32 = e.nonce[k] := by
  match k with
  | 0 => exact BitVec.extractLsb'_append_eq_right
  | 1 | 2 | 3 =>
    simp (disch := decide) only [Engine.nonceBytes, extract_append_high]
    exact BitVec.extractLsb'_append_eq_right
  | 4 =>
    simp (disch := decide) only [Engine.nonceBytes, extract_append_high]
    exact BitVec.extractLsb'_eq_self

theorem word_tagBytes (e : Engine) (k : Fin 4) : e.tagBytes.extractLsb' (32 * k.val) 32 = e.tag[k] := by
  match k with
  | 0 => exact BitVec.extractLsb'_append_eq_right
  | 1 | 2 =>
    simp (disch := decide) only [Engine.tagBytes, extract_append_high]
    exact BitVec.extractLsb'_append_eq_right
  | 3 =>
    simp (disch := decide) only [Engine.tagBytes, extract_append_high]
    exact BitVec.extractLsb'_eq_self

/-- Byte `4k + j` of a value is byte `j` of its word `k`, little-endian. -/
theorem byte_of_word {n k j : Nat} {x : BitVec n} {v : Word} (h : x.extractLsb' (32 * k) 32 = v) (hj : j < 4) :
    x.extractLsb' (8 * (4 * k + j)) 8 = v.extractLsb' (8 * j) 8 := by
  rw [← h, extract_extract _ _ _ _ _ (by omega), show 32 * k + 8 * j = 8 * (4 * k + j) by omega]

theorem toNat_append_word (hi lo : Word) : (hi ++ lo).toNat = hi.toNat * 2 ^ 32 + lo.toNat := by
  rw [BitVec.toNat_append, ← Nat.shiftLeft_add_eq_or_of_lt lo.isLt, Nat.shiftLeft_eq]

/-! ## The host script (R96, R97) -/

namespace Script

/-- A `wr` line is one pair of the encoding, and a list of them is encoded line by line. -/
theorem encoding_map_wr {α : Type} (l : List α) (r : α → Reg) (v : α → Word) :
    encoding (l.map (fun k => wr (r k) (v k))) = l.map (fun k => ((r k).offset, v k)) := by
  simp [encoding, wr, List.filterMap_map]

end Script

end Sys2Proof.Machine

open Sys2Proof Sys2Proof.Machine

/-- Settles O19: each register is a word of its group, and a 64-bit operand is HI above LO. -/
theorem operandsAreTheRegistersBytes : Obligations.OperandsAreTheRegistersBytes := fun e =>
  ⟨fun k _ => byte_of_word (word_keyBytes e k), fun k _ => byte_of_word (word_nonceBytes e k),
    fun k _ => byte_of_word (word_tagBytes e k), toNat_append_word _ _, toNat_append_word _ _, toNat_append_word _ _,
    toNat_append_word _ _, toNat_append_word _ _, fun _ => rfl⟩

/-- Settles O18: fourteen fixed STATUS values, evaluated. -/
theorem statusValuesACommandLeaves : Obligations.StatusValuesACommandLeaves := by
  unfold Obligations.StatusValuesACommandLeaves
  decide

/-- Settles O60: each pseudo-instruction is a list of `wr` lines, but for `wait`. -/
theorem scriptExpandsToRegisterWrites : Obligations.ScriptExpandsToRegisterWrites :=
  ⟨fun _ => Script.encoding_map_wr _ _ _, fun _ => Script.encoding_map_wr _ _ _, fun _ => Script.encoding_map_wr _ _ _,
    fun _ _ => rfl, fun _ _ => rfl, fun _ => rfl, rfl, rfl⟩
end

section
/-! One round and the permutation on every lane, the update on every word and the initialization on every byte
(spec/40_permutation_duplex.md R111 to R119). -/

namespace Sys2Proof.Machine

/-! ## The permutation (R111 to R114) -/

/-- The three steps in order: step 2 reads the `x[i]` of step 1 (R112). -/
theorem round_lanes (r1 r2 : Nat) (s : S512) {i : Nat} (hi : i < 8) :
    laneX (round r1 r2 s) i = (laneX s i + rotr32 (laneY s i) r1) ^^^ roundConstants.getD i 0 ∧
    laneY (round r1 r2 s) i = laneY s i + rotr32 (laneX s i + rotr32 (laneY s i) r1) r2 := by
  obtain ⟨hx1, hy1⟩ := roundStep1_lanes r1 s i hi
  obtain ⟨hx2, hy2⟩ := roundStep2_lanes r2 (roundStep1 r1 s) i hi
  obtain ⟨hx3, hy3⟩ := roundStep3_lanes (roundStep2 r2 (roundStep1 r1 s)) i hi
  exact ⟨by rw [round, hx3, hx2, hx1], by rw [round, hy3, hy2, hx1, hy1]⟩

/-- A round reads no other lane. -/
theorem round_lanes_congr (r1 r2 : Nat) {s t : S512} {i : Nat} (hi : i < 8)
    (h : laneX s i = laneX t i ∧ laneY s i = laneY t i) :
    laneX (round r1 r2 s) i = laneX (round r1 r2 t) i ∧ laneY (round r1 r2 s) i = laneY (round r1 r2 t) i := by
  obtain ⟨hx, hy⟩ := h
  obtain ⟨hsx, hsy⟩ := round_lanes r1 r2 s hi
  obtain ⟨htx, hty⟩ := round_lanes r1 r2 t hi
  exact ⟨by rw [hsx, htx, hx, hy], by rw [hsy, hty, hx, hy]⟩

theorem permute_eq_rounds (s : S512) : permute s = round 24 16 (round 0 31 (round 17 17 (round 31 24 s))) := by
  simp only [permute, rotations, List.foldl]

theorem permute_lanes_congr {s t : S512} {i : Nat} (hi : i < 8)
    (h : laneX s i = laneX t i ∧ laneY s i = laneY t i) :
    laneX (permute s) i = laneX (permute t) i ∧ laneY (permute s) i = laneY (permute t) i := by
  rw [permute_eq_rounds s, permute_eq_rounds t]
  exact round_lanes_congr 24 16 hi (round_lanes_congr 0 31 hi
    (round_lanes_congr 17 17 hi (round_lanes_congr 31 24 hi h)))

/-- The `IV` is no fixed point; evaluated. -/
theorem permute_loadIV_ne : permute (loadIV 0) ≠ loadIV 0 := by decide +kernel

/-! ## The update (R115, R116) -/

theorem word64Of_update (d1 d2 : DWord) (s : S512) {k : Nat} (hk : k < 8) :
    word64Of (update d1 d2 s) k =
      word64Of (permute s) k ^^^ word64Of s ((k + 7) % 8) ^^^ (if k = 0 then d1 else if k = 4 then d2 else 0) := by
  rw [update, word64Of_inject, word64Of_feedback _ _ k hk]

/-! ## Initialization (R118, R119) -/

/-- The IV overwrites every word, so the load onto any state is the load onto 0. -/
theorem word32Of_loadIV (s : S512) (j : Fin 16) : word32Of (loadIV s) j = initialValue[j]! := by
  rw [loadIV_indep s 0]
  revert j
  decide +kernel

theorem initLoad_indep (K : Key) (N : Nonce) (s t : S512) : initLoad K N s = initLoad K N t := by
  rw [initLoad, initLoad, loadIV_indep s t]

/-- A loop that XORs `f` into the `n` bytes from `lo` on, one after the other. -/
theorem byteOf_xorLoop (f : Nat → Byte) (lo : Nat) (s : S512) {n : Nat} (hn : lo + n ≤ 64) (k : Nat) :
    byteOf (forUpTo n (fun j t => setByte t (lo + j) (byteOf t (lo + j) ^^^ f j)) s) k =
      byteOf s k ^^^ (if lo ≤ k ∧ k < lo + n then f (k - lo) else 0) := by
  induction n generalizing k with
  | zero =>
    have hout : ¬ (lo ≤ k ∧ k < lo + 0) := by omega
    rw [forUpTo_zero, if_neg hout]
    exact BitVec.xor_zero.symm
  | succ n ih =>
    rw [forUpTo_succ, byteOf_setByte _ _ _ _ (by omega), ih (by omega), ih (by omega)]
    by_cases hk : k = lo + n
    · subst hk
      simp
    · have hiff : (lo ≤ k ∧ k < lo + (n + 1)) ↔ (lo ≤ k ∧ k < lo + n) := by omega
      rw [if_neg hk]
      simp only [hiff]

theorem byteOf_xorKey (K : Key) (s : S512) (k : Nat) :
    byteOf (xorKey K s) k = byteOf s k ^^^ (if k < 32 then K.extractLsb' (8 * k) 8 else 0) := by
  simpa [xorKey] using byteOf_xorLoop (fun j => K.extractLsb' (8 * j) 8) 0 s (n := 32) (by decide) k

theorem byteOf_xorNonce (N : Nonce) (s : S512) (k : Nat) :
    byteOf (xorNonce N s) k =
      byteOf s k ^^^ (if 32 ≤ k ∧ k < 52 then N.extractLsb' (8 * (k - 32)) 8 else 0) :=
  byteOf_xorLoop (fun j => N.extractLsb' (8 * j) 8) 32 s (n := 20) (by decide) k

/-- Key and nonce go into disjoint ranges of bytes. -/
theorem byteOf_initLoad (K : Key) (N : Nonce) (s : S512) (k : Nat) :
    byteOf (initLoad K N s) k =
      byteOf (loadIV s) k ^^^ (if k < 32 then K.extractLsb' (8 * k) 8
        else if k < 52 then N.extractLsb' (8 * (k - 32)) 8 else 0) := by
  rw [initLoad, byteOf_xorNonce, byteOf_xorKey]
  by_cases hkey : k < 32
  · simp [hkey, Nat.not_le.mpr hkey]
  · simp [hkey, Nat.not_lt.mp hkey]

theorem init_eq_foldl_update (K : Key) (N : Nonce) (s : S512) :
    init K N =
      (List.range 20).foldl (fun t i => update (BitVec.ofNat 64 i) (BitVec.ofNat 64 i) t) (initLoad K N s) := by
  rw [init, initLoad_indep K N 0 s]
  rfl

end Sys2Proof.Machine

open Sys2Proof.Machine

/-- Settles O31: the three steps of a round, one lane at a time. -/
theorem roundOnEveryLane : Obligations.RoundOnEveryLane := by
  intro r1 r2 s i
  obtain ⟨hx, hy⟩ := round_lanes r1 r2 s i.isLt
  have hRC : roundConstants[i]! = roundConstants.getD i 0 := by
    rw [Fin.getElem!_fin, List.getElem!_eq_getElem?_getD]
    rfl
  exact ⟨by rw [hx, hRC], hy, rfl⟩

/-- Settles O32: no round of the schedule mixes lanes, and the IV moves. -/
theorem permuteIsLaneWise : Obligations.PermuteIsLaneWise :=
  ⟨permute_eq_rounds, fun _ _ i hx hy => permute_lanes_congr i.isLt ⟨hx, hy⟩, permute_loadIV_ne⟩

/-- Settles O33: the injection comes after the feedback, word by word. -/
theorem updateOnEveryWord : Obligations.UpdateOnEveryWord := fun d1 d2 s k => word64Of_update d1 d2 s k.isLt

/-- Settles O34: the IV covers every word, and the two XOR loops are read byte by byte. -/
theorem initOnEveryByte : Obligations.InitOnEveryByte :=
  ⟨word32Of_loadIV, rfl, fun K N s j _ => byteOf_initLoad K N s j, init_eq_foldl_update⟩
end

section
/-! Blocks, padding, rollback, tag and comparison byte by byte, and the two AEAD functions as inverses
(spec/41_block_mac.md R140 to R157). -/

namespace Sys2Proof.Machine

/-! ## Bytes of the state (R12) -/

/-- A byte of the state is a byte of the 64-bit word that holds it. -/
theorem byteOf_eq_byte_word64Of (s : S512) (k : Nat) :
    byteOf s k = (word64Of s (k / 8)).extractLsb' (8 * (k % 8)) 8 := by
  rw [word64Of, extract_extract _ _ _ _ _ (by omega), byteOf, show 64 * (k / 8) + 8 * (k % 8) = 8 * k by omega]

/-- A byte of the 16-byte window of the state that starts at byte `m`. -/
theorem byte_window (s : S512) (m : Nat) {j : Nat} (hj : j < 16) :
    (s.extractLsb' (8 * m) 128).extractLsb' (8 * j) 8 = byteOf s (m + j) := by
  rw [extract_extract _ _ _ _ _ (by omega), byteOf, Nat.mul_add]

/-- Byte `j` of a masked block: both windows go in (R140). -/
theorem byte_mask (s : S512) (blk : Block) {j : Nat} (hj : j < 16) :
    (mask s blk).extractLsb' (8 * j) 8 = blk.extractLsb' (8 * j) 8 ^^^ byteOf s (16 + j) ^^^ byteOf s (48 + j) := by
  rw [mask, extract_xor, extract_xor, byte_window s 16 hj, byte_window s 48 hj]

/-- Byte `j` of the tag fold: all four windows go in (R151). -/
theorem byte_tagFold (s : S512) {j : Nat} (hj : j < 16) :
    (tagFold s).extractLsb' (8 * j) 8 =
      byteOf s j ^^^ byteOf s (16 + j) ^^^ byteOf s (32 + j) ^^^ byteOf s (48 + j) := by
  have h0 := byte_window s 0 hj
  rw [Nat.zero_add] at h0
  rw [tagFold, extract_xor, extract_xor, extract_xor, h0, byte_window s 16 hj, byte_window s 32 hj,
    byte_window s 48 hj]

/-! ## The rollback (R148) -/

/-- An injection reaches bytes 0 to 7 with its first word and bytes 32 to 39 with its second (R116). -/
theorem byteOf_inject (d1 d2 : DWord) (s : S512) (k : Nat) :
    byteOf (inject d1 d2 s) k = byteOf s k ^^^
      (if k < 8 then d1.extractLsb' (8 * k) 8
       else if 32 ≤ k ∧ k < 40 then d2.extractLsb' (8 * (k - 32)) 8 else 0) := by
  rw [byteOf_eq_byte_word64Of, word64Of_inject, extract_xor, ← byteOf_eq_byte_word64Of]
  congr 1
  by_cases hlo : k < 8
  · rw [if_pos (by omega : k / 8 = 0), if_pos hlo, Nat.mod_eq_of_lt hlo]
  · rw [if_neg (by omega : ¬ k / 8 = 0), if_neg hlo]
    by_cases hhi : 32 ≤ k ∧ k < 40
    · rw [if_pos (by omega : k / 8 = 4), if_pos hhi, show k % 8 = k - 32 by omega]
    · rw [if_neg (by omega : ¬ k / 8 = 4), if_neg hhi]
      exact BitVec.extractLsb'_zero

/-- The rollback takes the padding bytes out of the two words that the update put them into. -/
theorem byteOf_rollback (s : S512) (p : Block) (r k : Nat) :
    byteOf (rollback s p r) k = byteOf s k ^^^
      (if k < 8 then (if k < r then 0 else p.extractLsb' (8 * k) 8)
       else if 32 ≤ k ∧ k < 40 then (if k - 24 < r then 0 else p.extractLsb' (8 * (k - 24)) 8)
       else 0) := by
  rw [rollback, byteOf_inject]
  congr 1
  by_cases hlo : k < 8
  · rw [if_pos hlo, if_pos hlo, extract_extract _ _ _ _ _ (by omega), Nat.zero_add, byte_paddingOf _ _ _ (by omega)]
  · rw [if_neg hlo, if_neg hlo]
    by_cases hhi : 32 ≤ k ∧ k < 40
    · rw [if_pos hhi, if_pos hhi, extract_extract _ _ _ _ _ (by omega), show 64 + 8 * (k - 32) = 8 * (k - 24) by omega,
        byte_paddingOf _ _ _ (by omega)]
    · rw [if_neg hhi, if_neg hhi]

/-! ## Padding and segments (R143, R144) -/

/-- The bytes of a padded segment are the segment's and then zeros. -/
theorem blockBytes_pad {seg : List Byte} (h : seg.length ≤ 16) :
    blockBytes (pad seg) = seg ++ List.replicate (16 - seg.length) 0 := by
  have hlen : (seg ++ List.replicate (16 - seg.length) (0 : Byte)).length = 16 := by simp; omega
  apply List.ext_getElem (by rw [blockBytes_length, hlen])
  intro j hj hj'
  rw [blockBytes_getElem, pad, byte_blockOfBytes _ _ (by omega), List.getD_eq_getElem?_getD,
    List.getElem?_eq_getElem hj']
  rfl

/-- The last block counts exactly when it is not empty. -/
theorem blockCount_eq (L : Nat) : blockCount L = L / 16 + (if L % 16 = 0 then 0 else 1) := by
  unfold blockCount; split <;> omega

/-- The first `q` blocks joined are the first `16q` bytes. -/
theorem flatMap_segment (l : List Byte) (q : Nat) : (List.range q).flatMap (segment l) = l.take (16 * q) := by
  induction q with
  | zero => simp
  | succ q ih => rw [List.range_succ, List.flatMap_append, ih, take_succ_segment, List.flatMap_singleton]

/-- The blocks reach to the end of the sequence. -/
theorem take_blockCount (l : List Byte) : l.take (16 * blockCount l.length) = l :=
  List.take_of_length_le (by unfold blockCount; omega)

/-! ## The comparison (R152) -/

theorem ctEq_iff (T T' : Block) : ctEq T T' = true ↔ T = T' := by
  rw [ctEq, beq_iff_eq]
  exact tagDiff_eq_zero_iff T T'

/-! ## The two payload functions (R150) -/

theorem encryptPayload_eq_loop (s : S512) (M : List Byte) :
    encryptPayload s M = encryptLoop s M (blockCount M.length) := rfl

theorem decryptPayload_eq_loop (s : S512) (C : List Byte) :
    decryptPayload s C = decryptLoop s C (blockCount C.length) := rfl

theorem encryptPayload_length (s : S512) (M : List Byte) : (encryptPayload s M).2.length = M.length := by
  rw [encryptPayload_eq_loop, encryptLoop_length]
  exact Nat.min_eq_right (by unfold blockCount; omega)

/-- One block on: decrypting the block that encryption wrote gives the plaintext block and encryption's state. -/
theorem decryptStep_of_encrypted {C M : List Byte} {S : S512} (out : List Byte) {q : Nat}
    (hC : segment C q = (blockBytes (mask S (pad (segment M q)))).take (segment M q).length) :
    decryptStep C (S, out) q = ((encBlock S (pad (segment M q))).1, out ++ segment M q) := by
  have hle := segment_length_le M q
  have hdec := decPayloadBlock_encBlock S (segment M q) hle
  simp only [decryptStep, hC]
  simp only [encBlock] at hdec ⊢
  rw [hdec]
  simp [take_decrypted S (segment M q) hle, hle]

/-- Block by block, decryption of a ciphertext goes through encryption's states. -/
theorem decryptLoop_encryptLoop (s : S512) (M : List Byte) {q n : Nat} (h : q ≤ n) :
    decryptLoop s (encryptLoop s M n).2 q = ((encryptLoop s M q).1, M.take (16 * q)) := by
  induction q with
  | zero => simp
  | succ q ih =>
    rw [decryptLoop_succ, ih (by omega), decryptStep_of_encrypted _ (segment_encryptLoop s M q n h), encryptLoop_succ,
      take_succ_segment]
    rfl

theorem decryptPayload_encryptPayload (s : S512) (M : List Byte) :
    decryptPayload s (encryptPayload s M).2 = ((encryptPayload s M).1, M) := by
  rw [decryptPayload_eq_loop, encryptPayload_length, encryptPayload_eq_loop, decryptLoop_encryptLoop s M le_rfl,
    take_blockCount]

/-! ## The AEAD functions (R156, R157) -/

/-- Decryption recomputes the tag of the encryption. -/
theorem decryptTag_aeadEncrypt (K : Key) (N : Nonce) (ad M : List Byte) :
    decryptTag K N ad (aeadEncrypt K N ad M).1 = (aeadEncrypt K N ad M).2 := by
  simp only [decryptTag, aeadEncrypt, decryptPayload_encryptPayload, encryptPayload_length]

theorem aeadDecrypt_of_tag_eq {K : Key} {N : Nonce} {ad C : List Byte} {T' : Block} (h : T' = decryptTag K N ad C) :
    aeadDecrypt K N ad C T' = ((decryptPayload (absorbAD (init K N) ad) C).2, true) :=
  if_pos ((ctEq_iff _ _).mpr h.symm)

theorem aeadDecrypt_of_tag_ne {K : Key} {N : Nonce} {ad C : List Byte} {T' : Block} (h : T' ≠ decryptTag K N ad C) :
    aeadDecrypt K N ad C T' = (List.replicate C.length failByte, false) :=
  if_neg fun heq => h ((ctEq_iff _ _).mp heq).symm

theorem aeadDecrypt_aeadEncrypt (K : Key) (N : Nonce) (ad M : List Byte) :
    aeadDecrypt K N ad (aeadEncrypt K N ad M).1 (aeadEncrypt K N ad M).2 = (M, true) := by
  rw [aeadDecrypt_of_tag_eq (decryptTag_aeadEncrypt K N ad M).symm]
  simp only [aeadEncrypt, decryptPayload_encryptPayload]

end Sys2Proof.Machine

open Sys2Proof.Machine

/-- Settles O35: both windows, byte by byte. -/
theorem maskOnEveryByte : Obligations.MaskOnEveryByte := fun s blk _ hj => byte_mask s blk hj

/-- Settles O36: the mask is an XOR with windows of one state, so it undoes itself. -/
theorem blockOperationsInvert : Obligations.BlockOperationsInvert := fun s p =>
  ⟨rfl, rfl, rfl, rfl, decBlock_encBlock s p⟩

/-- Settles O37, byte by byte. -/
theorem paddingAddsZeros : Obligations.PaddingAddsZeros := fun _ h => blockBytes_pad h

/-- Settles O38: the blocks joined are the first `16q` bytes, and the last block reaches to the end. -/
theorem segmentsMakeUpTheSequence : Obligations.SegmentsMakeUpTheSequence := by
  intro l
  refine ⟨blockCount_eq _, fun b hb => ⟨rfl, ?_⟩, ?_, ?_⟩
  · rw [segment_length]; omega
  · rw [segment_length]; omega
  · rw [flatMap_segment, take_blockCount]

/-- Settles O39: the padding bytes go into bytes 0 to 7 and 32 to 39. -/
theorem rollbackOnEveryByte : Obligations.RollbackOnEveryByte := fun s p r k _ _ _ => byteOf_rollback s p r k

/-- Settles O40: the fold of the state after ten updates. -/
theorem tagOnEveryByte : Obligations.TagOnEveryByte := by
  rintro s a n j hj t rfl
  exact byte_tagFold _ hj

/-- Settles O41: the accumulator is zero when every byte agrees. -/
theorem comparisonIsEquality : Obligations.ComparisonIsEquality := ctEq_iff

/-- Settles O42, by induction on the blocks; the rollback makes the partial one exact. -/
theorem sameStateTrajectory : Obligations.SameStateTrajectory := decryptPayload_encryptPayload

/-- Settles O43, from the trajectory (R150) and the comparison (R152). -/
theorem aeadDecryptInvertsAeadEncrypt : Obligations.AeadDecryptInvertsAeadEncrypt :=
  ⟨aeadDecrypt_aeadEncrypt, fun _ _ _ _ _ h => aeadDecrypt_of_tag_eq h, fun _ _ _ _ _ h => aeadDecrypt_of_tag_ne h⟩

/-- Settles O45: every argument of the vector is fixed, and the kernel evaluates it. -/
theorem knownAnswerTest : Obligations.KnownAnswerTest := by
  unfold Obligations.KnownAnswerTest
  decide +kernel
end

section
/-! Two engines of the same shape step alike, whatever their data (spec/41_block_mac.md R155). -/

namespace Sys2Proof.Machine

/-! ## Which way a step goes -/

/-- The command goes on: the next phase, with STATUS and the context as they were, and an accumulator that only VERIFY
writes. -/
structure Continues (s t : State) : Prop where
  map    : t.map = s.map
  ctx    : t.eng.ctx = s.eng.ctx
  phase  : t.eng.phase = s.eng.nextPhase
  status : t.eng.status = s.eng.status
  acc    : t.eng.acc = if s.eng.phase = .verify then tagDiff s.eng.rtag s.eng.ctx.T else s.eng.acc

/-- A block or a fill byte was dealt with, and the phase moved on. -/
theorem continues_of_processed (s : State) {m : Memory} {S : S512} {blk : Block} {ph : Phase}
    (hph : ph = s.eng.nextPhase) (hv : s.eng.phase ≠ .verify) :
    Continues s { s with mem := m, eng := { s.eng with S := S, blk := blk, phase := ph } } :=
  ⟨rfl, rfl, hph, rfl, (if_neg hv).symm⟩

/-- The steps from `s` to `t` and from `s'` to `t'` go the same way. -/
inductive StepTogether (s s' t t' : State) : Prop where
  | stay (h : t = s) (h' : t' = s')
  | abort (h : t = busAbort s) (h' : t' = busAbort s')
  | wipe (h : t = stepWipe s) (h' : t' = stepWipe s')
  | goOn (h : Continues s t) (h' : Continues s' t')

section
variable {s s' : State} (h : State.SameShape s s')
include h

theorem stepAd_together {b : Nat} (hp : s.eng.phase = .ad b) : StepTogether s s' (stepAd b s) (stepAd b s') := by
  have hp' : s'.eng.phase = .ad b := h.phase ▸ hp
  have hread : readBytes s'.map s'.mem (s'.eng.ctx.A.toNat + 16 * b) (blockLen s'.eng.ctx.a.toNat b) =
      readBytes s.map s'.mem (s.eng.ctx.A.toNat + 16 * b) (blockLen s.eng.ctx.a.toNat b) := by rw [h.map, h.A, h.a]
  simp only [stepAd, hread]
  rcases readBytes_kind s.map s.mem s'.mem (s.eng.ctx.A.toNat + 16 * b) (blockLen s.eng.ctx.a.toNat b) with
    ⟨hr, hr'⟩ | ⟨hr, hr'⟩ | ⟨hr, hr'⟩ <;> simp only [hr, hr']
  · exact .abort rfl rfl
  · exact .stay rfl rfl
  · exact .goOn (continues_of_processed s (by simp only [Engine.nextPhase, hp]) (by simp [hp]))
      (continues_of_processed s' (by simp only [Engine.nextPhase, hp']) (by simp [hp']))

/-- The writes follow the number of bytes read, not their values. -/
theorem stepMsg_together {b : Nat} (hp : s.eng.phase = .msg b) : StepTogether s s' (stepMsg b s) (stepMsg b s') := by
  have hp' : s'.eng.phase = .msg b := h.phase ▸ hp
  have hread : readBytes s'.map s'.mem (s'.eng.ctx.I.toNat + 16 * b) (blockLen s'.eng.ctx.n.toNat b) =
      readBytes s.map s'.mem (s.eng.ctx.I.toNat + 16 * b) (blockLen s.eng.ctx.n.toNat b) := by rw [h.map, h.I, h.n]
  have hwrite : ∀ l, writeBytes s'.map s'.mem (s'.eng.ctx.O.toNat + 16 * b) l =
      writeBytes s.map s'.mem (s.eng.ctx.O.toNat + 16 * b) l := by simp only [h.map, h.O, implies_true]
  simp only [stepMsg, hread, hwrite]
  rcases readBytes_kind s.map s.mem s'.mem (s.eng.ctx.I.toNat + 16 * b) (blockLen s.eng.ctx.n.toNat b) with
    ⟨hr, hr'⟩ | ⟨hr, hr'⟩ | ⟨hr, hr'⟩ <;> simp only [hr, hr']
  · exact .abort rfl rfl
  · exact .stay rfl rfl
  · generalize hl : (blockBytes (payloadBlock s.eng.ctx.op s.eng.S _).2).take _ = l
    generalize hl' : (blockBytes (payloadBlock s'.eng.ctx.op s'.eng.S _).2).take _ = l'
    have hlen : l.length = l'.length := by simp [← hl, ← hl']
    rcases writeBytes_kind s.map s.mem s'.mem (s.eng.ctx.O.toNat + 16 * b) l l' hlen with
      ⟨hw, hw'⟩ | ⟨hw, hw'⟩ | ⟨hw, hw'⟩ <;> simp only [hw, hw']
    · exact .abort rfl rfl
    · exact .stay rfl rfl
    · exact .goOn (continues_of_processed s (by simp only [Engine.nextPhase, hp]) (by simp [hp]))
        (continues_of_processed s' (by simp only [Engine.nextPhase, hp']) (by simp [hp']))

theorem stepFill_together {o : Nat} (hp : s.eng.phase = .fill o) :
    StepTogether s s' (stepFill o s) (stepFill o s') := by
  have hp' : s'.eng.phase = .fill o := h.phase ▸ hp
  have hwrite : writeBytes s'.map s'.mem (s'.eng.ctx.O.toNat + o) [failByte] =
      writeBytes s.map s'.mem (s.eng.ctx.O.toNat + o) [failByte] := by rw [h.map, h.O]
  simp only [stepFill, hwrite]
  rcases writeBytes_kind s.map s.mem s'.mem (s.eng.ctx.O.toNat + o) [failByte] [failByte] rfl with
    ⟨hw, hw'⟩ | ⟨hw, hw'⟩ | ⟨hw, hw'⟩ <;> simp only [hw, hw']
  · exact .abort rfl rfl
  · exact .stay rfl rfl
  · exact .goOn (continues_of_processed s (by simp only [Engine.nextPhase, hp]) (by simp [hp]))
      (continues_of_processed s' (by simp only [Engine.nextPhase, hp']) (by simp [hp']))

/-- No step asks what the bytes, the state or the key are: which way it goes depends on the shape only. -/
theorem engineStep_together : StepTogether s s' (engineStep s) (engineStep s') := by
  unfold engineStep
  rw [← h.phase]
  cases hp : s.eng.phase with
  | idle => exact .stay rfl rfl
  | ad b => exact stepAd_together h hp
  | msg b => exact stepMsg_together h hp
  | fill o => exact stepFill_together h hp
  | wipe => exact .wipe rfl rfl
  | _ =>
    -- INIT, MAC and VERIFY access no memory.
    have hp' := h.phase ▸ hp
    exact .goOn ⟨rfl, rfl, by simp only [Engine.nextPhase, hp]; rfl, rfl, by rw [hp]; rfl⟩
      ⟨rfl, rfl, by simp only [Engine.nextPhase, hp']; rfl, rfl, by rw [hp']; rfl⟩

/-! ## What two steps keep the same -/

variable (hc : State.ComparesAlike s s')
include hc

/-- The next phase depends on the shape and, in VERIFY, on the outcome of the comparison. -/
theorem nextPhase_congr : s.eng.nextPhase = s'.eng.nextPhase := by
  unfold Engine.nextPhase
  rw [← h.phase]
  cases hp : s.eng.phase with
  | verify => simp only [Ctx.nextVerify, ne_eq, tagDiff_eq_zero_iff, hc hp, h.n]
  | _ =>
    simp only [Ctx.nextInit, Ctx.nextAd, Ctx.nextMsg, Ctx.nextMac, Ctx.nextFill, Ctx.afterInit, Ctx.afterAd,
      Ctx.afterMsg, h.op, h.a, h.n]

theorem engineStep_sameShape : State.SameShape (engineStep s) (engineStep s') := by
  cases engineStep_together h with
  | stay ht ht' => rw [ht, ht']; exact h
  | abort ht ht' =>
    rw [ht, ht']
    exact ⟨h.map, rfl, rfl, rfl, rfl, rfl, rfl, rfl, rfl, fun hb => Bool.noConfusion hb⟩
  | wipe ht ht' =>
    rw [ht, ht']
    exact ⟨h.map, rfl, rfl, rfl, rfl, rfl, rfl, rfl, rfl, fun hb => Bool.noConfusion hb⟩
  | goOn ht ht' =>
    refine ⟨by rw [ht.map, ht'.map, h.map], by rw [ht.phase, ht'.phase, nextPhase_congr h hc], ?_, ?_, ?_, ?_, ?_, ?_,
      by rw [ht.status, ht'.status]; exact h.status, by rw [ht.status, ht'.status]; exact h.runs⟩ <;>
      rw [ht.ctx, ht'.ctx]
    exacts [h.op, h.A, h.a, h.I, h.n, h.O]

end

/-- Two engines report the same STATUS, and the comparisons behind them, if any, came out alike. -/
def State.SameOutcome (s s' : State) : Prop := s.eng.status = s'.eng.status ∧ (s.eng.acc = 0 ↔ s'.eng.acc = 0)

theorem engineStep_sameOutcome {s s' : State} (h : State.SameShape s s') (hc : State.ComparesAlike s s')
    (ho : State.SameOutcome s s') : State.SameOutcome (engineStep s) (engineStep s') := by
  obtain ⟨hst, hacc⟩ := ho
  cases engineStep_together h with
  | stay ht ht' => rw [ht, ht']; exact ⟨hst, hacc⟩
  | abort ht ht' =>
    rw [ht, ht']
    exact ⟨by rw [busAbort_eng, busAbort_eng, Engine.finish_status, Engine.finish_status, h.phase], Iff.rfl⟩
  | wipe ht ht' =>
    have hfail : s.eng.tagFailed = s'.eng.tagFailed := by
      rw [Bool.eq_iff_iff]
      simp only [Engine.tagFailed, Bool.and_eq_true, decide_eq_true_eq, bne_iff_ne, ne_eq, h.op, hacc]
    rw [ht, ht']
    exact ⟨congrArg Status.completed hfail, Iff.rfl⟩
  | goOn ht ht' =>
    refine ⟨by rw [ht.status, ht'.status, hst], ?_⟩
    rw [ht.acc, ht'.acc, ← h.phase]
    by_cases hv : s.eng.phase = .verify
    · simp only [if_pos hv, tagDiff_eq_zero_iff, hc hv]
    · simpa only [if_neg hv] using hacc

/-! ## Any number of steps -/

theorem engineSteps_sameShape {s s' : State} (h : State.SameShape s s') {k : Nat}
    (hc : ∀ j, j < k → State.ComparesAlike (engineSteps j s) (engineSteps j s')) :
    State.SameShape (engineSteps k s) (engineSteps k s') := by
  induction k with
  | zero => exact h
  | succ k ih =>
    rw [engineSteps_succ', engineSteps_succ']
    exact engineStep_sameShape (ih fun j hj => hc j (by omega)) (hc k (by omega))

theorem engineSteps_sameOutcome {s s' : State} (h : State.SameShape s s') (ho : State.SameOutcome s s') {k : Nat}
    (hc : ∀ j, j < k → State.ComparesAlike (engineSteps j s) (engineSteps j s')) :
    State.SameOutcome (engineSteps k s) (engineSteps k s') := by
  induction k with
  | zero => exact ho
  | succ k ih =>
    have hck : ∀ j, j < k → State.ComparesAlike (engineSteps j s) (engineSteps j s') := fun j hj => hc j (by omega)
    rw [engineSteps_succ', engineSteps_succ']
    exact engineStep_sameOutcome (engineSteps_sameShape h hck) (hc k (by omega)) (ih hck)

end Sys2Proof.Machine

open Sys2Proof.Machine

/-- Settles O57: in every phase two engines of the same shape step the same way, and go to the same next phase. -/
theorem sequenceIsIndependentOfData : Obligations.SequenceIsIndependentOfData := fun _ _ h _ hc =>
  ⟨engineSteps_sameShape h hc, fun hst hacc => (engineSteps_sameOutcome h ⟨hst, hacc⟩ hc).1⟩
end

section
/-! What the host sees of a command word and of a register access: the value read, the configuration written, and the
loss, the rejection or the acceptance of a command (spec/42_commands.md R170 to R177). -/

namespace Sys2Proof.Machine

/-! ## Configuration registers (R40, R170, R171) -/

/-- KEY alone holds a value that a read does not show (R33, R171). -/
theorem Engine.readReg_eq_contents (e : Engine) {r : Reg} (h : ∀ k, r ≠ .key k) : e.readReg r = e.contents r := by
  cases r with
  | key k => exact absurd rfl (h k)
  | _ => rfl

theorem Reg.ne_of_isConfig {r r' : Reg} (hr : r.isConfig = true) (hr' : r'.isConfig = false) : r ≠ r' := by
  rintro rfl
  simp [hr] at hr'

theorem Engine.contents_writeConfig_same (e : Engine) {r : Reg} (hr : r.isConfig = true) (v : Word) :
    (e.writeConfig r v).contents r = v := by
  cases r with
  | cmd | status | irqEn => cases hr
  | key k | nonce k | tag k => exact Vector.getElem_set_self k.isLt
  | _ => rfl

theorem Engine.contents_writeConfig_other (e : Engine) {r r' : Reg} (h : r' ≠ r) (v : Word) :
    (e.writeConfig r v).contents r' = e.contents r' := by
  have hval {n : Nat} {k k' : Fin n} {f : Fin n → Reg} (hne : f k' ≠ f k) : k.val ≠ k'.val :=
    fun heq => hne (congrArg f (Fin.ext heq.symm))
  cases r with
  | key k =>
    cases r' with
    | key k' => exact Vector.getElem_set_ne k.isLt k'.isLt (hval h)
    | _ => rfl
  | nonce k =>
    cases r' with
    | nonce k' => exact Vector.getElem_set_ne k.isLt k'.isLt (hval h)
    | _ => rfl
  | tag k =>
    cases r' with
    | tag k' => exact Vector.getElem_set_ne k.isLt k'.isLt (hval h)
    | _ => rfl
  | _ => cases r' <;> simp [Engine.writeConfig, Engine.contents] at h ⊢

/-- An idle engine takes a write of a configuration register (R170). -/
theorem hostWrite_config_of_idle {s : State} (hb : s.eng.status.busy = false) {r : Reg} (hr : r.isConfig = true)
    (v : Word) : hostWrite .w32 r.offset v s = .next { s with eng := s.eng.writeConfig r v } := by
  rw [hostWrite_reg r v s (Reg.ne_of_isConfig hr rfl),
    Engine.writeReg_of_ne _ v (Reg.ne_of_isConfig hr rfl) (Reg.ne_of_isConfig hr rfl), if_neg (by simp [hb])]

/-- TAG waits for the end of the command (R171). -/
theorem engineStep_tag_of_busy {s : State} (hb : (engineStep s).eng.status.busy = true) :
    (engineStep s).eng.tag = s.eng.tag := by
  rcases engineStep_outcome s with h | h | ⟨-, h⟩ | ⟨-, -, -, htag⟩
  · rw [h]
  · rw [h] at hb; cases hb
  · rw [h] at hb; cases hb
  · exact htag

/-! ## Commands (R172 to R177) -/

/-- A word written to CMD while BUSY is lost, legal or not (R172). -/
theorem commandWrite_of_busy {s : State} (hb : s.eng.status.busy = true) (w : Word) : commandWrite w s = .next s :=
  if_pos hb

/-- The instruction launches a command with the operation `op`. -/
def Launches (i : Instr) (op : Op) : Prop := (i = .encrypt ∧ op = .encrypt) ∨ (i = .decrypt ∧ op = .decrypt)

theorem exec_of_launches {i : Instr} {op : Op} (h : Launches i op) (s : State) : exec i s = launch op s := by
  rcases h with ⟨rfl, rfl⟩ | ⟨rfl, rfl⟩ <;> rfl

section
variable {op : Op} {s : State} (hb : s.eng.status.busy = false)
include hb

theorem launch_of_rangeBad (hr : (s.eng.capture op).rangeBad = true) : launch op s = .next (reject .range s) := by
  simp [launch, hb, hr]

/-- The overlap check comes second (R175, R176). -/
theorem launch_of_overlapBad (hr : (s.eng.capture op).rangeBad = false) (ho : (s.eng.capture op).overlapBad = true) :
    launch op s = .next (reject .overlap s) := by
  simp [launch, hb, hr, ho]

/-- A launch that passes both checks is accepted or, in a conflict, refused: STATUS never reports an error. -/
theorem launch_ne_reject (hr : (s.eng.capture op).rangeBad = false) (ho : (s.eng.capture op).overlapBad = false)
    (c : ErrCode) : launch op s ≠ .next (reject c s) := by
  intro h
  rcases launch_next h with ⟨hbusy, -⟩ | ⟨-, hbad, -⟩ | ⟨-, -, hbad, -⟩ | ⟨-, hacc⟩
  · simp [hb] at hbusy
  · simp [hr] at hbad
  · simp [ho] at hbad
  · have hbusy : (reject c s).eng.status.busy = true := by rw [hacc]; rfl
    cases hbusy

end

theorem Ctx.overlapBad_false_iff (c : Ctx) : c.overlapBad = false ↔
    ∀ x, c.O.toNat ≤ x → x < c.O.toNat + c.n.toNat →
      ¬ (c.A.toNat ≤ x ∧ x < c.A.toNat + c.a.toNat) ∧
      (¬ (c.I.toNat ≤ x ∧ x < c.I.toNat + c.n.toNat) ∨ c.O = c.I) := by
  rw [← Bool.not_eq_true, Ctx.overlapBad_iff]
  grind

/-- STATUS after a rejection: DONE, ERR and the code (R174). -/
theorem Status.toWord_rejected (c : ErrCode) :
    (Status.rejected c).toWord = 0x0000000A ||| ((c.bits.setWidth 32) <<< 4) := by
  cases c <;> decide

/-- STATUS after an acceptance: BUSY alone (R177). -/
theorem Status.toWord_accepted : Status.accepted.toWord = 0x00000001 := by decide

theorem reject_irq (c : ErrCode) (s : State) : (reject c s).eng.irq = s.eng.ie := Bool.true_and _

end Sys2Proof.Machine

open Sys2Proof Sys2Proof.Machine

/-- Settles O10: a defined read is the register's value, which is its contents but for KEY. -/
theorem hostReadReturnsTheRegister : Obligations.HostReadReturnsTheRegister :=
  ⟨fun e => ⟨hostReadValue_reg .cmd e, fun k => hostReadValue_reg (.key k) e⟩,
    fun e _ h => hostReadValue_of_noRegister (fun _ => h) e,
    fun e r _ hkey => (hostReadValue_reg r e).trans (e.readReg_eq_contents hkey),
    fun _ _ _ => rfl, fun _ => engineStep_tag_of_busy,
    fun op s => (hostReadValue_reg .status (accept op s).eng).trans Status.toWord_accepted⟩

/-- Settles O12: the write is `writeConfig`, which reaches one register. -/
theorem configWriteOfIdleEngine : Obligations.ConfigWriteOfIdleEngine := fun s r v hb hr =>
  ⟨s.eng.writeConfig r v, hostWrite_config_of_idle hb hr v, s.eng.contents_writeConfig_same hr v,
    fun _ hne => s.eng.contents_writeConfig_other hne v, s.eng.writeConfig_status r v,
    s.eng.writeConfig_sameHidden r v⟩

/-- Settles O23: the word 0 is the encoding of NOP. -/
theorem nopChangesNothing : Obligations.NopChangesNothing := fun s => ⟨rfl, commandWrite_encode .nop s⟩

/-- Settles O24, check by check; a launch that passes them is not rejected. -/
theorem rejectionChangesOnlyStatus : Obligations.RejectionChangesOnlyStatus := by
  intro s i hb hi
  obtain ⟨op, hop⟩ : ∃ op, Launches i op := by
    rcases hi with rfl | rfl
    · exact ⟨.encrypt, .inl ⟨rfl, rfl⟩⟩
    · exact ⟨.decrypt, .inr ⟨rfl, rfl⟩⟩
  obtain ⟨-, -, hidle⟩ := commandWordsMatchExactly
  obtain ⟨-, -, -, hillegal⟩ := hidle s hb
  have hrange (hA : s.eng.adAddr.toNat + s.eng.adLen.toNat ≤ 2 ^ 64)
      (hI : s.eng.inAddr.toNat + s.eng.inLen.toNat ≤ 2 ^ 64)
      (hO : s.eng.outAddr.toNat + s.eng.inLen.toNat ≤ 2 ^ 64) : (s.eng.capture op).rangeBad = false :=
    (Ctx.rangeBad_false_iff _).mpr ⟨hA, hI, hO⟩
  rw [exec_of_launches hop]
  refine ⟨fun c => reject c s, fun c => ⟨rfl, Status.toWord_rejected c, reject_irq c s⟩, hillegal,
    fun hbad => launch_of_rangeBad hb ((Ctx.rangeBad_iff _).mpr hbad), fun hA hI hO hbad => ?_,
    fun hA hI hO hgood => ?_⟩
  · exact launch_of_overlapBad hb (hrange hA hI hO) ((Ctx.overlapBad_iff _).mpr hbad)
  · exact launch_ne_reject hb (hrange hA hI hO) ((Ctx.overlapBad_false_iff _).mpr hgood)

/-- Settles O25: the launch passes its checks, and `accept` is the state that the statement writes out. -/
theorem acceptanceCapturesTheContext : Obligations.AcceptanceCapturesTheContext := fun s _ op hop hl =>
  ⟨accept op s, (exec_of_launches hop s).trans (launch_of_launchable hl), rfl, Status.toWord_accepted, rfl⟩

/-- Settles O26: the CMD write and the launch each ask for BUSY first. -/
theorem busyEngineLosesCommands : Obligations.BusyEngineLosesCommands := fun _ hb =>
  ⟨commandWrite_of_busy hb, exec_of_busy hb⟩
end

section
/-! An accepted command run to its end, when every access is answered (spec/42_commands.md R178, R179, R183). -/

namespace Sys2Proof.Machine

/-! ## The output's length (R183) -/

theorem decryptPayload_length (s : S512) (C : List Byte) : (decryptPayload s C).2.length = C.length := by
  rw [decryptPayload_eq_loop, decryptLoop_length]
  exact Nat.min_eq_right (by unfold blockCount; omega)

theorem aeadEncrypt_length (K : Key) (N : Nonce) (ad M : List Byte) : (aeadEncrypt K N ad M).1.length = M.length :=
  encryptPayload_length _ _

theorem aeadDecrypt_length (K : Key) (N : Nonce) (ad C : List Byte) (T : Block) :
    (aeadDecrypt K N ad C T).1.length = C.length := by
  by_cases h : T = decryptTag K N ad C
  · rw [aeadDecrypt_of_tag_eq h]; exact decryptPayload_length _ _
  · rw [aeadDecrypt_of_tag_ne h]; exact List.length_replicate

/-! ## What a command computes from memory -/

/-- The associated data of a command. -/
def Ctx.adBytes (c : Ctx) (m : Memory) : List Byte := m.readAll c.A.toNat c.a.toNat

/-- The payload of a command. -/
def Ctx.inBytes (c : Ctx) (m : Memory) : List Byte := m.readAll c.I.toNat c.n.toNat

/-- The state and the output after the payload pass of a command. -/
def Ctx.payload (c : Ctx) (m : Memory) : S512 × List Byte :=
  payloadLoop c.op (absorbAD (init c.K c.N) (c.adBytes m)) (c.inBytes m) (blockCount c.n.toNat)

/-- The tag that a command computes. -/
def Ctx.computedTag (c : Ctx) (m : Memory) : Block := mac (c.payload m).1 c.a c.n

@[simp] theorem Ctx.adBytes_length (c : Ctx) (m : Memory) : (c.adBytes m).length = c.a.toNat :=
  Memory.readAll_length _ _ _

@[simp] theorem Ctx.inBytes_length (c : Ctx) (m : Memory) : (c.inBytes m).length = c.n.toNat :=
  Memory.readAll_length _ _ _

theorem absorbAD_eq_loop (s : S512) (ad : List Byte) : absorbAD s ad = absorbLoop s ad (blockCount ad.length) := rfl

theorem Ctx.payload_length (c : Ctx) (m : Memory) : (c.payload m).2.length = c.n.toNat := by
  rw [Ctx.payload, payloadLoop_length, Ctx.inBytes_length]
  exact Nat.min_eq_right (by unfold blockCount; omega)

/-- An ENCRYPT computes `AeadEncrypt` (R156). -/
theorem Ctx.aeadEncrypt_eq {c : Ctx} (hop : c.op = .encrypt) (m : Memory) :
    aeadEncrypt c.K c.N (c.adBytes m) (c.inBytes m) = ((c.payload m).2, c.computedTag m) := by
  have hpay : encryptPayload (absorbAD (init c.K c.N) (c.adBytes m)) (c.inBytes m) = c.payload m := by
    rw [Ctx.payload, hop, payloadLoop_encrypt, encryptPayload_eq_loop, Ctx.inBytes_length]
  simp only [aeadEncrypt, hpay, Ctx.computedTag, Ctx.adBytes_length, Ctx.inBytes_length, BitVec.ofNat_toNat,
    BitVec.setWidth_eq]

theorem Ctx.decryptPayload_eq {c : Ctx} (hop : c.op = .decrypt) (m : Memory) :
    decryptPayload (absorbAD (init c.K c.N) (c.adBytes m)) (c.inBytes m) = c.payload m := by
  rw [Ctx.payload, hop, payloadLoop_decrypt, decryptPayload_eq_loop, Ctx.inBytes_length]

theorem Ctx.decryptTag_eq {c : Ctx} (hop : c.op = .decrypt) (m : Memory) :
    decryptTag c.K c.N (c.adBytes m) (c.inBytes m) = c.computedTag m := by
  simp only [decryptTag, c.decryptPayload_eq hop, Ctx.computedTag, Ctx.adBytes_length, Ctx.inBytes_length,
    BitVec.ofNat_toNat, BitVec.setWidth_eq]

/-! ## From INIT to the tag -/

/-- The phases INIT, AD, MSG and MAC: the output is written and the tag is computed, from the bytes that memory held
before, in place too. -/
theorem engineSteps_toTag {s : State} {c : Ctx} (ha : c.AllAnswered s.map) (hov : c.overlapBad = false)
    (S blk rtag acc m) :
    ∃ S' blk', engineSteps (20 + blockCount c.a.toNat + blockCount c.n.toNat + 10)
        (running s c S blk rtag acc (.init 0) m) =
      running s c S' blk' (c.computedTag m) acc (if c.op = .decrypt then .verify else .wipe)
        (m.writeAll c.O.toNat (c.payload m).2) := by
  obtain ⟨hA, hI, hO⟩ := ha
  have hloop : absorbLoop (init c.K c.N) (m.readAll c.A.toNat c.a.toNat) (blockCount c.a.toNat) =
      absorbAD (init c.K c.N) (c.adBytes m) := by
    rw [absorbAD_eq_loop, Ctx.adBytes_length, Ctx.adBytes]
  obtain ⟨blk₁, had⟩ := engineSteps_ad s c (init c.K c.N) rtag acc m hA blk
  obtain ⟨blk₂, hmsg⟩ := engineSteps_msg s c (absorbAD (init c.K c.N) (c.adBytes m)) rtag acc m hI hO hov blk₁
  refine ⟨forUpTo 10 (fun _ => macUpdate c.a c.n) (c.payload m).1, blk₂, ?_⟩
  rw [engineSteps_add, engineSteps_add, engineSteps_add, engineSteps_init, had, hloop, hmsg, engineSteps_mac]
  rfl

/-! ## The ends of a command -/

/-- The system when the command of the engine in focus has ended without a bus error, with TAG, AUTH_FAIL and memory
named (R180). -/
def ended (s : State) (tag : Vector Word 4) (authFail : Bool) (m : Memory) : State :=
  { s with
    mem := m
    eng := { s.eng with
      tag := tag, status := Status.completed authFail, phase := .idle,
      S := 0, ctx := Ctx.zero, blk := 0, rtag := 0, acc := 0 } }

theorem engineStep_wipe (s : State) (c : Ctx) (S blk rtag acc m) :
    engineStep (running s c S blk rtag acc .wipe m) =
      ended s (if c.op = .encrypt then tagWords rtag else s.eng.tag) (decide (c.op = .decrypt) && acc != 0) m := rfl

theorem engineStep_verify (s : State) (c : Ctx) (S blk rtag acc m) :
    engineStep (running s c S blk rtag acc .verify m) =
      running s c S blk rtag (tagDiff rtag c.T) (c.nextVerify (tagDiff rtag c.T)) m := rfl

section
variable {c : Ctx} (hop : c.op = .decrypt) {rtag : Block}
include hop

/-- The right tag: VERIFY, then WIPE (R179). -/
theorem engineSteps_verify_of_eq (htag : rtag = c.T) (s : State) (S blk acc m) :
    engineSteps 2 (running s c S blk rtag acc .verify m) = ended s s.eng.tag false m := by
  have hd : tagDiff rtag c.T = 0 := (tagDiff_eq_zero_iff _ _).mpr htag
  have hnext : c.nextVerify 0 = .wipe := if_neg (by simp)
  rw [engineSteps, engineStep_verify, hd, hnext, engineSteps, engineStep_wipe, hop]
  rfl

/-- Any other tag: VERIFY, FILL over the whole output, then WIPE with AUTH_FAIL (R153, R179). An empty output has no
byte to fill. -/
theorem engineSteps_verify_of_ne (htag : rtag ≠ c.T) {s : State} (hO : Answered s.map .write c.O.toNat c.n.toNat)
    (S blk acc m) :
    engineSteps (1 + c.n.toNat + 1) (running s c S blk rtag acc .verify m) =
      ended s s.eng.tag true (m.writeAll c.O.toNat (List.replicate c.n.toNat failByte)) := by
  generalize hacc : tagDiff rtag c.T = d
  have hd : d ≠ 0 := hacc ▸ mt (tagDiff_eq_zero_iff _ _).mp htag
  have hfill : engineSteps c.n.toNat (running s c S blk rtag d (c.nextVerify d) m) =
      running s c S blk rtag d .wipe (m.writeAll c.O.toNat (List.replicate c.n.toNat failByte)) := by
    by_cases h0 : c.n.toNat = 0
    · have hnext : c.nextVerify d = .wipe := if_neg (by simp [h0])
      rw [hnext, h0]
      rfl
    · have hn : 0 < c.n.toNat := Nat.pos_of_ne_zero h0
      have hnext : c.nextVerify d = .fill 0 := if_pos ⟨hd, hn⟩
      rw [hnext, engineSteps_fill s c S blk rtag d m hO hn]
  have hfail : (decide (c.op = .decrypt) && d != 0) = true :=
    Bool.and_eq_true_iff.mpr ⟨decide_eq_true hop, bne_iff_ne.mpr hd⟩
  have hop' : c.op ≠ .encrypt := by simp [hop]
  have hone (t : State) : engineSteps 1 t = engineStep t := rfl
  rw [engineSteps_add, engineSteps_add, hone, hone, engineStep_verify, hacc, hfill, engineStep_wipe, hfail, if_neg hop']

end

/-! ## The two commands (R178, R179) -/

section
variable {s : State} {c : Ctx} (ha : c.AllAnswered s.map) (hov : c.overlapBad = false) (S : S512) (blk rtag : Block)
  (acc : Byte) (m : Memory)
include ha hov

theorem engineSteps_encrypt (hop : c.op = .encrypt) :
    engineSteps (20 + blockCount c.a.toNat + blockCount c.n.toNat + 10 + 1) (running s c S blk rtag acc (.init 0) m) =
      ended s (tagWords (aeadEncrypt c.K c.N (c.adBytes m) (c.inBytes m)).2) false
        (m.writeAll c.O.toNat (aeadEncrypt c.K c.N (c.adBytes m) (c.inBytes m)).1) := by
  obtain ⟨S', blk', htag⟩ := engineSteps_toTag ha hov S blk rtag acc m
  have hop' : c.op ≠ .decrypt := by simp [hop]
  rw [if_neg hop'] at htag
  rw [engineSteps_succ', htag, engineStep_wipe, if_pos hop, decide_eq_false hop', Bool.false_and,
    c.aeadEncrypt_eq hop]

theorem engineSteps_decrypt (hop : c.op = .decrypt) (hm : m.wf) (hO : c.O.toNat + c.n.toNat ≤ memorySize)
    {r : List Byte × Bool} (hr : r = aeadDecrypt c.K c.N (c.adBytes m) (c.inBytes m) c.T) :
    engineSteps (20 + blockCount c.a.toNat + blockCount c.n.toNat + 12 + (if r.2 then 0 else c.n.toNat))
        (running s c S blk rtag acc (.init 0) m) =
      ended s s.eng.tag (!r.2) (m.writeAll c.O.toNat r.1) := by
  obtain ⟨S', blk', htag⟩ := engineSteps_toTag ha hov S blk rtag acc m
  rw [if_pos hop] at htag
  have hcount (k f : Nat) : k + 12 + f = k + 10 + (1 + f + 1) := by omega
  rw [hcount, engineSteps_add, htag]
  subst hr
  have heq := c.decryptTag_eq hop m
  by_cases h : c.T = decryptTag c.K c.N (c.adBytes m) (c.inBytes m)
  · rw [aeadDecrypt_of_tag_eq h, c.decryptPayload_eq hop]
    exact engineSteps_verify_of_eq hop (heq ▸ h.symm) s S' blk' acc _
  · have ⟨_, _, hans⟩ := ha
    have hlen := c.payload_length m
    have hfill := engineSteps_verify_of_ne hop (fun h' => h (h'.symm.trans heq.symm)) hans S' blk' acc
      (m.writeAll c.O.toNat (c.payload m).2)
    rw [Memory.writeAll_writeAll m _ _ _ hm (by omega) (by simp [hlen])] at hfill
    rw [aeadDecrypt_of_tag_ne h, Ctx.inBytes_length]
    exact hfill

end

end Sys2Proof.Machine

open Sys2Proof Sys2Proof.Machine

/-- Settles O44, from the lengths of the two payload functions. -/
theorem lengthIsPreserved : Obligations.LengthIsPreserved := fun K N ad M T =>
  ⟨aeadEncrypt_length K N ad M, aeadDecrypt_length K N ad M T⟩

/-- Settles O48: the acceptance, and then the run of an ENCRYPT phase by phase. -/
theorem encryptRunsToItsResult : Obligations.EncryptRunsToItsResult := by
  intro s hl ha
  refine ⟨accept .encrypt s, launch_of_launchable hl, ?_⟩
  rintro r rfl
  obtain ⟨-, -, hov, -⟩ := hl
  exact engineSteps_encrypt ha hov s.eng.S s.eng.blk s.eng.rtag s.eng.acc s.mem rfl

/-- Settles O49: the acceptance, and then the run of a DECRYPT phase by phase, on either outcome of the comparison. -/
theorem decryptRunsToItsResult : Obligations.DecryptRunsToItsResult := by
  intro s hm hl ha
  refine ⟨accept .decrypt s, launch_of_launchable hl, fun r hr => ?_⟩
  obtain ⟨-, hrange, hov, -⟩ := hl
  obtain ⟨-, -, hO⟩ := (Ctx.rangeBad_false_iff _).mp hrange
  exact engineSteps_decrypt ha hov s.eng.S s.eng.blk s.eng.rtag s.eng.acc s.mem rfl hm hO hr
end

section
/-! Bus errors: how an access that raises one ends the command, and why a fill write never does
(spec/42_commands.md R181, spec/93_implementation_defined.md I5, conflict C8). -/

namespace Sys2Proof.Machine

/-! ## The first access that is not made (R66, R71) -/

theorem memOK_eq_false_iff (map : List Region) (kind : AccessKind) (a : Nat) :
    memOK map kind a = false ↔ memResponse map kind a = .busError := by
  simp [memOK]

section
variable {s : State} {b j : Nat}

theorem engineStep_of_ad_busError (hp : s.eng.phase = .ad b) (hj : j < blockLen s.eng.ctx.a.toNat b)
    (hans : Answered s.map .read (s.eng.ctx.A.toNat + 16 * b) j)
    (herr : memOK s.map .read (s.eng.ctx.A.toNat + 16 * b + j) = false) : engineStep s = busAbort s := by
  have hread := readBytes_busError (m := s.mem) hj hans ((memOK_eq_false_iff _ _ _).mp herr)
  simp only [engineStep, hp, stepAd, hread]

theorem engineStep_of_msg_read_busError (hp : s.eng.phase = .msg b) (hj : j < blockLen s.eng.ctx.n.toNat b)
    (hans : Answered s.map .read (s.eng.ctx.I.toNat + 16 * b) j)
    (herr : memOK s.map .read (s.eng.ctx.I.toNat + 16 * b + j) = false) : engineStep s = busAbort s := by
  have hread := readBytes_busError (m := s.mem) hj hans ((memOK_eq_false_iff _ _ _).mp herr)
  simp only [engineStep, hp, stepMsg, hread]

theorem engineStep_of_msg_write_busError (hp : s.eng.phase = .msg b) (hj : j < blockLen s.eng.ctx.n.toNat b)
    (hread : Answered s.map .read (s.eng.ctx.I.toNat + 16 * b) (blockLen s.eng.ctx.n.toNat b))
    (hans : Answered s.map .write (s.eng.ctx.O.toNat + 16 * b) j)
    (herr : memOK s.map .write (s.eng.ctx.O.toNat + 16 * b + j) = false) : engineStep s = busAbort s := by
  have hbus := (memOK_eq_false_iff _ _ _).mp herr
  simp only [engineStep, hp]
  rcases stepMsg_cases b s with ⟨-, hw, -⟩ | h | ⟨-, hsilent | hsilent⟩
  · simp [hw j hj] at hbus
  · exact h
  · simp [(readBytes_ok_iff _ s.mem _ _ _).mpr ⟨hread, rfl⟩] at hsilent
  · have hwrite := writeBytes_busError (m := s.mem) (l := payloadOut s b) (by rwa [payloadOut_length]) hans hbus
    simp [hwrite] at hsilent

end

theorem engineStep_of_fill_busError {s : State} {o : Nat} (hp : s.eng.phase = .fill o)
    (herr : memOK s.map .write (s.eng.ctx.O.toNat + o) = false) : engineStep s = busAbort s := by
  have hbus := (memOK_eq_false_iff _ _ _).mp herr
  simp only [engineStep, hp]
  rcases stepFill_cases o s with ⟨hok, -⟩ | ⟨-, h⟩ | ⟨hsilent, -⟩
  · simp [hok] at hbus
  · exact h
  · simp [hsilent] at hbus

/-! ## What an abort leaves (R181, I5) -/

/-- The command of `s` was ended by a bus error with the STATUS word `w`, and `t` is what is left of the system. -/
def Aborted (w : Word) (s t : State) : Prop :=
  t.eng.status.toWord = w ∧ t.eng.tag = s.eng.tag ∧ t.eng.Wiped ∧ t.eng.phase = .idle ∧
  (∀ k, k < s.eng.ctx.n.toNat → t.mem.read (s.eng.ctx.O.toNat + k) = Config.freeByte (s.draws + k)) ∧
  (∀ x, s.eng.ctx.outside x → t.mem.read x = s.mem.read x) ∧ State.SameAround s t

theorem aborted_busAbort {s : State} {w : Word} (hw : (Status.aborted s.eng.phase.isFill).toWord = w) (hm : s.mem.wf)
    (hO : s.eng.ctx.O.toNat + s.eng.ctx.n.toNat ≤ memorySize) : Aborted w s (busAbort s) :=
  ⟨hw, rfl, s.eng.wipe_wiped, rfl, fun k hk => Memory.read_drawAll_same _ _ _ _ k hm hO hk,
    fun x hx => Memory.read_drawAll_other _ _ _ _ x hx, rfl, rfl, rfl, rfl, rfl⟩

/-! ## The fill (R153, C8) -/

/-- Every byte that a fill overwrites was written before, so it takes the write. -/
theorem engineStep_of_fill {s : State} {o : Nat} (h : s.eng.Inv s.map) (hp : s.eng.phase = .fill o) :
    engineStep s = { s with mem := s.mem.write (s.eng.ctx.O.toNat + o) failByte,
                            eng := { s.eng with phase := s.eng.ctx.nextFill o } } := by
  obtain ⟨ho, -, -⟩ : o < s.eng.ctx.n.toNat ∧ s.eng.ctx.op = .decrypt ∧ s.eng.acc ≠ 0 := by
    simpa only [Engine.PhaseInv, hp] using h.phase
  have hok := h.writable o (by simpa only [Engine.written, hp] using ho)
  simp only [engineStep, hp]
  rcases stepFill_cases o s with ⟨-, hs⟩ | ⟨hbus, -⟩ | ⟨hsilent, -⟩
  · exact hs
  · simp [hok] at hbus
  · simp [hok] at hsilent

end Sys2Proof.Machine

open Sys2Proof Sys2Proof.Machine

/-- Settles O51: the first access that is not made raises the bus error, and the step is the abort. -/
theorem busErrorAbortsTheCommand : Obligations.BusErrorAbortsTheCommand := by
  refine ⟨fun s j hinv h => ?_, fun s o hm hO hp herr => ?_⟩
  · obtain ⟨hstep, hrun, hfill⟩ :
        engineStep s = busAbort s ∧ s.eng.phase ≠ .idle ∧ s.eng.phase.isFill = false := by
      rcases h with ⟨b, hp, hj, hans, herr⟩ | ⟨b, hp, hj, hans, herr⟩ | ⟨b, hp, hj, hread, hans, herr⟩
      · exact ⟨engineStep_of_ad_busError hp hj hans herr, by simp [hp], by rw [hp]; rfl⟩
      · exact ⟨engineStep_of_msg_read_busError hp hj hans herr, by simp [hp], by rw [hp]; rfl⟩
      · exact ⟨engineStep_of_msg_write_busError hp hj hread hans herr, by simp [hp], by rw [hp]; rfl⟩
    have hO := Engine.outRange _ _ hinv.eng hrun
    exact ⟨busAbort s, hstep, aborted_busAbort (by rw [hfill]; rfl) hinv.memory hO⟩
  · have hfill : s.eng.phase.isFill = true := by rw [hp]; rfl
    exact ⟨busAbort s, engineStep_of_fill_busError hp herr, aborted_busAbort (by rw [hfill]; rfl) hm hO⟩

/-- Settles O52: the payload pass wrote the byte before, so the fill write is answered too. -/
theorem fillNeverAborts : Obligations.FillNeverAborts := by
  intro s o hinv hp
  rw [engineStep_of_fill hinv.eng hp]
  exact ⟨rfl, Memory.read_write_same _ _ _ hinv.memory, fun x hx => Memory.read_write_other _ _ _ x hx, rfl⟩
end

section
/-! The interrupt as a level (spec/60_exceptions.md R204), and the launch that R213 puts outside the spec. -/

namespace Sys2Proof.Machine

/-! ## The interrupt (R32, R204) -/

theorem Engine.irq_of_done {e : Engine} (h : e.status.done = true) : e.irq = e.ie := by
  rw [Engine.irq, h, Bool.true_and]

theorem Engine.irq_of_not_done {e : Engine} (h : e.status.done = false) : e.irq = false := by
  rw [Engine.irq, h, Bool.false_and]

/-- A write of 1 to DONE clears it (R31). -/
theorem Engine.writeReg_status_done (e : Engine) {v : Word} (hv : v.getLsbD 1 = true) :
    (e.writeReg .status v).status.done = false := by
  show (e.status.hostWrite v).done = false
  rw [Status.hostWrite_eq, hv]
  exact Bool.and_false _

/-! ## Conflicting commands (R213) -/

/-- Two commands conflict when some byte of the OUT range of one lies in a buffer of the other. -/
theorem Ctx.conflicts_iff (c d : Ctx) : c.conflicts d = true ↔
    (∃ x, ¬ c.outside x ∧ d.inBuffers x) ∨ ∃ x, ¬ d.outside x ∧ c.inBuffers x := by
  simp only [Ctx.conflicts, Bool.or_eq_true, Ctx.touches_iff_inBuffers, Ctx.outside, not_or, Nat.not_lt, Nat.not_le,
    and_assoc]

/-- A launch that passes both checks is refused when a command that runs on another engine conflicts with it. -/
theorem launch_of_conflict {op : Op} {s : State} {p : Engine} (hb : s.eng.status.busy = false)
    (hr : (s.eng.capture op).rangeBad = false) (ho : (s.eng.capture op).overlapBad = false) (hp : p ∈ s.peers)
    (hpb : p.status.busy = true) (hc : (s.eng.capture op).conflicts p.ctx = true) :
    launch op s = .refused .engineOverlap := by
  have hpeer : peerConflict (s.eng.capture op) s.peers = true :=
    List.any_eq_true.mpr ⟨p, hp, by rw [hpb, Ctx.conflicts_symm, hc]; rfl⟩
  simp [launch, hb, hr, ho, hpeer]

end Sys2Proof.Machine

open Sys2Proof.Machine

/-- Settles O16: every end of a command sets DONE, an acceptance and a write of 1 to DONE clear it. -/
theorem interruptIsALevel : Obligations.InterruptIsALevel :=
  ⟨fun _ => rfl, fun _ _ => rfl, fun e _ hv => Engine.irq_of_not_done (e.writeReg_status_done hv),
    fun _ _ => Engine.irq_of_not_done rfl, reject_irq, fun _ => ⟨Engine.irq_of_done rfl, Engine.irq_of_done rfl⟩⟩

/-- Settles O27: the shared byte is a conflict of the two commands, whichever of them has it in OUT. -/
theorem conflictingLaunchIsRefused : Obligations.ConflictingLaunchIsRefused := by
  intro s i op p x hop hb hr ho hp hpb hx
  rw [exec_of_launches hop]
  refine launch_of_conflict hb hr ho hp hpb ((Ctx.conflicts_iff _ _).mpr ?_)
  rcases hx with ⟨hout, hin⟩ | ⟨hout, hin⟩
  · exact .inl ⟨x, hout, or_assoc.mp hin.symm⟩
  · exact .inr ⟨x, hout, hin.imp_right .inl⟩
end

section
/-! Engines beside each other: any schedule of their steps, and any event at one of them, does to an engine what it
does when that engine is alone (spec/60_exceptions.md R212, R213). -/

namespace Sys2Proof.Machine

/-! ## Buffers of idle and of running engines -/

theorem Ctx.outside_zero (x : Nat) : Ctx.zero.outside x := .inr (Nat.zero_le x)

theorem Ctx.not_inBuffers_zero (x : Nat) : ¬ Ctx.zero.inBuffers x := by
  rintro (⟨-, h⟩ | ⟨-, h⟩ | h)
  · exact Nat.not_lt_zero x h
  · exact Nat.not_lt_zero x h
  · exact h (Ctx.outside_zero x)

theorem Ctx.zero_conflicts (d : Ctx) : Ctx.zero.conflicts d = false := by
  rw [← Bool.not_eq_true, Ctx.conflicts_iff]
  rintro (⟨x, hout, -⟩ | ⟨x, -, hin⟩)
  · exact hout (Ctx.outside_zero x)
  · exact Ctx.not_inBuffers_zero x hin

theorem Ctx.outside_of_not_conflicts {c d : Ctx} (h : c.conflicts d = false) {x : Nat} (hx : c.inBuffers x) :
    d.outside x := by
  by_contra hout
  simp [(Ctx.conflicts_iff c d).mpr (.inr ⟨x, hout, hx⟩)] at h

theorem Engine.Inv.ctx_of_not_busy {map : List Region} {e : Engine} (h : e.Inv map) (hb : e.status.busy = false) :
    e.ctx = Ctx.zero :=
  have ⟨_, hctx, _⟩ := h.quiet (h.idle_of_not_busy hb)
  hctx

/-- No command that runs on another engine conflicts with the context of engine `k`, idle or not. -/
theorem State.Inv.not_conflicts {s : State} (h : s.Inv) {i k : Nat} {e f : Engine} (hik : i ≠ k)
    (he : s.engines[k]? = some e) (hf : s.engines[i]? = some f) (hfb : f.status.busy = true) :
    e.ctx.conflicts f.ctx = false := by
  cases heb : e.status.busy with
  | false => rw [(h.engines e (List.mem_of_getElem? he)).ctx_of_not_busy heb, Ctx.zero_conflicts]
  | true =>
    obtain ⟨hk, rfl⟩ := List.getElem?_eq_some_iff.mp he
    obtain ⟨hi, rfl⟩ := List.getElem?_eq_some_iff.mp hf
    have hpair := List.pairwise_iff_getElem.mp h.compatible
    rcases Nat.lt_or_gt_of_ne hik with hlt | hgt
    · exact (hpair i k hi hk hlt).symm heb hfb
    · exact hpair k i hk hi hgt heb hfb

/-! ## Internal steps (R212) -/

/-- In `t` other engines run beside engine `k`, in `u` it is alone: it is in the same state in both, its command, if
one runs, is `c`, and, until a bus error frees the bytes of OUT, the buffers of `c` hold the same bytes. -/
structure Alongside (k : Nat) (c : Ctx) (t u : State) : Prop where
  inv    : t.Inv
  wf     : u.mem.wf
  map    : t.map = u.map
  engine : t.engines[k]? = some u.eng
  runs   : u.eng.status.busy = true → u.eng.ctx = c
  apart  : ∀ i f, i ≠ k → t.engines[i]? = some f → f.status.busy = true → c.conflicts f.ctx = false
  reads  : u.eng.status.err = false → ∀ x, c.inBuffers x → t.mem.read x = u.mem.read x

theorem alongside_start {s : State} (h : s.Inv) {k : Nat} {e : Engine} (he : s.engines[k]? = some e) :
    Alongside k e.ctx s { s with eng := e, peers := [] } where
  inv := h
  wf := h.memory
  map := rfl
  engine := he
  runs _ := rfl
  apart _ _ hik hf hfb := h.not_conflicts hik he hf hfb
  reads _ _ _ := rfl

/-- An engine that reports an error is idle and makes no step. -/
theorem engineStep_of_err {s : State} (h : s.eng.StatusInv) (herr : s.eng.status.err = true) : engineStep s = s := by
  obtain ⟨hbusy, hrun, -⟩ := h
  refine engineStep_of_idle ?_
  by_contra hp
  obtain ⟨-, -, hno, -⟩ := hrun (hbusy.mpr hp)
  simp [herr] at hno

theorem tickEngine_engines_length {i : Nat} {t : State} (hi : i < t.engines.length) :
    (tickEngine i t).engines.length = t.engines.length := by
  rw [(tickEngine_acts (List.getElem?_eq_getElem hi)).1, List.length_set]

namespace Alongside

variable {k : Nat} {c : Ctx} {t u : State} (h : Alongside k c t u)
include h

/-- The engine's own step is the step that it makes alone: it reads its buffers only. -/
theorem tick_self : Alongside k c (tickEngine k t) (engineStep u) := by
  obtain ⟨hengs, hmem, hmap⟩ := tickEngine_acts h.engine
  have hinv : u.eng.Inv t.map := h.inv.engines _ (List.mem_of_getElem? h.engine)
  have hbusy : u.eng.phase ≠ .idle → u.eng.status.busy = true := hinv.status.1.mpr
  obtain ⟨heng, hread⟩ := engineStep_congr (s := { t with eng := u.eng, peers := [] }) (u := u) rfl h.map hinv
    h.inv.memory h.wf fun hp x hx =>
      have ⟨_, _, hno, _⟩ := hinv.status.2.1 (hbusy hp)
      h.reads hno x (h.runs (hbusy hp) ▸ hx)
  exact
    { inv := tickEngine_inv k t h.inv
      wf := (engineStep_inv u (h.map ▸ hinv) h.wf).2
      map := hmap.trans (h.map.trans (engineStep_around u).1.2.1.symm)
      engine := by
        rw [hengs, heng]
        exact List.getElem?_set_self (List.getElem?_eq_some_iff.mp h.engine).1
      runs := fun hb =>
        have ⟨hb', hctx⟩ := engineStep_ctx u hb
        hctx.trans (h.runs hb')
      apart := fun i f hik hf => h.apart i f hik (by rwa [hengs, List.getElem?_set_ne hik.symm] at hf)
      reads := fun herr x hx => by
        have hold : u.eng.status.err = false := by
          cases hu : u.eng.status.err with
          | false => rfl
          | true => rw [engineStep_of_err hinv.status hu, hu] at herr; exact herr
        rw [hmem]
        exact hread herr x (h.reads hold x hx) }

/-- A step of another engine stores in that engine's OUT range only, which meets none of the buffers of `c`. -/
theorem tick_other {i : Nat} (hik : i ≠ k) (hi : i < t.engines.length) : Alongside k c (tickEngine i t) u := by
  obtain ⟨f, hf⟩ : ∃ f, t.engines[i]? = some f := ⟨_, List.getElem?_eq_getElem hi⟩
  obtain ⟨hengs, hmem, hmap⟩ := tickEngine_acts hf
  have hinv : f.Inv t.map := h.inv.engines f (List.mem_of_getElem? hf)
  have hout : ∀ x, c.inBuffers x → f.ctx.outside x := fun x hx => by
    cases hfb : f.status.busy with
    | false => rw [hinv.ctx_of_not_busy hfb]; exact Ctx.outside_zero x
    | true => exact Ctx.outside_of_not_conflicts (h.apart i f hik hf hfb) hx
  exact
    { inv := tickEngine_inv i t h.inv
      wf := h.wf
      map := hmap.trans h.map
      engine := by rw [hengs, List.getElem?_set_ne hik]; exact h.engine
      runs := h.runs
      apart := fun j g hjk hg hgb => by
        rw [hengs] at hg
        by_cases hij : i = j
        · subst hij
          obtain rfl := Option.some.inj ((List.getElem?_set_self hi).symm.trans hg)
          obtain ⟨hfb, hctx⟩ := engineStep_ctx _ hgb
          rw [hctx]
          exact h.apart i f hik hf hfb
        · rw [List.getElem?_set_ne hij] at hg
          exact h.apart j g hjk hg hgb
      reads := fun herr x hx => by
        rw [hmem, engineStep_outside _ hinv (hout x hx)]
        exact h.reads herr x hx }

/-- Under any schedule of steps the engine comes to where its own steps of the schedule lead it alone. -/
theorem schedule {sched : List Nat} (hs : ∀ i ∈ sched, i < t.engines.length) :
    Alongside k c (sched.foldl (fun r i => tickEngine i r) t) (engineSteps (sched.count k) u) := by
  induction sched generalizing t u with
  | nil => exact h
  | cons i sched ih =>
    obtain ⟨hi, hs⟩ := List.forall_mem_cons.mp hs
    have hs' : ∀ j ∈ sched, j < (tickEngine i t).engines.length := fun j hj => by
      rw [tickEngine_engines_length hi]; exact hs j hj
    rw [List.foldl_cons]
    by_cases hik : i = k
    · subst hik
      rw [List.count_cons_self]
      exact ih h.tick_self hs'
    · rw [List.count_cons_of_ne hik]
      exact ih (h.tick_other hik hi) hs'

end Alongside

/-! ## Events (R212) -/

/-- The operation neither sees nor changes the engines out of focus, nor the platform. -/
def ActsAlone (f : State → Host.Outcome State Fault Refusal) : Prop :=
  ∀ r v : State, f r = .next v → v.peers = r.peers ∧ v.map = r.map ∧
    ∃ u, f { r with peers := [] } = .next u ∧ u.eng = v.eng ∧ u.mem = v.mem

theorem engineStep_actsAlone : ActsAlone fun r => .next (engineStep r) := by
  intro r v h
  cases h
  have ⟨hpeers, hmap, _⟩ := (engineStep_around r).1
  exact ⟨hpeers, hmap, _, rfl, by rw [engineStep_peers], by rw [engineStep_peers]⟩

theorem resetEngine_actsAlone : ActsAlone fun r => .next (resetEngine r) := by
  intro r v h
  cases h
  refine ⟨resetEngine_peers r, resetEngine_map r, _, rfl, by rw [resetEngine_eng, resetEngine_eng], ?_⟩
  cases hb : r.eng.status.busy <;> simp [resetEngine, hb]

/-- Such an operation at engine `k` of a system does to that engine and to memory what it does when it is alone. -/
theorem onEngine_of_actsAlone {f : State → Host.Outcome State Fault Refusal} (hf : ActsAlone f) {k : Nat}
    {s t : State} {e : Engine} (he : s.engines[k]? = some e) (h : onEngine k f s = .next t) :
    t.map = s.map ∧ (∀ i, i ≠ k → t.engines[i]? = s.engines[i]?) ∧
      ∃ u, f { s with eng := e, peers := [] } = .next u ∧ t.engines[k]? = some u.eng ∧ t.mem = u.mem := by
  obtain ⟨e', ps, v, he', hv, hengs, hmem, hmap⟩ := onEngine_acts (fun r v hr => (hf r v hr).1) h
  obtain rfl := Option.some.inj (he.symm.trans he')
  obtain ⟨-, hmap', u, hu, heng, hmem'⟩ := hf _ v hv
  refine ⟨hmap.trans hmap', fun i hik => ?_, u, hu, ?_, hmem.trans hmem'.symm⟩
  · rw [hengs, List.getElem?_set_ne hik.symm]
  · rw [hengs, heng]
    exact List.getElem?_set_self (List.getElem?_eq_some_iff.mp he).1

theorem waits_poll {s : State} {k : Nat} {e : Engine} (he : s.engines[k]? = some e) (off : BitVec 8)
    (mask val : Word) : waits k (.poll off mask val) s = !pollMet off mask val e := by
  simp only [waits, he]

/-- A register access waits for its own engine alone (R96). -/
theorem waits_alone {s : State} {k : Nat} {e : Engine} (he : s.engines[k]? = some e) (op : RegOp) :
    waits 0 op { s with eng := e, peers := [] } = waits k op s := by
  cases op with
  | write w off v => simp [waits]
  | read w off => simp [waits]
  | poll off mask val => rw [waits_poll he, waits_poll rfl]

theorem runEvent_reg {k : Nat} {op : RegOp} {s : State} (h : waits k op s = false) :
    runEvent (.reg k op) s = onEngine k (regAccess op) s := by
  simp [runEvent, h]

/-- An access that waits is followed by a round of the engines, and stands again before the other events. -/
theorem runEvent_reg_of_waits {k : Nat} {op : RegOp} {s r : State} (h : waits k op s = true)
    (hr : onEngine k (regAccess op) s = .next r) :
    runEvent (.reg k op) s = .next { engineRound r with inputs := .reg k op :: s.inputs } := by
  simp [runEvent, h, hr, mapNext]

theorem poll_of_waits {k : Nat} {op : RegOp} {s : State} (h : waits k op s = true) :
    ∃ off mask val e, op = .poll off mask val ∧ s.engines[k]? = some e := by
  unfold waits at h
  split at h
  · next he => exact ⟨_, _, _, _, rfl, he⟩
  · cases h

/-- A read at engine `k` returns that engine's value and changes nothing else (R171). -/
theorem onEngine_hostRead {s : State} {k : Nat} {e : Engine} (he : s.engines[k]? = some e) (w : Width)
    (off : BitVec 8) :
    onEngine k (fun r => .next (hostRead w off r)) s = .next { s with rdata := hostReadValue w off e } := by
  cases k with
  | zero =>
    obtain rfl : s.eng = e := by simpa [State.engines] using he
    rfl
  | succ j =>
    obtain ⟨hj, rfl⟩ : ∃ hj : j < s.peers.length, s.peers[j] = e := by
      simpa [State.engines, List.getElem?_eq_some_iff] using he
    rw [onEngine, if_pos hj, mapNext, swapPeer_of_lt j s hj, swapPeer_of_lt j _ (by simpa [hostRead] using hj)]
    simp [hostRead]

end Sys2Proof.Machine

open Sys2Proof.Machine

/-- Settles O58: `Alongside` holds at the start and under every step of a schedule, and the operations behind the
events act on their engine alone. -/
theorem enginesAreIndependent : Obligations.EnginesAreIndependent := by
  refine ⟨?_, ?_, ?_⟩
  · rintro s sched k e hinv hs he t u rfl rfl
    have h := (alongside_start hinv he).schedule (sched := sched) fun i hi => Nat.lt_succ_of_le (hs i hi)
    exact ⟨h.engine, fun _ herr x hx => h.reads herr x hx⟩
  · intro s t k e ev he hev h
    have hrun : ∃ f, ActsAlone f ∧ onEngine k f s = .next t ∧
        runEvent (ev 0) { s with eng := e, peers := [] } = f { s with eng := e, peers := [] } := by
      rcases hev with ⟨op, rfl, hw⟩ | rfl | rfl
      · exact ⟨regAccess op, fun _ _ => regAccess_alone, (runEvent_reg hw).symm.trans h,
          runEvent_reg ((waits_alone he op).trans hw)⟩
      · exact ⟨_, engineStep_actsAlone, h, rfl⟩
      · exact ⟨_, resetEngine_actsAlone, h, rfl⟩
    obtain ⟨f, hf, hon, halone⟩ := hrun
    obtain ⟨hmap, hothers, u, hu, heng, hmem⟩ := onEngine_of_actsAlone hf he hon
    exact ⟨hmap, hothers, u, halone.trans hu, heng, fun x _ => by rw [hmem]⟩
  · intro s k op hw
    obtain ⟨off, mask, val, e, rfl, he⟩ := poll_of_waits hw
    exact ⟨hostReadValue .w32 off e, runEvent_reg_of_waits hw (onEngine_hostRead he .w32 off)⟩
end

section
/-! Reset, the accesses of other agents to live buffers, and how a command ends or hangs (spec/70_reset_and_hazards.md
R230, R231, R236, R241). -/

namespace Sys2Proof.Machine

/-! ## Reset (R230, R231) -/

theorem Engine.contents_reset (r : Reg) : Engine.reset.contents r = 0x00000000 := by
  cases r with
  | key k => revert k; decide
  | nonce k => revert k; decide
  | tag k => revert k; decide
  | _ => rfl

theorem resetEngine_of_busy {s : State} (hb : s.eng.status.busy = true) :
    resetEngine s = { drawOut s with eng := Engine.reset } := by
  simp only [resetEngine, hb, if_true]

theorem engineStep_resetEngine (s : State) : engineStep (resetEngine s) = resetEngine s :=
  engineStep_of_idle (by rw [resetEngine_eng]; rfl)

theorem State.reset_inv : State.reset.Inv where
  engines e he := by
    obtain rfl : e = Engine.reset := List.mem_singleton.mp he
    exact Engine.reset_inv _
  compatible := List.pairwise_singleton _ _
  memory := ⟨.nil, fun _ hc => absurd hc List.not_mem_nil⟩

/-! ## Live buffers (R236) -/

section
variable {s : State} {e : Engine} {addr : DWord} {x : Nat}

theorem agentStore_of_live {bytes : List Byte} (he : e ∈ s.engines) (hb : e.status.busy = true)
    (hin : addr.toNat + bytes.length ≤ memorySize) (hlo : addr.toNat ≤ x) (hhi : x < addr.toNat + bytes.length)
    (hx : e.ctx.inBuffers x) : agentStore addr bytes s = .refused .liveBuffer := by
  have htouch : s.engines.any (fun e => e.status.busy && e.ctx.touches addr.toNat bytes.length) = true := by
    simp only [List.any_eq_true, Bool.and_eq_true, Ctx.touches_iff_inBuffers]
    exact ⟨e, he, hb, x, hlo, hhi, hx⟩
  rw [agentStore, if_neg (Nat.not_lt.mpr hin), if_pos htouch]

theorem agentLoad_of_live {len : Nat} (he : e ∈ s.engines) (hb : e.status.busy = true)
    (hin : addr.toNat + len ≤ memorySize) (hlo : addr.toNat ≤ x) (hhi : x < addr.toNat + len)
    (hx : ¬ e.ctx.outside x) : agentLoad addr len s = .refused .liveBuffer := by
  have hhit : s.engines.any (fun e => e.status.busy && e.ctx.outHit addr.toNat len) = true := by
    simp only [List.any_eq_true, Bool.and_eq_true, Ctx.outHit_iff_not_outside]
    exact ⟨e, he, hb, x, hlo, hhi, hx⟩
  rw [agentLoad, if_neg (Nat.not_lt.mpr hin), if_pos hhit]

end

/-! ## An access without response (R241, I7) -/

section
variable {s : State} {b j : Nat}

theorem engineStep_of_ad_silent (hp : s.eng.phase = .ad b) (hj : j < blockLen s.eng.ctx.a.toNat b)
    (hans : Answered s.map .read (s.eng.ctx.A.toNat + 16 * b) j)
    (hs : memResponse s.map .read (s.eng.ctx.A.toNat + 16 * b + j) = .silent) : engineStep s = s := by
  have hread := readBytes_silent (m := s.mem) hj hans hs
  simp only [engineStep, hp, stepAd, hread]

theorem engineStep_of_msg_read_silent (hp : s.eng.phase = .msg b) (hj : j < blockLen s.eng.ctx.n.toNat b)
    (hans : Answered s.map .read (s.eng.ctx.I.toNat + 16 * b) j)
    (hs : memResponse s.map .read (s.eng.ctx.I.toNat + 16 * b + j) = .silent) : engineStep s = s := by
  have hread := readBytes_silent (m := s.mem) hj hans hs
  simp only [engineStep, hp, stepMsg, hread]

/-- The write that gets no response stops the block, whatever bytes it was to store. -/
theorem engineStep_of_msg_write_silent (hp : s.eng.phase = .msg b) (hj : j < blockLen s.eng.ctx.n.toNat b)
    (hans : Answered s.map .read (s.eng.ctx.I.toNat + 16 * b) (blockLen s.eng.ctx.n.toNat b))
    (hansW : Answered s.map .write (s.eng.ctx.O.toNat + 16 * b) j)
    (hs : memResponse s.map .write (s.eng.ctx.O.toNat + 16 * b + j) = .silent) : engineStep s = s := by
  have hread := (readBytes_ok_iff _ s.mem _ _ _).mpr ⟨hans, rfl⟩
  have hwrite : ∀ l : List Byte, j < l.length →
      writeBytes s.map s.mem (s.eng.ctx.O.toNat + 16 * b) l = .silent := fun l hl => writeBytes_silent hl hansW hs
  have h16 : j < 16 := Nat.lt_of_lt_of_le hj (Nat.min_le_left _ _)
  simp only [engineStep, hp, stepMsg, hread]
  rw [hwrite _ (by simp [hj, h16])]

theorem engineStep_of_fill_silent {o : Nat} (hp : s.eng.phase = .fill o)
    (hs : memResponse s.map .write (s.eng.ctx.O.toNat + o) = .silent) : engineStep s = s := by
  simp only [engineStep, hp, stepFill, writeBytes, hs]

end

theorem engineSteps_of_fixed {s : State} (h : engineStep s = s) (k : Nat) : engineSteps k s = s := by
  induction k with
  | zero => rfl
  | succ k ih => rw [engineSteps, h, ih]

/-! ## The number of steps left (R241) -/

/-- A bound on the steps that a command still makes from a phase on; the comparison and every fill byte are counted,
whether or not they come. -/
def Ctx.stepsFrom (c : Ctx) : Phase → Nat
  | .idle => 0
  | .init i => (20 - i.val) + (blockCount c.a.toNat + (blockCount c.n.toNat + (10 + (c.n.toNat + 2))))
  | .ad b => (blockCount c.a.toNat - b) + (blockCount c.n.toNat + (10 + (c.n.toNat + 2)))
  | .msg b => (blockCount c.n.toNat - b) + (10 + (c.n.toNat + 2))
  | .mac j => (10 - j.val) + (c.n.toNat + 2)
  | .verify => c.n.toNat + 2
  | .fill o => (c.n.toNat - o) + 1
  | .wipe => 1

/-- INIT(0), where an accepted command starts, has the most steps before it. -/
theorem Ctx.stepsFrom_le (c : Ctx) (p : Phase) :
    c.stepsFrom p ≤ 20 + blockCount c.a.toNat + blockCount c.n.toNat + 10 + c.n.toNat + 2 := by
  cases p <;> simp only [Ctx.stepsFrom] <;> omega

theorem lt_blockCount {len b : Nat} (h : 16 * b < len) : b < blockCount len := by
  unfold blockCount; omega

theorem Ctx.stepsFrom_afterAd_le (c : Ctx) :
    c.stepsFrom c.afterAd ≤ blockCount c.n.toNat + (10 + (c.n.toNat + 2)) := by
  unfold Ctx.afterAd
  split
  · exact Nat.le_refl _
  · exact Nat.le_add_left _ _

theorem Ctx.stepsFrom_afterInit_le (c : Ctx) :
    c.stepsFrom c.afterInit ≤ blockCount c.a.toNat + (blockCount c.n.toNat + (10 + (c.n.toNat + 2))) := by
  unfold Ctx.afterInit
  split
  · exact Nat.le_refl _
  · exact Nat.le_add_left_of_le c.stepsFrom_afterAd_le

/-- The next phase has fewer steps before it: the order of the phases has no cycle (R42). -/
theorem Engine.stepsFrom_nextPhase_lt {e : Engine} (hinv : e.PhaseInv) (hrun : e.phase ≠ .idle) :
    e.ctx.stepsFrom e.nextPhase < e.ctx.stepsFrom e.phase := by
  unfold Engine.nextPhase
  unfold Engine.PhaseInv at hinv
  cases hp : e.phase with
  | idle => exact absurd hp hrun
  | init i =>
    have hle := e.ctx.stepsFrom_afterInit_le
    have hi := i.isLt
    simp only [Ctx.nextInit]
    split <;> simp only [Ctx.stepsFrom] at hle ⊢ <;> omega
  | ad b =>
    simp only [hp] at hinv
    have hle := e.ctx.stepsFrom_afterAd_le
    have hb := lt_blockCount hinv
    simp only [Ctx.nextAd]
    split <;> simp only [Ctx.stepsFrom] at hle ⊢ <;> omega
  | msg b =>
    simp only [hp] at hinv
    have hb := lt_blockCount hinv
    simp only [Ctx.nextMsg, Ctx.afterMsg]
    split <;> simp only [Ctx.stepsFrom, Fin.val_zero] <;> omega
  | mac j =>
    have hj := j.isLt
    simp only [Ctx.nextMac]
    split
    · simp only [Ctx.stepsFrom]; omega
    · split <;> simp only [Ctx.stepsFrom] <;> omega
  | verify =>
    simp only [Ctx.nextVerify]
    split <;> simp only [Ctx.stepsFrom] <;> omega
  | fill o =>
    simp only [hp] at hinv
    obtain ⟨ho, -, -⟩ := hinv
    simp only [Ctx.nextFill]
    split <;> simp only [Ctx.stepsFrom] <;> omega
  | wipe => exact Nat.one_pos

/-- When no access goes without a response, a step of a running command aborts it or moves on to the next phase. -/
theorem engineStep_moves {s : State} (hinv : s.eng.PhaseInv) (hrun : s.eng.phase ≠ .idle)
    (hns : s.eng.ctx.NeverSilent s.map) :
    engineStep s = busAbort s ∨ (engineStep s).eng.phase = s.eng.nextPhase := by
  obtain ⟨hA, hI, hO⟩ := hns
  unfold engineStep Engine.nextPhase
  unfold Engine.PhaseInv at hinv
  cases hp : s.eng.phase with
  | idle => exact absurd hp hrun
  | ad b =>
    rcases stepAd_cases b s with ⟨-, h⟩ | h | ⟨-, hsilent⟩
    · exact .inr (congrArg (fun t : State => t.eng.phase) h)
    · exact .inl h
    · refine absurd hsilent (readBytes_ne_silent fun j hj => ?_)
      rw [Nat.add_assoc]
      exact hA _ (by unfold blockLen at hj; omega)
  | msg b =>
    rcases stepMsg_cases b s with ⟨-, -, h⟩ | h | ⟨-, hsilent | hsilent⟩
    · exact .inr (congrArg (fun t : State => t.eng.phase) h)
    · exact .inl h
    · refine absurd hsilent (readBytes_ne_silent fun j hj => ?_)
      rw [Nat.add_assoc]
      exact hI _ (by unfold blockLen at hj; omega)
    · refine absurd hsilent (writeBytes_ne_silent fun j hj => ?_)
      rw [Nat.add_assoc]
      rw [payloadOut_length] at hj
      exact hO _ (by unfold blockLen at hj; omega)
  | fill o =>
    simp only [hp] at hinv
    rcases stepFill_cases o s with ⟨-, h⟩ | ⟨-, h⟩ | ⟨hsilent, -⟩
    · exact .inr (congrArg (fun t : State => t.eng.phase) h)
    · exact .inl h
    · exact absurd hsilent (hO o hinv.1)
  | _ => exact .inr rfl

/-- By induction on the steps left: each step ends the command or leaves it running with fewer of them. -/
theorem engineSteps_end {s : State} (hinv : s.eng.Inv s.map) (hm : s.mem.wf) (hb : s.eng.status.busy = true)
    (hns : s.eng.ctx.NeverSilent s.map) :
    ∃ k, k ≤ s.eng.ctx.stepsFrom s.eng.phase ∧
      (engineSteps k s).eng.phase = .idle ∧ (engineSteps k s).eng.status.done = true := by
  induction hleft : s.eng.ctx.stepsFrom s.eng.phase using Nat.strong_induction_on generalizing s with
  | _ left ih =>
    subst hleft
    have hrun : s.eng.phase ≠ .idle := hinv.status.1.mp hb
    have hless := Engine.stepsFrom_nextPhase_lt hinv.phase hrun
    cases hb' : (engineStep s).eng.status.busy with
    | false =>
      obtain ⟨-, hidle, hdone⟩ := engineStep_end hb hb'
      exact ⟨1, Nat.one_le_of_lt hless, hidle, hdone⟩
    | true =>
      obtain ⟨-, hctx⟩ := engineStep_ctx s hb'
      have hmap : (engineStep s).map = s.map := (engineStep_around s).1.2.1
      have hphase : (engineStep s).eng.phase = s.eng.nextPhase := by
        rcases engineStep_moves hinv.phase hrun hns with h | h
        · rw [h] at hb'; cases hb'
        · exact h
      obtain ⟨hinv', hm'⟩ := engineStep_inv s hinv hm
      obtain ⟨k, hk, hend⟩ := ih _ (by rwa [hctx, hphase]) (hmap ▸ hinv') hm' hb' (by rwa [hctx, hmap]) rfl
      rw [hctx, hphase] at hk
      exact ⟨k + 1, Nat.le_trans (Nat.succ_le_succ hk) hless, hend⟩

end Sys2Proof.Machine

open Sys2Proof.Machine

/-- Settles O1: both engines are `Engine.reset`. -/
theorem resetZeroesEveryPieceOfState : Obligations.ResetZeroesEveryPieceOfState := by
  intro e he
  obtain rfl : e = Engine.reset := by
    rcases he with rfl | ⟨s, rfl⟩
    · rfl
    · exact resetEngine_eng s
  exact ⟨rfl, rfl, rfl, rfl, rfl, rfl, rfl, rfl, Engine.contents_reset, rfl⟩

/-- Settles O2: the reset draws the bytes of OUT, and the range check keeps them inside memory. -/
theorem resetWhileBusyAbandonsTheCommand : Obligations.ResetWhileBusyAbandonsTheCommand := by
  intro s hinv hb
  have hO := Engine.outRange _ _ hinv.eng (hinv.eng.status.1.mp hb)
  have hidle := engineStep_resetEngine s
  rw [resetEngine_of_busy hb] at hidle ⊢
  exact ⟨rfl, rfl, hidle, fun x hx => Memory.read_drawAll_other _ _ _ _ x hx,
    fun j hj => Memory.read_drawAll_same _ _ _ _ j hinv.memory hO hj, rfl, rfl, rfl, rfl, rfl⟩

/-- Settles O28: the byte `x` is one that the access shares with a buffer of the running command. -/
theorem liveBufferAccessIsRefused : Obligations.LiveBufferAccessIsRefused := fun _ _ _ _ he hb hlo =>
  ⟨fun _ hin hhi hx => agentStore_of_live he hb hin hlo hhi hx,
    fun _ hin hhi hx => agentLoad_of_live he hb hin hlo hhi hx⟩

/-- Settles O46: the one engine is idle, and memory is empty. -/
theorem invariantHoldsAtReset : Obligations.InvariantHoldsAtReset := State.reset_inv

/-- Settles O55, from the number of steps left, which is greatest in INIT(0). -/
theorem everyCommandEnds : Obligations.EveryCommandEnds := by
  intro s hinv hb hns
  obtain ⟨k, hk, hend⟩ := engineSteps_end hinv.eng hinv.memory hb hns
  exact ⟨k, Nat.le_trans hk (s.eng.ctx.stepsFrom_le s.eng.phase), hend⟩

/-- Settles O56: the step whose access gets no response is the identity, so every further step is. -/
theorem unansweredAccessHangs : Obligations.UnansweredAccessHangs := by
  intro s j h
  refine engineSteps_of_fixed ?_
  rcases h with ⟨b, hp, hj, hans, hs⟩ | ⟨b, hp, hj, hans, hs⟩ | ⟨b, hp, hj, hans, hansW, hs⟩ | ⟨o, hp, hs⟩
  · exact engineStep_of_ad_silent hp hj hans hs
  · exact engineStep_of_msg_read_silent hp hj hans hs
  · exact engineStep_of_msg_write_silent hp hj hans hansW hs
  · exact engineStep_of_fill_silent hp hs
end
